-- ==== Sys2Proof/Word.lean ====
section
/-! DEFINITION. The word types of the machine (20_memory.md R61; 00_scope.md R7, R10). -/

namespace Sys2Proof

/-- A 32-bit word: a register value or an address (R7, R10, R60). -/
abbrev Word := BitVec 32

/-- A halfword: one instruction (R61, R100). -/
abbrev Half := BitVec 16

/-- A byte, the addressable unit (R7, R61). -/
abbrev Byte := BitVec 8

end Sys2Proof
end

