-- ==== Sys2Proof/Syntax.lean ====
section
/-! DEFINITION. The instructions: one constructor per row of spec/opcode_table.json, in the table's order. Operands are
the instruction's own fields (30_encoding.md R101 to R119), each at the width its format gives it. The twenty-four rows
that give no instruction (R124, R125, R134) carry the halfword itself, which is what `UndefinedEncoding(instr)` records. -/

namespace Sys2Proof

/-- A 3-bit register field that names a Lo register, R0 to R7 (R21, R122). -/
abbrev LoReg := BitVec 3

/-- A 3-bit register field that, with its H flag 1, names a Hi register: field 0 is R8, field 7 is R15 (R21, R122). -/
abbrev HiReg := BitVec 3

/-- The number of a general register, R0 to R15 (R20). -/
abbrev Reg := BitVec 4

/-- The fourteen conditions of format 16 (R290), in the order of their codes 0000 to 1101. -/
inductive Cond where
  | eq | ne | cs | cc | mi | pl | vs | vc | hi | ls | ge | lt | gt | le
  deriving DecidableEq, Repr

/-- The instructions, one constructor per row of the opcode table (R127). -/
inductive Instr where
  -- Format 1: move shifted register
  | lslImm (rd rs : LoReg) (offset5 : BitVec 5)
  | lsrImm (rd rs : LoReg) (offset5 : BitVec 5)
  | asrImm (rd rs : LoReg) (offset5 : BitVec 5)
  -- Format 2: add/subtract
  | addReg (rd rs rn : LoReg)
  | subReg (rd rs rn : LoReg)
  | addImm3 (rd rs : LoReg) (offset3 : BitVec 3)
  | subImm3 (rd rs : LoReg) (offset3 : BitVec 3)
  -- Format 3: move/compare/add/subtract immediate
  | movImm8 (rd : LoReg) (offset8 : BitVec 8)
  | cmpImm8 (rd : LoReg) (offset8 : BitVec 8)
  | addImm8 (rd : LoReg) (offset8 : BitVec 8)
  | subImm8 (rd : LoReg) (offset8 : BitVec 8)
  -- Format 4: ALU operations
  | andReg (rd rs : LoReg)
  | eorReg (rd rs : LoReg)
  | lslReg (rd rs : LoReg)
  | lsrReg (rd rs : LoReg)
  | asrReg (rd rs : LoReg)
  | adcReg (rd rs : LoReg)
  | sbcReg (rd rs : LoReg)
  | rorReg (rd rs : LoReg)
  | tstReg (rd rs : LoReg)
  | negReg (rd rs : LoReg)
  | cmpReg (rd rs : LoReg)
  | cmnReg (rd rs : LoReg)
  | orrReg (rd rs : LoReg)
  | mulReg (rd rs : LoReg)
  | bicReg (rd rs : LoReg)
  | mvnReg (rd rs : LoReg)
  -- Format 5: Hi register operations and branch exchange
  | addRdHs (rd : LoReg) (hs : HiReg)
  | addHdRs (hd : HiReg) (rs : LoReg)
  | addHdHs (hd hs : HiReg)
  | cmpRdHs (rd : LoReg) (hs : HiReg)
  | cmpHdRs (hd : HiReg) (rs : LoReg)
  | cmpHdHs (hd hs : HiReg)
  | movRdHs (rd : LoReg) (hs : HiReg)
  | movHdRs (hd : HiReg) (rs : LoReg)
  | movHdHs (hd hs : HiReg)
  | bxRs (rs : LoReg)
  | bxHs (hs : HiReg)
  -- Format 6: PC-relative load
  | ldrPc (rd : LoReg) (word8 : BitVec 8)
  -- Format 7: load/store with register offset
  | strReg (rd rb ro : LoReg)
  | strbReg (rd rb ro : LoReg)
  | ldrReg (rd rb ro : LoReg)
  | ldrbReg (rd rb ro : LoReg)
  -- Format 8: load/store sign-extended byte/halfword
  | strhReg (rd rb ro : LoReg)
  | ldsbReg (rd rb ro : LoReg)
  | ldrhReg (rd rb ro : LoReg)
  | ldshReg (rd rb ro : LoReg)
  -- Format 9: load/store with immediate offset
  | strImm (rd rb : LoReg) (offset5 : BitVec 5)
  | ldrImm (rd rb : LoReg) (offset5 : BitVec 5)
  | strbImm (rd rb : LoReg) (offset5 : BitVec 5)
  | ldrbImm (rd rb : LoReg) (offset5 : BitVec 5)
  -- Format 10: load/store halfword
  | strhImm (rd rb : LoReg) (offset5 : BitVec 5)
  | ldrhImm (rd rb : LoReg) (offset5 : BitVec 5)
  -- Format 11: SP-relative load/store
  | strSp (rd : LoReg) (word8 : BitVec 8)
  | ldrSp (rd : LoReg) (word8 : BitVec 8)
  -- Format 12: load address
  | addRdPc (rd : LoReg) (word8 : BitVec 8)
  | addRdSp (rd : LoReg) (word8 : BitVec 8)
  -- Format 13: add offset to stack pointer
  | addSpImm (sword7 : BitVec 7)
  | addSpNegImm (sword7 : BitVec 7)
  -- Format 14: push/pop registers
  | push (rlist : BitVec 8)
  | pushLr (rlist : BitVec 8)
  | pop (rlist : BitVec 8)
  | popPc (rlist : BitVec 8)
  -- Format 15: multiple load/store
  | stmia (rb : LoReg) (rlist : BitVec 8)
  | ldmia (rb : LoReg) (rlist : BitVec 8)
  -- Format 16: conditional branch
  | beq (soffset8 : BitVec 8)
  | bne (soffset8 : BitVec 8)
  | bcs (soffset8 : BitVec 8)
  | bcc (soffset8 : BitVec 8)
  | bmi (soffset8 : BitVec 8)
  | bpl (soffset8 : BitVec 8)
  | bvs (soffset8 : BitVec 8)
  | bvc (soffset8 : BitVec 8)
  | bhi (soffset8 : BitVec 8)
  | bls (soffset8 : BitVec 8)
  | bge (soffset8 : BitVec 8)
  | blt (soffset8 : BitVec 8)
  | bgt (soffset8 : BitVec 8)
  | ble (soffset8 : BitVec 8)
  -- Format 17: software interrupt
  | swi (value8 : BitVec 8)
  -- Format 18: unconditional branch
  | b (offset11 : BitVec 11)
  -- Format 19: long branch with link, two instructions
  | blFirst (offset : BitVec 11)
  | blSecond (offset : BitVec 11)
  -- Undefined by the source, and BX with low bits set (R124, R134)
  | undefAddLoLo (instr : Half)
  | undefCmpLoLo (instr : Half)
  | undefMovLoLo (instr : Half)
  | undefBxH1 (instr : Half)
  | undefBxLow1 (instr : Half)
  | undefBxLow2 (instr : Half)
  | undefBxLow3 (instr : Half)
  | undefBxLow4 (instr : Half)
  | undefBxLow5 (instr : Half)
  | undefBxLow6 (instr : Half)
  | undefBxLow7 (instr : Half)
  | undefCond14 (instr : Half)
  -- Encodings no format covers (R125)
  | unassignedB1 (instr : Half)
  | unassignedB2 (instr : Half)
  | unassignedB3 (instr : Half)
  | unassignedB6 (instr : Half)
  | unassignedB7 (instr : Half)
  | unassignedB8 (instr : Half)
  | unassignedB9 (instr : Half)
  | unassignedBA (instr : Half)
  | unassignedBB (instr : Half)
  | unassignedBE (instr : Half)
  | unassignedBF (instr : Half)
  | unassignedE8 (instr : Half)
  deriving DecidableEq, Repr

end Sys2Proof
end

