-- ==== Sys2Proof/WellFormed.lean ====
section
/-! DEFINITION. When an instruction term stands for an encoding. The operands of the eighty-three defined instructions
are typed at the width of their fields, so every such term is well formed; a term of the other twenty-four carries a
halfword, which must lie in its own row of the opcode map (30_encoding.md R124, R125, R134). -/

namespace Sys2Proof

/-- The halfword `h` lies in the row of the opcode map with this mask and match (R127). -/
def inRow (mask pat h : Half) : Bool := h &&& mask == pat

/-- The instruction stands for a halfword of its row of the opcode table. -/
def Instr.wellFormed : Instr → Bool
  | .undefAddLoLo h => inRow 0xFFC0#16 0x4400#16 h
  | .undefCmpLoLo h => inRow 0xFFC0#16 0x4500#16 h
  | .undefMovLoLo h => inRow 0xFFC0#16 0x4600#16 h
  | .undefBxH1 h => inRow 0xFF80#16 0x4780#16 h
  | .undefBxLow1 h => inRow 0xFF87#16 0x4701#16 h
  | .undefBxLow2 h => inRow 0xFF87#16 0x4702#16 h
  | .undefBxLow3 h => inRow 0xFF87#16 0x4703#16 h
  | .undefBxLow4 h => inRow 0xFF87#16 0x4704#16 h
  | .undefBxLow5 h => inRow 0xFF87#16 0x4705#16 h
  | .undefBxLow6 h => inRow 0xFF87#16 0x4706#16 h
  | .undefBxLow7 h => inRow 0xFF87#16 0x4707#16 h
  | .undefCond14 h => inRow 0xFF00#16 0xDE00#16 h
  | .unassignedB1 h => inRow 0xFF00#16 0xB100#16 h
  | .unassignedB2 h => inRow 0xFF00#16 0xB200#16 h
  | .unassignedB3 h => inRow 0xFF00#16 0xB300#16 h
  | .unassignedB6 h => inRow 0xFF00#16 0xB600#16 h
  | .unassignedB7 h => inRow 0xFF00#16 0xB700#16 h
  | .unassignedB8 h => inRow 0xFF00#16 0xB800#16 h
  | .unassignedB9 h => inRow 0xFF00#16 0xB900#16 h
  | .unassignedBA h => inRow 0xFF00#16 0xBA00#16 h
  | .unassignedBB h => inRow 0xFF00#16 0xBB00#16 h
  | .unassignedBE h => inRow 0xFF00#16 0xBE00#16 h
  | .unassignedBF h => inRow 0xFF00#16 0xBF00#16 h
  | .unassignedE8 h => inRow 0xF800#16 0xE800#16 h
  | .lslImm .. | .lsrImm .. | .asrImm .. => true
  | .addReg .. | .subReg .. | .addImm3 .. | .subImm3 .. => true
  | .movImm8 .. | .cmpImm8 .. | .addImm8 .. | .subImm8 .. => true
  | .andReg .. | .eorReg .. | .lslReg .. | .lsrReg .. | .asrReg .. | .adcReg .. | .sbcReg .. | .rorReg .. => true
  | .tstReg .. | .negReg .. | .cmpReg .. | .cmnReg .. | .orrReg .. | .mulReg .. | .bicReg .. | .mvnReg .. => true
  | .addRdHs .. | .addHdRs .. | .addHdHs .. | .cmpRdHs .. | .cmpHdRs .. | .cmpHdHs .. => true
  | .movRdHs .. | .movHdRs .. | .movHdHs .. | .bxRs .. | .bxHs .. => true
  | .ldrPc .. | .strReg .. | .strbReg .. | .ldrReg .. | .ldrbReg .. => true
  | .strhReg .. | .ldsbReg .. | .ldrhReg .. | .ldshReg .. => true
  | .strImm .. | .ldrImm .. | .strbImm .. | .ldrbImm .. | .strhImm .. | .ldrhImm .. | .strSp .. | .ldrSp .. => true
  | .addRdPc .. | .addRdSp .. | .addSpImm .. | .addSpNegImm .. => true
  | .push .. | .pushLr .. | .pop .. | .popPc .. | .stmia .. | .ldmia .. => true
  | .beq .. | .bne .. | .bcs .. | .bcc .. | .bmi .. | .bpl .. | .bvs .. | .bvc .. => true
  | .bhi .. | .bls .. | .bge .. | .blt .. | .bgt .. | .ble .. => true
  | .swi .. | .b .. | .blFirst .. | .blSecond .. => true

end Sys2Proof
end

