-- ==== Sys2Proof/Decode.lean ====
section
/-! DEFINITION. The decoder, total on every halfword and on every list of bytes, and after it the encoder (30_encoding.md).
The decoder follows the order of tests of R120 and reads each field at the place R101 to R119 give it; the encoder is
written from the patterns of R127. -/

namespace Sys2Proof

/-- Bits `lo + w - 1` down to `lo` of the instruction (R9). -/
abbrev field (h : Half) (lo w : Nat) : BitVec w := h.extractLsb' lo w

/-- Format 1, Op = 00, 01, 10 (R101). -/
def decodeFormat1 (h : Half) : Instr :=
  match field h 11 2 with
  | 0b00#2 => .lslImm (field h 0 3) (field h 3 3) (field h 6 5)
  | 0b01#2 => .lsrImm (field h 0 3) (field h 3 3) (field h 6 5)
  | _ => .asrImm (field h 0 3) (field h 3 3) (field h 6 5)

/-- Format 2: I is bit 10, Op bit 9 (R102). -/
def decodeFormat2 (h : Half) : Instr :=
  match field h 9 2 with
  | 0b00#2 => .addReg (field h 0 3) (field h 3 3) (field h 6 3)
  | 0b01#2 => .subReg (field h 0 3) (field h 3 3) (field h 6 3)
  | 0b10#2 => .addImm3 (field h 0 3) (field h 3 3) (field h 6 3)
  | _ => .subImm3 (field h 0 3) (field h 3 3) (field h 6 3)

/-- Format 3 (R103). -/
def decodeFormat3 (h : Half) : Instr :=
  match field h 11 2 with
  | 0b00#2 => .movImm8 (field h 8 3) (field h 0 8)
  | 0b01#2 => .cmpImm8 (field h 8 3) (field h 0 8)
  | 0b10#2 => .addImm8 (field h 8 3) (field h 0 8)
  | _ => .subImm8 (field h 8 3) (field h 0 8)

/-- Format 4: Op is bits 9 to 6 (R104). -/
def decodeFormat4 (h : Half) : Instr :=
  match field h 6 4 with
  | 0b0000#4 => .andReg (field h 0 3) (field h 3 3)
  | 0b0001#4 => .eorReg (field h 0 3) (field h 3 3)
  | 0b0010#4 => .lslReg (field h 0 3) (field h 3 3)
  | 0b0011#4 => .lsrReg (field h 0 3) (field h 3 3)
  | 0b0100#4 => .asrReg (field h 0 3) (field h 3 3)
  | 0b0101#4 => .adcReg (field h 0 3) (field h 3 3)
  | 0b0110#4 => .sbcReg (field h 0 3) (field h 3 3)
  | 0b0111#4 => .rorReg (field h 0 3) (field h 3 3)
  | 0b1000#4 => .tstReg (field h 0 3) (field h 3 3)
  | 0b1001#4 => .negReg (field h 0 3) (field h 3 3)
  | 0b1010#4 => .cmpReg (field h 0 3) (field h 3 3)
  | 0b1011#4 => .cmnReg (field h 0 3) (field h 3 3)
  | 0b1100#4 => .orrReg (field h 0 3) (field h 3 3)
  | 0b1101#4 => .mulReg (field h 0 3) (field h 3 3)
  | 0b1110#4 => .bicReg (field h 0 3) (field h 3 3)
  | _ => .mvnReg (field h 0 3) (field h 3 3)

/-- Format 5, Op = 11 with H1 = 0: BX only when bits 2 to 0 are 000 (R134, D17). -/
def decodeBx (h : Half) : Instr :=
  match field h 0 3 with
  | 0b000#3 => if field h 6 1 = 0b0#1 then .bxRs (field h 3 3) else .bxHs (field h 3 3)
  | 0b001#3 => .undefBxLow1 h
  | 0b010#3 => .undefBxLow2 h
  | 0b011#3 => .undefBxLow3 h
  | 0b100#3 => .undefBxLow4 h
  | 0b101#3 => .undefBxLow5 h
  | 0b110#3 => .undefBxLow6 h
  | _ => .undefBxLow7 h

/-- Format 5: Op is bits 9 and 8, H1 bit 7, H2 bit 6 (R105, R124). -/
def decodeFormat5 (h : Half) : Instr :=
  match field h 6 4 with
  | 0b0000#4 => .undefAddLoLo h
  | 0b0001#4 => .addRdHs (field h 0 3) (field h 3 3)
  | 0b0010#4 => .addHdRs (field h 0 3) (field h 3 3)
  | 0b0011#4 => .addHdHs (field h 0 3) (field h 3 3)
  | 0b0100#4 => .undefCmpLoLo h
  | 0b0101#4 => .cmpRdHs (field h 0 3) (field h 3 3)
  | 0b0110#4 => .cmpHdRs (field h 0 3) (field h 3 3)
  | 0b0111#4 => .cmpHdHs (field h 0 3) (field h 3 3)
  | 0b1000#4 => .undefMovLoLo h
  | 0b1001#4 => .movRdHs (field h 0 3) (field h 3 3)
  | 0b1010#4 => .movHdRs (field h 0 3) (field h 3 3)
  | 0b1011#4 => .movHdHs (field h 0 3) (field h 3 3)
  | 0b1100#4 => decodeBx h
  | 0b1101#4 => decodeBx h
  | _ => .undefBxH1 h

/-- Format 7: L is bit 11, B bit 10 (R107). -/
def decodeFormat7 (h : Half) : Instr :=
  match field h 10 2 with
  | 0b00#2 => .strReg (field h 0 3) (field h 3 3) (field h 6 3)
  | 0b01#2 => .strbReg (field h 0 3) (field h 3 3) (field h 6 3)
  | 0b10#2 => .ldrReg (field h 0 3) (field h 3 3) (field h 6 3)
  | _ => .ldrbReg (field h 0 3) (field h 3 3) (field h 6 3)

/-- Format 8: H is bit 11, S bit 10 (R108, C5). -/
def decodeFormat8 (h : Half) : Instr :=
  match field h 10 2 with
  | 0b00#2 => .strhReg (field h 0 3) (field h 3 3) (field h 6 3)
  | 0b01#2 => .ldsbReg (field h 0 3) (field h 3 3) (field h 6 3)
  | 0b10#2 => .ldrhReg (field h 0 3) (field h 3 3) (field h 6 3)
  | _ => .ldshReg (field h 0 3) (field h 3 3) (field h 6 3)

/-- Format 9: B is bit 12, L bit 11 (R109, C5). -/
def decodeFormat9 (h : Half) : Instr :=
  match field h 11 2 with
  | 0b00#2 => .strImm (field h 0 3) (field h 3 3) (field h 6 5)
  | 0b01#2 => .ldrImm (field h 0 3) (field h 3 3) (field h 6 5)
  | 0b10#2 => .strbImm (field h 0 3) (field h 3 3) (field h 6 5)
  | _ => .ldrbImm (field h 0 3) (field h 3 3) (field h 6 5)

/-- Format 10: L is bit 11 (R110). -/
def decodeFormat10 (h : Half) : Instr :=
  if field h 11 1 = 0b0#1 then .strhImm (field h 0 3) (field h 3 3) (field h 6 5)
  else .ldrhImm (field h 0 3) (field h 3 3) (field h 6 5)

/-- Format 11: L is bit 11 (R111). -/
def decodeFormat11 (h : Half) : Instr :=
  if field h 11 1 = 0b0#1 then .strSp (field h 8 3) (field h 0 8) else .ldrSp (field h 8 3) (field h 0 8)

/-- Format 12: SP is bit 11 (R112). -/
def decodeFormat12 (h : Half) : Instr :=
  if field h 11 1 = 0b0#1 then .addRdPc (field h 8 3) (field h 0 8) else .addRdSp (field h 8 3) (field h 0 8)

/-- The halfwords with bits 15 to 12 = 1011: format 13, format 14, and the unassigned ones (R113, R114, R120, R125). -/
def decodeFormats13And14 (h : Half) : Instr :=
  match field h 8 4 with
  | 0b0000#4 => if field h 7 1 = 0b0#1 then .addSpImm (field h 0 7) else .addSpNegImm (field h 0 7)
  | 0b0100#4 => .push (field h 0 8)
  | 0b0101#4 => .pushLr (field h 0 8)
  | 0b1100#4 => .pop (field h 0 8)
  | 0b1101#4 => .popPc (field h 0 8)
  | 0b0001#4 => .unassignedB1 h
  | 0b0010#4 => .unassignedB2 h
  | 0b0011#4 => .unassignedB3 h
  | 0b0110#4 => .unassignedB6 h
  | 0b0111#4 => .unassignedB7 h
  | 0b1000#4 => .unassignedB8 h
  | 0b1001#4 => .unassignedB9 h
  | 0b1010#4 => .unassignedBA h
  | 0b1011#4 => .unassignedBB h
  | 0b1110#4 => .unassignedBE h
  | _ => .unassignedBF h

/-- Format 15: L is bit 11 (R115). -/
def decodeFormat15 (h : Half) : Instr :=
  if field h 11 1 = 0b0#1 then .stmia (field h 8 3) (field h 0 8) else .ldmia (field h 8 3) (field h 0 8)

/-- The halfwords with bits 15 to 12 = 1101: Cond = 1111 is format 17, 1110 is undefined, the rest is format 16
(R116, R117, R120, R124, R293). -/
def decodeFormats16And17 (h : Half) : Instr :=
  match field h 8 4 with
  | 0b1111#4 => .swi (field h 0 8)
  | 0b1110#4 => .undefCond14 h
  | 0b0000#4 => .beq (field h 0 8)
  | 0b0001#4 => .bne (field h 0 8)
  | 0b0010#4 => .bcs (field h 0 8)
  | 0b0011#4 => .bcc (field h 0 8)
  | 0b0100#4 => .bmi (field h 0 8)
  | 0b0101#4 => .bpl (field h 0 8)
  | 0b0110#4 => .bvs (field h 0 8)
  | 0b0111#4 => .bvc (field h 0 8)
  | 0b1000#4 => .bhi (field h 0 8)
  | 0b1001#4 => .bls (field h 0 8)
  | 0b1010#4 => .bge (field h 0 8)
  | 0b1011#4 => .blt (field h 0 8)
  | 0b1100#4 => .bgt (field h 0 8)
  | _ => .ble (field h 0 8)

/-- Format 19: H is bit 11 (R119). -/
def decodeFormat19 (h : Half) : Instr :=
  if field h 11 1 = 0b0#1 then .blFirst (field h 0 11) else .blSecond (field h 0 11)

/-- The instruction a halfword is: the tests of R120 in their order, a partition of all 65536 halfwords (R128). -/
def decodeHalf (h : Half) : Instr :=
  if field h 11 5 = 0b00011#5 then decodeFormat2 h
  else if field h 13 3 = 0b000#3 then decodeFormat1 h
  else if field h 13 3 = 0b001#3 then decodeFormat3 h
  else if field h 10 6 = 0b010000#6 then decodeFormat4 h
  else if field h 10 6 = 0b010001#6 then decodeFormat5 h
  else if field h 11 5 = 0b01001#5 then .ldrPc (field h 8 3) (field h 0 8)
  else if field h 12 4 = 0b0101#4 then if field h 9 1 = 0b0#1 then decodeFormat7 h else decodeFormat8 h
  else if field h 13 3 = 0b011#3 then decodeFormat9 h
  else if field h 12 4 = 0b1000#4 then decodeFormat10 h
  else if field h 12 4 = 0b1001#4 then decodeFormat11 h
  else if field h 12 4 = 0b1010#4 then decodeFormat12 h
  else if field h 12 4 = 0b1011#4 then decodeFormats13And14 h
  else if field h 12 4 = 0b1100#4 then decodeFormat15 h
  else if field h 12 4 = 0b1101#4 then decodeFormats16And17 h
  else if field h 11 5 = 0b11100#5 then .b (field h 0 11)
  else if field h 11 5 = 0b11101#5 then .unassignedE8 h
  else decodeFormat19 h

/-- Why a list of bytes holds no instruction. -/
inductive DecodeError where
  /-- Fewer bytes than one halfword are left (R100). -/
  | truncated
  deriving DecidableEq, Repr

/-- A halfword from its two bytes in address order (R63). -/
def halfOfBytes (bigEndian : Bool) (b0 b1 : Byte) : Half := if bigEndian then b0 ++ b1 else b1 ++ b0

/-- The two bytes of a halfword in address order (R63). -/
def bytesOfHalf (bigEndian : Bool) (h : Half) : List Byte :=
  if bigEndian then [h.extractLsb' 8 8, h.extractLsb' 0 8] else [h.extractLsb' 0 8, h.extractLsb' 8 8]

/-- Reads one instruction from a list of bytes and answers it with the bytes left (R67, R100). -/
def decode (bigEndian : Bool) : List Byte → Except DecodeError (Instr × List Byte)
  | b0 :: b1 :: rest => .ok (decodeHalf (halfOfBytes bigEndian b0 b1), rest)
  | _ => .error .truncated

/-- The instruction the decoder reads from an instruction whose bits are `w`, in the default byte order (D1). -/
def decodeTableWord (nbits w : Nat) : Option Instr :=
  match decode false (bytesOfHalf false (BitVec.ofNat 16 (w % 2 ^ nbits))) with
  | .ok (i, _) => some i
  | .error _ => none

/-- The halfword of an instruction (R101 to R119, R127); of a row that gives no instruction, the halfword it carries. -/
def encode : Instr → Half
  | .lslImm rd rs offset5 => 0b00000#5 ++ offset5 ++ rs ++ rd
  | .lsrImm rd rs offset5 => 0b00001#5 ++ offset5 ++ rs ++ rd
  | .asrImm rd rs offset5 => 0b00010#5 ++ offset5 ++ rs ++ rd
  | .addReg rd rs rn => 0b0001100#7 ++ rn ++ rs ++ rd
  | .subReg rd rs rn => 0b0001101#7 ++ rn ++ rs ++ rd
  | .addImm3 rd rs offset3 => 0b0001110#7 ++ offset3 ++ rs ++ rd
  | .subImm3 rd rs offset3 => 0b0001111#7 ++ offset3 ++ rs ++ rd
  | .movImm8 rd offset8 => 0b00100#5 ++ rd ++ offset8
  | .cmpImm8 rd offset8 => 0b00101#5 ++ rd ++ offset8
  | .addImm8 rd offset8 => 0b00110#5 ++ rd ++ offset8
  | .subImm8 rd offset8 => 0b00111#5 ++ rd ++ offset8
  | .andReg rd rs => 0b0100000000#10 ++ rs ++ rd
  | .eorReg rd rs => 0b0100000001#10 ++ rs ++ rd
  | .lslReg rd rs => 0b0100000010#10 ++ rs ++ rd
  | .lsrReg rd rs => 0b0100000011#10 ++ rs ++ rd
  | .asrReg rd rs => 0b0100000100#10 ++ rs ++ rd
  | .adcReg rd rs => 0b0100000101#10 ++ rs ++ rd
  | .sbcReg rd rs => 0b0100000110#10 ++ rs ++ rd
  | .rorReg rd rs => 0b0100000111#10 ++ rs ++ rd
  | .tstReg rd rs => 0b0100001000#10 ++ rs ++ rd
  | .negReg rd rs => 0b0100001001#10 ++ rs ++ rd
  | .cmpReg rd rs => 0b0100001010#10 ++ rs ++ rd
  | .cmnReg rd rs => 0b0100001011#10 ++ rs ++ rd
  | .orrReg rd rs => 0b0100001100#10 ++ rs ++ rd
  | .mulReg rd rs => 0b0100001101#10 ++ rs ++ rd
  | .bicReg rd rs => 0b0100001110#10 ++ rs ++ rd
  | .mvnReg rd rs => 0b0100001111#10 ++ rs ++ rd
  | .addRdHs rd hs => 0b0100010001#10 ++ hs ++ rd
  | .addHdRs hd rs => 0b0100010010#10 ++ rs ++ hd
  | .addHdHs hd hs => 0b0100010011#10 ++ hs ++ hd
  | .cmpRdHs rd hs => 0b0100010101#10 ++ hs ++ rd
  | .cmpHdRs hd rs => 0b0100010110#10 ++ rs ++ hd
  | .cmpHdHs hd hs => 0b0100010111#10 ++ hs ++ hd
  | .movRdHs rd hs => 0b0100011001#10 ++ hs ++ rd
  | .movHdRs hd rs => 0b0100011010#10 ++ rs ++ hd
  | .movHdHs hd hs => 0b0100011011#10 ++ hs ++ hd
  | .bxRs rs => 0b0100011100#10 ++ rs ++ 0b000#3
  | .bxHs hs => 0b0100011101#10 ++ hs ++ 0b000#3
  | .ldrPc rd word8 => 0b01001#5 ++ rd ++ word8
  | .strReg rd rb ro => 0b0101000#7 ++ ro ++ rb ++ rd
  | .strbReg rd rb ro => 0b0101010#7 ++ ro ++ rb ++ rd
  | .ldrReg rd rb ro => 0b0101100#7 ++ ro ++ rb ++ rd
  | .ldrbReg rd rb ro => 0b0101110#7 ++ ro ++ rb ++ rd
  | .strhReg rd rb ro => 0b0101001#7 ++ ro ++ rb ++ rd
  | .ldsbReg rd rb ro => 0b0101011#7 ++ ro ++ rb ++ rd
  | .ldrhReg rd rb ro => 0b0101101#7 ++ ro ++ rb ++ rd
  | .ldshReg rd rb ro => 0b0101111#7 ++ ro ++ rb ++ rd
  | .strImm rd rb offset5 => 0b01100#5 ++ offset5 ++ rb ++ rd
  | .ldrImm rd rb offset5 => 0b01101#5 ++ offset5 ++ rb ++ rd
  | .strbImm rd rb offset5 => 0b01110#5 ++ offset5 ++ rb ++ rd
  | .ldrbImm rd rb offset5 => 0b01111#5 ++ offset5 ++ rb ++ rd
  | .strhImm rd rb offset5 => 0b10000#5 ++ offset5 ++ rb ++ rd
  | .ldrhImm rd rb offset5 => 0b10001#5 ++ offset5 ++ rb ++ rd
  | .strSp rd word8 => 0b10010#5 ++ rd ++ word8
  | .ldrSp rd word8 => 0b10011#5 ++ rd ++ word8
  | .addRdPc rd word8 => 0b10100#5 ++ rd ++ word8
  | .addRdSp rd word8 => 0b10101#5 ++ rd ++ word8
  | .addSpImm sword7 => 0b101100000#9 ++ sword7
  | .addSpNegImm sword7 => 0b101100001#9 ++ sword7
  | .push rlist => 0b10110100#8 ++ rlist
  | .pushLr rlist => 0b10110101#8 ++ rlist
  | .pop rlist => 0b10111100#8 ++ rlist
  | .popPc rlist => 0b10111101#8 ++ rlist
  | .stmia rb rlist => 0b11000#5 ++ rb ++ rlist
  | .ldmia rb rlist => 0b11001#5 ++ rb ++ rlist
  | .beq soffset8 => 0b11010000#8 ++ soffset8
  | .bne soffset8 => 0b11010001#8 ++ soffset8
  | .bcs soffset8 => 0b11010010#8 ++ soffset8
  | .bcc soffset8 => 0b11010011#8 ++ soffset8
  | .bmi soffset8 => 0b11010100#8 ++ soffset8
  | .bpl soffset8 => 0b11010101#8 ++ soffset8
  | .bvs soffset8 => 0b11010110#8 ++ soffset8
  | .bvc soffset8 => 0b11010111#8 ++ soffset8
  | .bhi soffset8 => 0b11011000#8 ++ soffset8
  | .bls soffset8 => 0b11011001#8 ++ soffset8
  | .bge soffset8 => 0b11011010#8 ++ soffset8
  | .blt soffset8 => 0b11011011#8 ++ soffset8
  | .bgt soffset8 => 0b11011100#8 ++ soffset8
  | .ble soffset8 => 0b11011101#8 ++ soffset8
  | .swi value8 => 0b11011111#8 ++ value8
  | .b offset11 => 0b11100#5 ++ offset11
  | .blFirst offset => 0b11110#5 ++ offset
  | .blSecond offset => 0b11111#5 ++ offset
  | .undefAddLoLo instr => instr
  | .undefCmpLoLo instr => instr
  | .undefMovLoLo instr => instr
  | .undefBxH1 instr => instr
  | .undefBxLow1 instr => instr
  | .undefBxLow2 instr => instr
  | .undefBxLow3 instr => instr
  | .undefBxLow4 instr => instr
  | .undefBxLow5 instr => instr
  | .undefBxLow6 instr => instr
  | .undefBxLow7 instr => instr
  | .undefCond14 instr => instr
  | .unassignedB1 instr => instr
  | .unassignedB2 instr => instr
  | .unassignedB3 instr => instr
  | .unassignedB6 instr => instr
  | .unassignedB7 instr => instr
  | .unassignedB8 instr => instr
  | .unassignedB9 instr => instr
  | .unassignedBA instr => instr
  | .unassignedBB instr => instr
  | .unassignedBE instr => instr
  | .unassignedBF instr => instr
  | .unassignedE8 instr => instr

/-- The bytes of an instruction in address order (R63, R67). -/
def encodeBytes (bigEndian : Bool) (i : Instr) : List Byte := bytesOfHalf bigEndian (encode i)

/-- A row of the opcode map: a halfword `h` is the row's when `h AND mask = pat` (R127). -/
structure Row where
  mask : Half
  pat : Half
  deriving DecidableEq, Repr

/-- The row of an instruction in the opcode map (R124, R125, R127, R134). -/
def Instr.row : Instr → Row
  | .lslImm .. => ⟨0xF800#16, 0x0000#16⟩
  | .lsrImm .. => ⟨0xF800#16, 0x0800#16⟩
  | .asrImm .. => ⟨0xF800#16, 0x1000#16⟩
  | .addReg .. => ⟨0xFE00#16, 0x1800#16⟩
  | .subReg .. => ⟨0xFE00#16, 0x1A00#16⟩
  | .addImm3 .. => ⟨0xFE00#16, 0x1C00#16⟩
  | .subImm3 .. => ⟨0xFE00#16, 0x1E00#16⟩
  | .movImm8 .. => ⟨0xF800#16, 0x2000#16⟩
  | .cmpImm8 .. => ⟨0xF800#16, 0x2800#16⟩
  | .addImm8 .. => ⟨0xF800#16, 0x3000#16⟩
  | .subImm8 .. => ⟨0xF800#16, 0x3800#16⟩
  | .andReg .. => ⟨0xFFC0#16, 0x4000#16⟩
  | .eorReg .. => ⟨0xFFC0#16, 0x4040#16⟩
  | .lslReg .. => ⟨0xFFC0#16, 0x4080#16⟩
  | .lsrReg .. => ⟨0xFFC0#16, 0x40C0#16⟩
  | .asrReg .. => ⟨0xFFC0#16, 0x4100#16⟩
  | .adcReg .. => ⟨0xFFC0#16, 0x4140#16⟩
  | .sbcReg .. => ⟨0xFFC0#16, 0x4180#16⟩
  | .rorReg .. => ⟨0xFFC0#16, 0x41C0#16⟩
  | .tstReg .. => ⟨0xFFC0#16, 0x4200#16⟩
  | .negReg .. => ⟨0xFFC0#16, 0x4240#16⟩
  | .cmpReg .. => ⟨0xFFC0#16, 0x4280#16⟩
  | .cmnReg .. => ⟨0xFFC0#16, 0x42C0#16⟩
  | .orrReg .. => ⟨0xFFC0#16, 0x4300#16⟩
  | .mulReg .. => ⟨0xFFC0#16, 0x4340#16⟩
  | .bicReg .. => ⟨0xFFC0#16, 0x4380#16⟩
  | .mvnReg .. => ⟨0xFFC0#16, 0x43C0#16⟩
  | .addRdHs .. => ⟨0xFFC0#16, 0x4440#16⟩
  | .addHdRs .. => ⟨0xFFC0#16, 0x4480#16⟩
  | .addHdHs .. => ⟨0xFFC0#16, 0x44C0#16⟩
  | .cmpRdHs .. => ⟨0xFFC0#16, 0x4540#16⟩
  | .cmpHdRs .. => ⟨0xFFC0#16, 0x4580#16⟩
  | .cmpHdHs .. => ⟨0xFFC0#16, 0x45C0#16⟩
  | .movRdHs .. => ⟨0xFFC0#16, 0x4640#16⟩
  | .movHdRs .. => ⟨0xFFC0#16, 0x4680#16⟩
  | .movHdHs .. => ⟨0xFFC0#16, 0x46C0#16⟩
  | .bxRs .. => ⟨0xFFC7#16, 0x4700#16⟩
  | .bxHs .. => ⟨0xFFC7#16, 0x4740#16⟩
  | .ldrPc .. => ⟨0xF800#16, 0x4800#16⟩
  | .strReg .. => ⟨0xFE00#16, 0x5000#16⟩
  | .strbReg .. => ⟨0xFE00#16, 0x5400#16⟩
  | .ldrReg .. => ⟨0xFE00#16, 0x5800#16⟩
  | .ldrbReg .. => ⟨0xFE00#16, 0x5C00#16⟩
  | .strhReg .. => ⟨0xFE00#16, 0x5200#16⟩
  | .ldsbReg .. => ⟨0xFE00#16, 0x5600#16⟩
  | .ldrhReg .. => ⟨0xFE00#16, 0x5A00#16⟩
  | .ldshReg .. => ⟨0xFE00#16, 0x5E00#16⟩
  | .strImm .. => ⟨0xF800#16, 0x6000#16⟩
  | .ldrImm .. => ⟨0xF800#16, 0x6800#16⟩
  | .strbImm .. => ⟨0xF800#16, 0x7000#16⟩
  | .ldrbImm .. => ⟨0xF800#16, 0x7800#16⟩
  | .strhImm .. => ⟨0xF800#16, 0x8000#16⟩
  | .ldrhImm .. => ⟨0xF800#16, 0x8800#16⟩
  | .strSp .. => ⟨0xF800#16, 0x9000#16⟩
  | .ldrSp .. => ⟨0xF800#16, 0x9800#16⟩
  | .addRdPc .. => ⟨0xF800#16, 0xA000#16⟩
  | .addRdSp .. => ⟨0xF800#16, 0xA800#16⟩
  | .addSpImm .. => ⟨0xFF80#16, 0xB000#16⟩
  | .addSpNegImm .. => ⟨0xFF80#16, 0xB080#16⟩
  | .push .. => ⟨0xFF00#16, 0xB400#16⟩
  | .pushLr .. => ⟨0xFF00#16, 0xB500#16⟩
  | .pop .. => ⟨0xFF00#16, 0xBC00#16⟩
  | .popPc .. => ⟨0xFF00#16, 0xBD00#16⟩
  | .stmia .. => ⟨0xF800#16, 0xC000#16⟩
  | .ldmia .. => ⟨0xF800#16, 0xC800#16⟩
  | .beq .. => ⟨0xFF00#16, 0xD000#16⟩
  | .bne .. => ⟨0xFF00#16, 0xD100#16⟩
  | .bcs .. => ⟨0xFF00#16, 0xD200#16⟩
  | .bcc .. => ⟨0xFF00#16, 0xD300#16⟩
  | .bmi .. => ⟨0xFF00#16, 0xD400#16⟩
  | .bpl .. => ⟨0xFF00#16, 0xD500#16⟩
  | .bvs .. => ⟨0xFF00#16, 0xD600#16⟩
  | .bvc .. => ⟨0xFF00#16, 0xD700#16⟩
  | .bhi .. => ⟨0xFF00#16, 0xD800#16⟩
  | .bls .. => ⟨0xFF00#16, 0xD900#16⟩
  | .bge .. => ⟨0xFF00#16, 0xDA00#16⟩
  | .blt .. => ⟨0xFF00#16, 0xDB00#16⟩
  | .bgt .. => ⟨0xFF00#16, 0xDC00#16⟩
  | .ble .. => ⟨0xFF00#16, 0xDD00#16⟩
  | .swi .. => ⟨0xFF00#16, 0xDF00#16⟩
  | .b .. => ⟨0xF800#16, 0xE000#16⟩
  | .blFirst .. => ⟨0xF800#16, 0xF000#16⟩
  | .blSecond .. => ⟨0xF800#16, 0xF800#16⟩
  | .undefAddLoLo .. => ⟨0xFFC0#16, 0x4400#16⟩
  | .undefCmpLoLo .. => ⟨0xFFC0#16, 0x4500#16⟩
  | .undefMovLoLo .. => ⟨0xFFC0#16, 0x4600#16⟩
  | .undefBxH1 .. => ⟨0xFF80#16, 0x4780#16⟩
  | .undefBxLow1 .. => ⟨0xFF87#16, 0x4701#16⟩
  | .undefBxLow2 .. => ⟨0xFF87#16, 0x4702#16⟩
  | .undefBxLow3 .. => ⟨0xFF87#16, 0x4703#16⟩
  | .undefBxLow4 .. => ⟨0xFF87#16, 0x4704#16⟩
  | .undefBxLow5 .. => ⟨0xFF87#16, 0x4705#16⟩
  | .undefBxLow6 .. => ⟨0xFF87#16, 0x4706#16⟩
  | .undefBxLow7 .. => ⟨0xFF87#16, 0x4707#16⟩
  | .undefCond14 .. => ⟨0xFF00#16, 0xDE00#16⟩
  | .unassignedB1 .. => ⟨0xFF00#16, 0xB100#16⟩
  | .unassignedB2 .. => ⟨0xFF00#16, 0xB200#16⟩
  | .unassignedB3 .. => ⟨0xFF00#16, 0xB300#16⟩
  | .unassignedB6 .. => ⟨0xFF00#16, 0xB600#16⟩
  | .unassignedB7 .. => ⟨0xFF00#16, 0xB700#16⟩
  | .unassignedB8 .. => ⟨0xFF00#16, 0xB800#16⟩
  | .unassignedB9 .. => ⟨0xFF00#16, 0xB900#16⟩
  | .unassignedBA .. => ⟨0xFF00#16, 0xBA00#16⟩
  | .unassignedBB .. => ⟨0xFF00#16, 0xBB00#16⟩
  | .unassignedBE .. => ⟨0xFF00#16, 0xBE00#16⟩
  | .unassignedBF .. => ⟨0xFF00#16, 0xBF00#16⟩
  | .unassignedE8 .. => ⟨0xF800#16, 0xE800#16⟩

end Sys2Proof
end

