-- ==== Sys2Proof/Config.lean ====
section
/-! DEFINITION. What the spec leaves open: the free values, which have no body, and the one address the source fixes.
The other parameters of 00_scope.md R8 are fields of `State` (`bigEndian`, `regions`; the launch state is any `State`),
or are settled by the spec's own decision: a misaligned access faults (D2), no interrupt is taken (D6), and the run ends
when THUMB state is left (D5). -/

namespace Sys2Proof.Config

/-- `MulCarry` (R183, D12, U10): the value C takes after a MUL, a draw that nothing constrains. The argument numbers the
draw (`State.draws`), so that it is no function of the operands. Log 16. -/
opaque mulCarry : Nat → Bool

/-- The platform's oracle for a read of a device region (R64, R72): what the `n`-byte read of address `a` answers. The
first argument numbers the draw, so that a second read of one address need not answer the same. Log 6. -/
opaque deviceRead : (draw : Nat) → (a : Word) → (n : Nat) → Word

/-- "the SWI vector address (0x8)" (Table 5-18; R73, R321, R325). -/
def swiVector : Word := 0x00000008#32

end Sys2Proof.Config
end

