-- ==== Sys2Proof/Machine/State.lean ====
section
/-! DEFINITION. The machine's state as plain data (10_state.md; 60_exceptions.md R331; 20_memory.md R60 to R65), the ways
a step can stop (00_scope.md R15), and the state a run starts from (10_state.md R40). -/

namespace Sys2Proof.Machine

/-- The seven processor modes (R37, R331). -/
inductive Mode where
  | user | fiq | irq | supervisor | abort | undefined | system
  deriving DecidableEq, Repr

/-- A program status register, field by field at the layout of R34: N, Z, C, V (31 to 28), the reserved bits (27 to 8),
I (7), F (6), T (5) and M (4 to 0). -/
structure Psr where
  /-- Negative flag, bit 31. -/
  n : Bool
  /-- Zero flag, bit 30. -/
  z : Bool
  /-- Carry flag, bit 29. -/
  c : Bool
  /-- Overflow flag, bit 28. -/
  v : Bool
  /-- Bits 27 to 8, used by no rule. -/
  reserved : BitVec 20
  /-- IRQ disable, bit 7. -/
  i : Bool
  /-- FIQ disable, bit 6. -/
  f : Bool
  /-- State indication, bit 5: true in THUMB state (R36). -/
  t : Bool
  /-- Mode, bits 4 to 0 (R37). -/
  mode : Mode
  deriving DecidableEq, Repr

/-- The registers behind R0 to R14: the Lo registers, R8 to R12 with FIQ mode's own copies, and R13 (SP) and R14 (LR)
of each mode, User and System mode sharing one pair (R20, R37, R331). -/
inductive PhysReg where
  | r0 | r1 | r2 | r3 | r4 | r5 | r6 | r7
  | r8 | r9 | r10 | r11 | r12
  | r8Fiq | r9Fiq | r10Fiq | r11Fiq | r12Fiq
  | spUsr | lrUsr | spFiq | lrFiq | spIrq | lrIrq | spSvc | lrSvc | spAbt | lrAbt | spUnd | lrUnd
  deriving DecidableEq, Repr

/-- The saved status registers, one for each exception mode (R35, R37, R331). -/
structure SpsrBank where
  fiq : Psr
  irq : Psr
  svc : Psr
  abt : Psr
  und : Psr
  deriving DecidableEq, Repr

/-- The size of a memory access: 1, 2 or 4 bytes (R12, R61). -/
inductive Size where
  | byte | half | word
  deriving DecidableEq, Repr

/-- The kind of an access (R73). -/
inductive Access where
  | read | write | fetch
  deriving DecidableEq, Repr

/-- One region of the platform's address map: which accesses it admits, and whether it is a device, whose reads the
platform's oracle answers (R64, R72, R73, D3; logs 5 and 6). -/
structure Region where
  base : Nat
  size : Nat
  read : Bool
  write : Bool
  fetch : Bool
  widths : List Size
  device : Bool
  deriving DecidableEq, Repr

/-- The state of the machine. INVENTORY.md, '## State', names the rule behind each field. -/
structure State where
  /-- The thirty registers behind R0 to R14, at the places `PhysReg.index` gives (R20, R37, R331). -/
  regs : Vector Word 30
  /-- `iaddr`, the address of the instruction to execute next (R25, R26). -/
  pc : Word
  /-- The current program status register (R34). -/
  cpsr : Psr
  /-- The saved program status registers (R35). -/
  spsr : SpsrBank
  /-- Memory: the listed bytes in canonical form (`Memory.wf`); every other byte reads `Memory.unlisted` (R60, R61). -/
  mem : List Host.Cell
  /-- The byte order of data and instruction fetch (R63, D1; log 4). -/
  bigEndian : Bool
  /-- `Admitted`: the regions of the address map (R64, R65, R73, D3; log 5). -/
  regions : List Region
  /-- The model's own field: how many free values have been drawn (R72, R183; log 24). -/
  draws : Nat
  deriving DecidableEq, Repr

/-- Why an instruction is `Unpredictable` (R15, R320). -/
inductive Reason where
  /-- `PUSH`, `POP`, `STMIA` or `LDMIA` with an empty register list and R = 0 (R282, D13). -/
  | emptyRegisterList
  /-- `STMIA` or `LDMIA` with the base register in the list (R282, D14). -/
  | baseRegisterInList
  /-- `BX PC` at an address with bit 1 set (R216, U3). -/
  | bxPcNotWordAligned
  /-- `BX` to ARM state with bits 1:0 of the target 10 (R214, D16). -/
  | bxTargetNotWordAligned
  /-- The sequential advance past 0xFFFFFFFE (R30, D4). -/
  | pcWrap
  deriving DecidableEq, Repr

/-- The faults of the model (R15, R320): each stops the run, saves nothing and takes no vector. -/
inductive Fault where
  /-- Raised by the meanings of the twenty-four rows that give no instruction (R124, R125, R134). Safe: the real
  processor does something the spec does not say. -/
  | undefinedEncoding (instr : Half)
  /-- Raised where the source says "unpredictable" or the spec found no behaviour (R30, R214, R216, R282). Safe: the
  real processor goes on in a way the spec does not say. -/
  | unpredictable (reason : Reason)
  /-- Raised by a halfword or word access at an address that is no multiple of its size (R64 to R66, D2). Safe: the real
  processor goes on in a way the spec does not say. -/
  | misaligned (addr : Word) (size : Size)
  /-- Raised by an access that no region admits (R64, R65, R67, D3). Safe: the source describes no abort. -/
  | memFault (addr : Word) (size : Size) (kind : Access)
  deriving DecidableEq, Repr

/-- Why a step has no meaning in this model. -/
inductive Refusal where
  /-- Raised by an arm of `exec` whose instruction has no meaning yet. Safe. No arm answers it. -/
  | notModelled (mnemonic : String)
  /-- Raised by `step` in ARM state: what runs there is the environment's (R5, R6, D5). Safe. -/
  | armState
  deriving DecidableEq, Repr

/-- What a meaning answers. -/
abbrev Out := Host.Outcome State Fault Refusal

/-- A saved status register at reset: every bit 0, mode User. DESIGN CHOICE, log 2: the spec gives none (R40). -/
def Psr.unset : Psr :=
  { n := false, z := false, c := false, v := false, reserved := 0#20, i := false, f := false, t := false, mode := .user }

/-- The whole address space as one ordinary region that admits every access. DESIGN CHOICE, log 5. -/
def Region.everything : Region :=
  { base := 0, size := 4294967296, read := true, write := true, fetch := true, widths := [.byte, .half, .word],
    device := false }

/-- The state a run starts from. The source has no reset; R40 replaces the reset state by a launch state, of which the
spec fixes T = 1 and an even address (log 1). PC = 0, Supervisor mode and I = F = 1 are PRESUMED, the family's reset
values that R40 names (log 1); the other registers and the flags are 0, a DESIGN CHOICE (log 2); the byte order is the
spec's default (D1). -/
def State.reset : State :=
  { regs := Vector.replicate 30 0#32
    pc := 0#32
    cpsr := { Psr.unset with i := true, f := true, t := true, mode := .supervisor }
    spsr := { fiq := Psr.unset, irq := Psr.unset, svc := Psr.unset, abt := Psr.unset, und := Psr.unset }
    mem := []
    bigEndian := false
    regions := [Region.everything]
    draws := 0 }

end Sys2Proof.Machine
end

