-- ==== Sys2Proof/Machine/Flags.lean ====
section
/-! DEFINITION. The adder, the flag updates and the branch conditions (00_scope.md R13, R14; 10_state.md R31, R32;
44_branch_swi.md R290), and the layout of a status register as a word (10_state.md R34). -/

namespace Sys2Proof.Machine

/-- What the adder answers (R13). -/
structure AddResult where
  result : Word
  carry : Bool
  overflow : Bool
  deriving DecidableEq, Repr

/-- `AddWithCarry(a, b, cin)`: the exact sums, unsigned and signed, against the 32-bit result (R13). -/
def addWithCarry (a b : Word) (cin : Bool) : AddResult :=
  let usum : Nat := a.toNat + b.toNat + cin.toNat
  let ssum : Int := a.toInt + b.toInt + (cin.toNat : Int)
  let result : Word := BitVec.ofNat 32 usum
  { result := result, carry := decide (4294967296 ≤ usum), overflow := decide (result.toInt ≠ ssum) }

/-- `a - b` by the adder: `AddWithCarry(a, NOT b, 1)` (R13). -/
def subtract (a b : Word) : AddResult := addWithCarry a (~~~b) true

/-- `SetNZ(r)` (R14): C and V keep their values. -/
def Psr.setNZ (p : Psr) (r : Word) : Psr := { p with n := r.getLsbD 31, z := decide (r = 0#32) }

/-- `SetNZ(r); C <- c` (R140, R190): V keeps its value. -/
def Psr.setNZC (p : Psr) (r : Word) (c : Bool) : Psr := { p.setNZ r with c := c }

/-- `SetNZCV(r, c, v)` (R14). -/
def Psr.setNZCV (p : Psr) (r : AddResult) : Psr := { p.setNZ r.result with c := r.carry, v := r.overflow }

/-- `CondHolds(cond)` (R16, R290, Table 5-17). -/
def condHolds (c : Cond) (p : Psr) : Bool :=
  match c with
  | .eq => p.z
  | .ne => !p.z
  | .cs => p.c
  | .cc => !p.c
  | .mi => p.n
  | .pl => !p.n
  | .vs => p.v
  | .vc => !p.v
  | .hi => p.c && !p.z
  | .ls => !p.c || p.z
  | .ge => p.n == p.v
  | .lt => p.n != p.v
  | .gt => !p.z && (p.n == p.v)
  | .le => p.z || (p.n != p.v)

/-- The encoding of a mode in bits 4 to 0 (R37). -/
def Mode.bits : Mode → BitVec 5
  | .user => 0b10000#5
  | .fiq => 0b10001#5
  | .irq => 0b10010#5
  | .supervisor => 0b10011#5
  | .abort => 0b10111#5
  | .undefined => 0b11011#5
  | .system => 0b11111#5

/-- A status register as a word, at the layout of R34. -/
def Psr.toWord (p : Psr) : Word :=
  BitVec.ofBool p.n ++ BitVec.ofBool p.z ++ BitVec.ofBool p.c ++ BitVec.ofBool p.v ++ p.reserved ++
    BitVec.ofBool p.i ++ BitVec.ofBool p.f ++ BitVec.ofBool p.t ++ p.mode.bits

end Sys2Proof.Machine
end

