-- ==== Sys2Proof/Machine/Memory.lean ====
section
/-! DEFINITION. Memory as a list of cells in one canonical form: addresses strictly rising, below 2^32, and no cell that
holds what an unlisted byte reads as, so that equal memories are equal lists (20_memory.md R60, R61). -/

namespace Sys2Proof.Machine

/-- What a byte of memory that nothing has written reads as. DESIGN CHOICE, log 7: the source gives no contents, and the
spec's vectors take every byte not listed as 0x00 (95_test_vectors.md). -/
def Memory.unlisted : Byte := 0#8

/-- The byte at an address. -/
def Memory.read : List Host.Cell → Nat → Byte
  | [], _ => Memory.unlisted
  | (a', b') :: rest, a => if a = a' then b' else Memory.read rest a

/-- Stores a byte, keeping the canonical form: the value an unlisted byte reads as is stored by removing the cell. -/
def Memory.write : List Host.Cell → Nat → Byte → List Host.Cell
  | [], a, b => if b = Memory.unlisted then [] else [(a, b)]
  | (a', b') :: rest, a, b =>
    if a < a' then if b = Memory.unlisted then (a', b') :: rest else (a, b) :: (a', b') :: rest
    else if a = a' then if b = Memory.unlisted then rest else (a, b) :: rest
    else (a', b') :: Memory.write rest a b

/-- The list is canonical from the address `lo` up. -/
def Memory.wfFrom : Nat → List Host.Cell → Bool
  | _, [] => true
  | lo, (a, b) :: rest => decide (lo ≤ a) && decide (a < 4294967296) && b != Memory.unlisted && Memory.wfFrom (a + 1) rest

/-- Memory is in canonical form. -/
def Memory.wf (m : List Host.Cell) : Bool := Memory.wfFrom 0 m

end Sys2Proof.Machine
end

