-- ==== Sys2Proof/Machine/Operands.lean ====
section
/-! DEFINITION. Operand forms: register numbers, immediates, register lists and the two shifters (30_encoding.md R121 to
R123; 40_shift_addsub_imm.md R140; 41_alu_hireg_bx.md R190). -/

namespace Sys2Proof.Machine

/-- The register a Lo field names: `f` is R`f` (R122). -/
def lo (f : LoReg) : Reg := f.setWidth 4

/-- The register a Hi field names: `8 + f` (R122, D27; log 18). -/
def hi (f : HiReg) : Reg := 8#4 + f.setWidth 4

/-- R13, the stack pointer (R22). -/
def spReg : Reg := 13#4

/-- R14, the link register (R23). -/
def lrReg : Reg := 14#4

/-- R15, the program counter (R25). -/
def pcReg : Reg := 15#4

/-- An 8-bit word offset: `zext_8(Word8) << 2` (R121: formats 6, 11, 12). -/
def immWord8 (w : BitVec 8) : Word := w.setWidth 32 <<< 2

/-- A 5-bit word offset: `zext_5(Offset5) << 2` (R121: format 9, B = 0). -/
def immWord5 (o : BitVec 5) : Word := o.setWidth 32 <<< 2

/-- A 5-bit halfword offset: `zext_5(Offset5) << 1` (R121: format 10). -/
def immHalf5 (o : BitVec 5) : Word := o.setWidth 32 <<< 1

/-- A 5-bit byte offset: `zext_5(Offset5)` (R121: format 9, B = 1). -/
def immByte5 (o : BitVec 5) : Word := o.setWidth 32

/-- The magnitude of format 13: `zext_7(SWord7) << 2` (R121, C6). -/
def immWord7 (w : BitVec 7) : Word := w.setWidth 32 <<< 2

/-- The offset of a conditional branch: `sext_8(Soffset8) << 1` (R121, R291). -/
def branchOffset8 (o : BitVec 8) : Word := o.signExtend 32 <<< 1

/-- The offset of an unconditional branch: `sext_11(Offset11) << 1` (R121, R301). -/
def branchOffset11 (o : BitVec 11) : Word := o.signExtend 32 <<< 1

/-- The high half of a BL offset: `sext_11(Offset) << 12` (R121, R304). -/
def blOffsetHigh (o : BitVec 11) : Word := o.signExtend 32 <<< 12

/-- The low half of a BL offset: `zext_11(Offset) << 1` (R121, R305). -/
def blOffsetLow (o : BitVec 11) : Word := o.setWidth 32 <<< 1

/-- The Lo registers of a list, in ascending order: bit `i` set means R`i` (R123, R268; log 18). -/
def regList (rlist : BitVec 8) : List Reg :=
  ((List.range 8).filter (fun i => rlist.getLsbD i)).map (fun i => BitVec.ofNat 4 i)

/-- The shifts by an immediate (R140). -/
inductive ImmShift where
  | lsl | lsr | asr
  deriving DecidableEq, Repr

/-- The shifts by a register (R190). -/
inductive RegShift where
  | lsl | lsr | asr | ror
  deriving DecidableEq, Repr

/-- `ShiftImm(kind, v, f, cin)`: result and carry (R140; log 14). Field 0 of LSR and ASR means 32. -/
def shiftImm (kind : ImmShift) (v : Word) (f : BitVec 5) (cin : Bool) : Word × Bool :=
  match kind with
  | .lsl => if f = 0#5 then (v, cin) else (v <<< f.toNat, v.getLsbD (32 - f.toNat))
  | .lsr => if f = 0#5 then (0#32, v.getLsbD 31) else (v >>> f.toNat, v.getLsbD (f.toNat - 1))
  | .asr =>
    if f = 0#5 then (if v.getLsbD 31 then 0xFFFFFFFF#32 else 0#32, v.getLsbD 31)
    else (v.sshiftRight f.toNat, v.getLsbD (f.toNat - 1))

/-- `ShiftReg(kind, v, s, cin)`, the amount `s` 0 to 255: result and carry (R190; log 14). -/
def shiftReg (kind : RegShift) (v : Word) (s : BitVec 8) (cin : Bool) : Word × Bool :=
  let n := s.toNat
  if n = 0 then (v, cin)
  else
    match kind with
    | .lsl =>
      if n ≤ 31 then (v <<< n, v.getLsbD (32 - n)) else if n = 32 then (0#32, v.getLsbD 0) else (0#32, false)
    | .lsr =>
      if n ≤ 31 then (v >>> n, v.getLsbD (n - 1)) else if n = 32 then (0#32, v.getLsbD 31) else (0#32, false)
    | .asr =>
      if n ≤ 31 then (v.sshiftRight n, v.getLsbD (n - 1))
      else (if v.getLsbD 31 then 0xFFFFFFFF#32 else 0#32, v.getLsbD 31)
    | .ror => if n % 32 = 0 then (v, v.getLsbD 31) else (v.rotateRight (n % 32), v.getLsbD (n % 32 - 1))

end Sys2Proof.Machine
end

