-- ==== Sys2Proof/Machine/Ops.lean ====
section
/-! DEFINITION. The operations the meanings share: registers and their banks, the PC, memory accesses and faults, multiple
transfers, instruction fetch, the exception entry and the changes of state (10_state.md; 20_memory.md; 60_exceptions.md). -/

namespace Sys2Proof.Machine

/-- The place of a register in `State.regs`. -/
def PhysReg.index : PhysReg → Fin 30
  | .r0 => 0 | .r1 => 1 | .r2 => 2 | .r3 => 3 | .r4 => 4 | .r5 => 5 | .r6 => 6 | .r7 => 7
  | .r8 => 8 | .r9 => 9 | .r10 => 10 | .r11 => 11 | .r12 => 12
  | .r8Fiq => 13 | .r9Fiq => 14 | .r10Fiq => 15 | .r11Fiq => 16 | .r12Fiq => 17
  | .spUsr => 18 | .lrUsr => 19 | .spFiq => 20 | .lrFiq => 21 | .spIrq => 22 | .lrIrq => 23
  | .spSvc => 24 | .lrSvc => 25 | .spAbt => 26 | .lrAbt => 27 | .spUnd => 28 | .lrUnd => 29

/-- The SP of a mode (R37, R331; log 19). -/
def Mode.sp : Mode → PhysReg
  | .user => .spUsr | .system => .spUsr | .fiq => .spFiq | .irq => .spIrq
  | .supervisor => .spSvc | .abort => .spAbt | .undefined => .spUnd

/-- The LR of a mode (R37, R331; log 19). -/
def Mode.lr : Mode → PhysReg
  | .user => .lrUsr | .system => .lrUsr | .fiq => .lrFiq | .irq => .lrIrq
  | .supervisor => .lrSvc | .abort => .lrAbt | .undefined => .lrUnd

/-- The register that a number names in a mode; R15 is no register of the file (R20, R25, R37, R331; log 19). -/
def phys (m : Mode) (r : Reg) : Option PhysReg :=
  match r.toNat with
  | 0 => some .r0
  | 1 => some .r1
  | 2 => some .r2
  | 3 => some .r3
  | 4 => some .r4
  | 5 => some .r5
  | 6 => some .r6
  | 7 => some .r7
  | 8 => some (if m = .fiq then .r8Fiq else .r8)
  | 9 => some (if m = .fiq then .r9Fiq else .r9)
  | 10 => some (if m = .fiq then .r10Fiq else .r10)
  | 11 => some (if m = .fiq then .r11Fiq else .r11)
  | 12 => some (if m = .fiq then .r12Fiq else .r12)
  | 13 => some m.sp
  | 14 => some m.lr
  | _ => none

/-- The value of a register of the file. -/
def State.bank (s : State) (p : PhysReg) : Word := s.regs.get p.index

/-- Writes a register of the file. -/
def State.withBank (s : State) (p : PhysReg) (v : Word) : State := { s with regs := s.regs.set p.index v p.index.isLt }

/-- Sets the address of the next instruction. -/
def State.withPc (s : State) (a : Word) : State := { s with pc := a }

/-- Sets the status register. -/
def State.withCpsr (s : State) (p : Psr) : State := { s with cpsr := p }

/-- Sets memory. -/
def State.withMem (s : State) (m : List Host.Cell) : State := { s with mem := m }

/-- Counts one free value as drawn (log 24). -/
def State.drawn (s : State) : State := { s with draws := s.draws + 1 }

/-- `x[r]`: the value an instruction reads from a general register; R15 reads `iaddr + 4` with bit 0 cleared
(R11, R27, R200). -/
def State.x (s : State) (r : Reg) : Word :=
  match phys s.cpsr.mode r with
  | some p => s.bank p
  | none => (s.pc + 4#32) &&& 0xFFFFFFFE#32

/-- The PC as formats 6 and 12 read it: `(iaddr + 4) AND 0xFFFFFFFC` (R27). -/
def State.pcWordAligned (s : State) : Word := (s.pc + 4#32) &&& 0xFFFFFFFC#32

/-- The PC as the branches read it: `iaddr + 4` (R27). -/
def State.pcAhead (s : State) : Word := s.pc + 4#32

/-- Writes a register of the file by its number; R15 has no cell there and is left alone (R15 is written by `jump`). -/
def State.writeReg (s : State) (r : Reg) (v : Word) : State :=
  match phys s.cpsr.mode r with
  | some p => s.withBank p v
  | none => s

/-- Writes several registers, in the order of the list. -/
def State.writeRegs (s : State) : List (Reg × Word) → State
  | [] => s
  | (r, v) :: rest => (s.writeReg r v).writeRegs rest

/-- The last halfword of the address space. -/
def lastHalf : Word := 0xFFFFFFFE#32

/-- Normal completion: the next instruction is at `iaddr + 2`, and past 0xFFFFFFFE the outcome is `Unpredictable`
(R26, R30; step 6 of R327; log 9). -/
def State.advance (s : State) : Out :=
  if s.pc = lastHalf then .fault (.unpredictable .pcWrap) else .next (s.withPc (s.pc + 2#32))

/-- A write of the PC that discards bit 0 and stays in THUMB state (R28, R199, D15; log 17). -/
def State.jump (s : State) (target : Word) : Out := .next (s.withPc (target &&& 0xFFFFFFFE#32))

/-- Completion of an instruction whose result goes to register `r`: R15 is a jump, any other register is written and the
PC advances (R199, R202). -/
def State.assign (s : State) (r : Reg) (v : Word) : Out :=
  if r = pcReg then s.jump v else (s.writeReg r v).advance

/-- Completion of an instruction that writes Lo register `rd` and the status register, whose values were computed from
the state before it (R11). -/
def State.result (s : State) (rd : LoReg) (v : Word) (p : Psr) : Out := ((s.writeReg (lo rd) v).withCpsr p).advance

/-- A logical result: N and Z from it, C and V unchanged (R169, D11; log 15). -/
def State.logical (s : State) (rd : LoReg) (r : Word) : Out := s.result rd r (s.cpsr.setNZ r)

/-- A shifter's result: N, Z and C, with V unchanged (R140, R169, R190, D11; log 15). -/
def State.shifted (s : State) (rd : LoReg) (r : Word × Bool) : Out := s.result rd r.1 (s.cpsr.setNZC r.1 r.2)

/-- An adder's result: N, Z, C and V (R14, R169). -/
def State.added (s : State) (rd : LoReg) (r : AddResult) : Out := s.result rd r.result (s.cpsr.setNZCV r)

/-- A test or a compare: the status register alone is written (R161, R178, R180, R181, R204 to R206). -/
def State.flagged (s : State) (p : Psr) : Out := (s.withCpsr p).advance

/-- A conditional branch: `iaddr + 4 + offset` when the condition holds, else the next instruction (R291). -/
def State.branchIf (s : State) (c : Cond) (o : BitVec 8) : Out :=
  if condHolds c s.cpsr then .next (s.withPc (s.pcAhead + branchOffset8 o)) else s.advance

/-- The number of bytes of an access (R61). -/
def Size.bytes : Size → Nat
  | .byte => 1
  | .half => 2
  | .word => 4

/-- The low bytes of a value that an access of this size carries (R64, R65). -/
def Size.trunc (n : Size) (v : Word) : Word :=
  match n with
  | .byte => (v.extractLsb' 0 8).setWidth 32
  | .half => (v.extractLsb' 0 16).setWidth 32
  | .word => v

/-- The byte of memory at an address. -/
def State.byteAt (s : State) (a : Word) : Byte := Memory.read s.mem a.toNat

/-- Stores one byte of memory. -/
def State.setByte (s : State) (a : Word) (b : Byte) : State := s.withMem (Memory.write s.mem a.toNat b)

/-- The value at an address, assembled from its bytes in the byte order in force (R63). -/
def State.valueAt (s : State) (a : Word) (n : Size) : Word :=
  match n with
  | .byte => (s.byteAt a).setWidth 32
  | .half =>
    if s.bigEndian then (s.byteAt a ++ s.byteAt (a + 1#32)).setWidth 32
    else (s.byteAt (a + 1#32) ++ s.byteAt a).setWidth 32
  | .word =>
    if s.bigEndian then s.byteAt a ++ s.byteAt (a + 1#32) ++ s.byteAt (a + 2#32) ++ s.byteAt (a + 3#32)
    else s.byteAt (a + 3#32) ++ s.byteAt (a + 2#32) ++ s.byteAt (a + 1#32) ++ s.byteAt a

/-- Stores bytes at consecutive addresses, lowest first. -/
def State.setBytes (s : State) (a : Word) : List Byte → State
  | [] => s
  | b :: rest => (s.setByte a b).setBytes (a + 1#32) rest

/-- The bytes of a value in address order, in the byte order in force (R63). -/
def bytesOf (bigEndian : Bool) (n : Size) (v : Word) : List Byte :=
  let littleFirst : List Byte :=
    match n with
    | .byte => [v.extractLsb' 0 8]
    | .half => [v.extractLsb' 0 8, v.extractLsb' 8 8]
    | .word => [v.extractLsb' 0 8, v.extractLsb' 8 8, v.extractLsb' 16 8, v.extractLsb' 24 8]
  if bigEndian then littleFirst.reverse else littleFirst

/-- Stores a value at an address in the byte order in force (R63, R65). -/
def State.setValue (s : State) (a : Word) (n : Size) (v : Word) : State := s.setBytes a (bytesOf s.bigEndian n v)

/-- The region admits this access: every byte lies in it, and it admits the kind and the width (R73, D3; log 5). -/
def Region.admits (r : Region) (a : Word) (n : Size) (k : Access) : Bool :=
  decide (r.base ≤ a.toNat) && decide (a.toNat + n.bytes ≤ r.base + r.size) && r.widths.contains n &&
    (match k with
     | .read => r.read
     | .write => r.write
     | .fetch => r.fetch)

/-- The region an access goes to: the first that admits it. -/
def State.regionFor (s : State) (a : Word) (n : Size) (k : Access) : Option Region :=
  s.regions.find? (fun r => r.admits a n k)

/-- `Admitted(addr, n, kind)` (R64, R65, R67, D3; log 5). -/
def State.admitted (s : State) (a : Word) (n : Size) (k : Access) : Bool := (s.regionFor a n k).isSome

/-- The access is admitted and its region is ordinary memory, not a device (R72; log 6). -/
def State.ordinary (s : State) (a : Word) (n : Size) (k : Access) : Bool :=
  match s.regionFor a n k with
  | some r => !r.device
  | none => false

/-- `MemRead(addr, n)`: alignment, then `Admitted`, then the value; a device region's value is the platform oracle's
answer, a free value (R64, R66, R72; logs 6 and 8). It answers the state too, since a free value is counted. -/
def memRead (s : State) (a : Word) (n : Size) (k : Access) : Except Fault (Word × State) :=
  if a.toNat % n.bytes ≠ 0 then .error (.misaligned a n)
  else
    match s.regionFor a n k with
    | none => .error (.memFault a n k)
    | some r =>
      if r.device then .ok (n.trunc (Config.deviceRead s.draws a n.bytes), s.drawn) else .ok (s.valueAt a n, s)

/-- `MemWrite(addr, n, v)`: alignment, then `Admitted`, then the store (R65, R66; logs 6 and 8). -/
def memWrite (s : State) (a : Word) (n : Size) (v : Word) : Except Fault State :=
  if a.toNat % n.bytes ≠ 0 then .error (.misaligned a n)
  else if s.admitted a n .write then .ok (s.setValue a n v)
  else .error (.memFault a n .write)

/-- The word accesses of a multiple store, one at a time, lowest address first (R70, R268). -/
def writeWords (s : State) (a : Word) : List Word → Except Fault State
  | [] => .ok s
  | v :: rest =>
    match memWrite s a .word v with
    | .error f => .error f
    | .ok s' => writeWords s' (a + 4#32) rest

/-- The word accesses of a multiple load, one at a time, lowest address first, each value paired with its register
(R70, R268). -/
def readWords (s : State) (a : Word) : List Reg → Except Fault (List (Reg × Word) × State)
  | [] => .ok ([], s)
  | r :: rest =>
    match memRead s a .word .read with
    | .error f => .error f
    | .ok (v, s') =>
      match readWords s' (a + 4#32) rest with
      | .error f => .error f
      | .ok (vs, s'') => .ok ((r, v) :: vs, s'')

/-- The extent of a multiple transfer: four bytes a register (R268). -/
def extent (regs : List Reg) : Word := BitVec.ofNat 32 (4 * regs.length)

/-- A single load: `x[rd] <- extend(MemRead(addr, n))` (R222). -/
def loadInto (s : State) (rd : Reg) (a : Word) (n : Size) (extend : Word → Word) : Out :=
  match memRead s a n .read with
  | .error f => .fault f
  | .ok (v, s') => (s'.writeReg rd (extend v)).advance

/-- A single store: `MemWrite(addr, n, v)` (R222). -/
def storeFrom (s : State) (a : Word) (n : Size) (v : Word) : Out :=
  match memWrite s a n v with
  | .error f => .fault f
  | .ok s' => s'.advance

/-- A multiple store of the registers' values from before the instruction, then the base (R268, R270, R280). -/
def storeMultiple (s : State) (base : Reg) (start newBase : Word) (regs : List Reg) : Out :=
  match writeWords s start (regs.map s.x) with
  | .error f => .fault f
  | .ok s' => (s'.writeReg base newBase).advance

/-- A multiple load of Lo registers, then the base (R268, R272, R281). -/
def loadMultiple (s : State) (base : Reg) (start newBase : Word) (regs : List Reg) : Out :=
  match readWords s start regs with
  | .error f => .fault f
  | .ok (vs, s') => ((s'.writeRegs vs).writeReg base newBase).advance

/-- `zext_8` and `zext_16` of a loaded value, which `MemRead` answers unsigned already (R64, R69). -/
def zeroExtend (v : Word) : Word := v

/-- `sext_8` of a loaded byte (R10, R69). -/
def signExtend8 (v : Word) : Word := (v.extractLsb' 0 8).signExtend 32

/-- `sext_16` of a loaded halfword (R10, R69). -/
def signExtend16 (v : Word) : Word := (v.extractLsb' 0 16).signExtend 32

/-- Instruction fetch: `MemRead(iaddr, 2)` of kind fetch; memory is read again at every fetch (R67, R78; log 21). -/
def fetch (s : State) : Except Fault (Half × State) :=
  match memRead s s.pc .half .fetch with
  | .error f => .error f
  | .ok (v, s') => .ok (v.setWidth 16, s')

/-- Taking the software interrupt exception (R321, R328; log 20): the address of the next instruction into R14_svc, the
CPSR into SPSR_svc, Supervisor mode, ARM state, IRQ disabled, and the PC at the SWI vector. -/
def State.enterSwi (s : State) : State :=
  { (s.withBank .lrSvc (s.pc + 2#32)) with
    spsr := { s.spsr with svc := s.cpsr }
    cpsr := { s.cpsr with mode := .supervisor, t := false, i := true }
    pc := Config.swiVector }

/-- The address of the first instruction in the state entered: in THUMB state the target with bit 0 cleared, by either
route, BX or the return from an exception (R28, R361); in ARM state the target itself (R214, R329). -/
def entryAddress (thumb : Bool) (target : Word) : Word := if thumb then target &&& 0xFFFFFFFE#32 else target

/-- The return from the SWI handler, as R329 describes it: SPSR_svc back to the CPSR and R14_svc to the PC, with bit 0
cleared where the saved T is 1 (R361). No THUMB instruction does it; it is the environment's step (log 20). -/
def State.returnFromSwi (s : State) : State :=
  { s with cpsr := s.spsr.svc, pc := entryAddress s.spsr.svc.t (s.bank .lrSvc) }

/-- `ExitToARM(target)`: T becomes 0 and the next address is `target`, which must be word aligned (R214, D16; log 13). -/
def State.exitToArm (s : State) (target : Word) : Out :=
  if target.getLsbD 1 then .fault (.unpredictable .bxTargetNotWordAligned)
  else .next ((s.withCpsr { s.cpsr with t := false }).withPc (entryAddress false target))

/-- BX to an address in a register: bit 0 selects the state (R213, R214, R361). -/
def State.branchExchange (s : State) (target : Word) : Out :=
  if target.getLsbD 0 then .next ((s.withCpsr { s.cpsr with t := true }).withPc (entryAddress true target))
  else s.exitToArm target

end Sys2Proof.Machine
end

