-- ==== Sys2Proof/Machine/AddSubtract.lean ====
section
/-! DEFINITION. Format 2, add/subtract, and format 3, move/compare/add/subtract immediate (40_shift_addsub_imm.md R150 to
R163). -/

namespace Sys2Proof.Machine

/-- ADD Rd, Rs, Rn (R150). -/
def execAddReg (rd rs rn : LoReg) (s : State) : Out := s.added rd (addWithCarry (s.x (lo rs)) (s.x (lo rn)) false)

/-- SUB Rd, Rs, Rn (R152). -/
def execSubReg (rd rs rn : LoReg) (s : State) : Out := s.added rd (subtract (s.x (lo rs)) (s.x (lo rn)))

/-- ADD Rd, Rs, #Offset3 (R151). -/
def execAddImm3 (rd rs : LoReg) (offset3 : BitVec 3) (s : State) : Out :=
  s.added rd (addWithCarry (s.x (lo rs)) (offset3.setWidth 32) false)

/-- SUB Rd, Rs, #Offset3 (R153). -/
def execSubImm3 (rd rs : LoReg) (offset3 : BitVec 3) (s : State) : Out :=
  s.added rd (subtract (s.x (lo rs)) (offset3.setWidth 32))

/-- MOV Rd, #Offset8 (R160): C and V unchanged. -/
def execMovImm8 (rd : LoReg) (offset8 : BitVec 8) (s : State) : Out := s.logical rd (offset8.setWidth 32)

/-- CMP Rd, #Offset8 (R161). -/
def execCmpImm8 (rd : LoReg) (offset8 : BitVec 8) (s : State) : Out :=
  s.flagged (s.cpsr.setNZCV (subtract (s.x (lo rd)) (offset8.setWidth 32)))

/-- ADD Rd, #Offset8 (R162). -/
def execAddImm8 (rd : LoReg) (offset8 : BitVec 8) (s : State) : Out :=
  s.added rd (addWithCarry (s.x (lo rd)) (offset8.setWidth 32) false)

/-- SUB Rd, #Offset8 (R163). -/
def execSubImm8 (rd : LoReg) (offset8 : BitVec 8) (s : State) : Out :=
  s.added rd (subtract (s.x (lo rd)) (offset8.setWidth 32))

end Sys2Proof.Machine
end

