-- ==== Sys2Proof/Machine/AddressSp.lean ====
section
/-! DEFINITION. Format 12, load address, and format 13, add offset to stack pointer (43_address_sp_multiple.md R260 to
R266). No flag is written. -/

namespace Sys2Proof.Machine

/-- ADD Rd, PC, #Imm (R260). -/
def execAddRdPc (rd : LoReg) (word8 : BitVec 8) (s : State) : Out :=
  (s.writeReg (lo rd) (s.pcWordAligned + immWord8 word8)).advance

/-- ADD Rd, SP, #Imm (R261). -/
def execAddRdSp (rd : LoReg) (word8 : BitVec 8) (s : State) : Out :=
  (s.writeReg (lo rd) (s.x spReg + immWord8 word8)).advance

/-- ADD SP, #Imm (R265). -/
def execAddSpImm (sword7 : BitVec 7) (s : State) : Out := (s.writeReg spReg (s.x spReg + immWord7 sword7)).advance

/-- ADD SP, #-Imm (R266). -/
def execAddSpNegImm (sword7 : BitVec 7) (s : State) : Out := (s.writeReg spReg (s.x spReg - immWord7 sword7)).advance

end Sys2Proof.Machine
end

