-- ==== Sys2Proof/Machine/Alu.lean ====
section
/-! DEFINITION. Format 4: ALU operations (41_alu_hireg_bx.md R169 to R190). -/

namespace Sys2Proof.Machine

/-- AND Rd, Rs (R170). -/
def execAndReg (rd rs : LoReg) (s : State) : Out := s.logical rd (s.x (lo rd) &&& s.x (lo rs))

/-- EOR Rd, Rs (R171). -/
def execEorReg (rd rs : LoReg) (s : State) : Out := s.logical rd (s.x (lo rd) ^^^ s.x (lo rs))

/-- The amount of a shift by a register: `x[Rs][7:0]` (R190, D10; log 14). -/
def shiftAmount (s : State) (rs : LoReg) : BitVec 8 := (s.x (lo rs)).extractLsb' 0 8

/-- LSL Rd, Rs (R172). -/
def execLslReg (rd rs : LoReg) (s : State) : Out :=
  s.shifted rd (shiftReg .lsl (s.x (lo rd)) (shiftAmount s rs) s.cpsr.c)

/-- LSR Rd, Rs (R173). -/
def execLsrReg (rd rs : LoReg) (s : State) : Out :=
  s.shifted rd (shiftReg .lsr (s.x (lo rd)) (shiftAmount s rs) s.cpsr.c)

/-- ASR Rd, Rs (R174). -/
def execAsrReg (rd rs : LoReg) (s : State) : Out :=
  s.shifted rd (shiftReg .asr (s.x (lo rd)) (shiftAmount s rs) s.cpsr.c)

/-- ADC Rd, Rs (R175). -/
def execAdcReg (rd rs : LoReg) (s : State) : Out := s.added rd (addWithCarry (s.x (lo rd)) (s.x (lo rs)) s.cpsr.c)

/-- SBC Rd, Rs (R176): `AddWithCarry(x[Rd], NOT x[Rs], C)`. -/
def execSbcReg (rd rs : LoReg) (s : State) : Out := s.added rd (addWithCarry (s.x (lo rd)) (~~~(s.x (lo rs))) s.cpsr.c)

/-- ROR Rd, Rs (R177). -/
def execRorReg (rd rs : LoReg) (s : State) : Out :=
  s.shifted rd (shiftReg .ror (s.x (lo rd)) (shiftAmount s rs) s.cpsr.c)

/-- TST Rd, Rs (R178). -/
def execTstReg (rd rs : LoReg) (s : State) : Out := s.flagged (s.cpsr.setNZ (s.x (lo rd) &&& s.x (lo rs)))

/-- NEG Rd, Rs (R179): `0 - Rs`. -/
def execNegReg (rd rs : LoReg) (s : State) : Out := s.added rd (subtract 0#32 (s.x (lo rs)))

/-- CMP Rd, Rs (R180). -/
def execCmpReg (rd rs : LoReg) (s : State) : Out := s.flagged (s.cpsr.setNZCV (subtract (s.x (lo rd)) (s.x (lo rs))))

/-- CMN Rd, Rs (R181). -/
def execCmnReg (rd rs : LoReg) (s : State) : Out :=
  s.flagged (s.cpsr.setNZCV (addWithCarry (s.x (lo rd)) (s.x (lo rs)) false))

/-- ORR Rd, Rs (R182). -/
def execOrrReg (rd rs : LoReg) (s : State) : Out := s.logical rd (s.x (lo rd) ||| s.x (lo rs))

/-- MUL Rd, Rs (R183): the low word of the product; N and Z from it; C takes the free value `Config.mulCarry` at this
draw, which is counted; V unchanged (D12, D23; log 16). -/
def execMulReg (rd rs : LoReg) (s : State) : Out :=
  s.drawn.shifted rd (s.x (lo rs) * s.x (lo rd), Config.mulCarry s.draws)

/-- BIC Rd, Rs (R184). -/
def execBicReg (rd rs : LoReg) (s : State) : Out := s.logical rd (s.x (lo rd) &&& ~~~(s.x (lo rs)))

/-- MVN Rd, Rs (R185). -/
def execMvnReg (rd rs : LoReg) (s : State) : Out := s.logical rd (~~~(s.x (lo rs)))

end Sys2Proof.Machine
end

