-- ==== Sys2Proof/Machine/Branch.lean ====
section
/-! DEFINITION. Format 16, conditional branch; format 18, unconditional branch; format 19, long branch with link
(44_branch_swi.md R290, R291, R301 to R319). No flag is written. -/

namespace Sys2Proof.Machine

/-- BEQ label (R291, R306). -/
def execBeq (soffset8 : BitVec 8) (s : State) : Out := s.branchIf .eq soffset8

/-- BNE label (R291, R307). -/
def execBne (soffset8 : BitVec 8) (s : State) : Out := s.branchIf .ne soffset8

/-- BCS label (R291, R308). -/
def execBcs (soffset8 : BitVec 8) (s : State) : Out := s.branchIf .cs soffset8

/-- BCC label (R291, R309). -/
def execBcc (soffset8 : BitVec 8) (s : State) : Out := s.branchIf .cc soffset8

/-- BMI label (R291, R310). -/
def execBmi (soffset8 : BitVec 8) (s : State) : Out := s.branchIf .mi soffset8

/-- BPL label (R291, R311). -/
def execBpl (soffset8 : BitVec 8) (s : State) : Out := s.branchIf .pl soffset8

/-- BVS label (R291, R312). -/
def execBvs (soffset8 : BitVec 8) (s : State) : Out := s.branchIf .vs soffset8

/-- BVC label (R291, R313). -/
def execBvc (soffset8 : BitVec 8) (s : State) : Out := s.branchIf .vc soffset8

/-- BHI label (R291, R314). -/
def execBhi (soffset8 : BitVec 8) (s : State) : Out := s.branchIf .hi soffset8

/-- BLS label (R291, R315). -/
def execBls (soffset8 : BitVec 8) (s : State) : Out := s.branchIf .ls soffset8

/-- BGE label (R291, R316). -/
def execBge (soffset8 : BitVec 8) (s : State) : Out := s.branchIf .ge soffset8

/-- BLT label (R291, R317). -/
def execBlt (soffset8 : BitVec 8) (s : State) : Out := s.branchIf .lt soffset8

/-- BGT label (R291, R318). -/
def execBgt (soffset8 : BitVec 8) (s : State) : Out := s.branchIf .gt soffset8

/-- BLE label (R291, R319). -/
def execBle (soffset8 : BitVec 8) (s : State) : Out := s.branchIf .le soffset8

/-- B label (R301). -/
def execB (offset11 : BitVec 11) (s : State) : Out := .next (s.withPc (s.pcAhead + branchOffset11 offset11))

/-- BL label, first instruction (R304): `LR <- PC + (OffsetHigh << 12)`. -/
def execBlFirst (offset : BitVec 11) (s : State) : Out := (s.writeReg lrReg (s.pcAhead + blOffsetHigh offset)).advance

/-- BL label, second instruction (R305): the target is LR plus the low half of the offset, with bit 0 cleared; LR becomes
the address of the next instruction with bit 0 set. -/
def execBlSecond (offset : BitVec 11) (s : State) : Out :=
  (s.writeReg lrReg ((s.pc + 2#32) ||| 1#32)).jump (s.x lrReg + blOffsetLow offset)

end Sys2Proof.Machine
end

