-- ==== Sys2Proof/Machine/HiRegister.lean ====
section
/-! DEFINITION. Format 5: Hi register operations and branch exchange (41_alu_hireg_bx.md R199 to R216). R15 as an operand
reads `iaddr + 4`; R15 as a destination is a jump in THUMB state (`State.x`, `State.assign`). -/

namespace Sys2Proof.Machine

/-- ADD Rd, Hs (R201). -/
def execAddRdHs (rd : LoReg) (hs : HiReg) (s : State) : Out :=
  (s.writeReg (lo rd) (s.x (lo rd) + s.x (hi hs))).advance

/-- ADD Hd, Rs (R202). -/
def execAddHdRs (hd : HiReg) (rs : LoReg) (s : State) : Out := s.assign (hi hd) (s.x (hi hd) + s.x (lo rs))

/-- ADD Hd, Hs (R203). -/
def execAddHdHs (hd hs : HiReg) (s : State) : Out := s.assign (hi hd) (s.x (hi hd) + s.x (hi hs))

/-- CMP Rd, Hs (R204). -/
def execCmpRdHs (rd : LoReg) (hs : HiReg) (s : State) : Out :=
  s.flagged (s.cpsr.setNZCV (subtract (s.x (lo rd)) (s.x (hi hs))))

/-- CMP Hd, Rs (R205). -/
def execCmpHdRs (hd : HiReg) (rs : LoReg) (s : State) : Out :=
  s.flagged (s.cpsr.setNZCV (subtract (s.x (hi hd)) (s.x (lo rs))))

/-- CMP Hd, Hs (R206). -/
def execCmpHdHs (hd hs : HiReg) (s : State) : Out :=
  s.flagged (s.cpsr.setNZCV (subtract (s.x (hi hd)) (s.x (hi hs))))

/-- MOV Rd, Hs (R207). -/
def execMovRdHs (rd : LoReg) (hs : HiReg) (s : State) : Out := (s.writeReg (lo rd) (s.x (hi hs))).advance

/-- MOV Hd, Rs (R208). -/
def execMovHdRs (hd : HiReg) (rs : LoReg) (s : State) : Out := s.assign (hi hd) (s.x (lo rs))

/-- MOV Hd, Hs (R209). -/
def execMovHdHs (hd hs : HiReg) (s : State) : Out := s.assign (hi hd) (s.x (hi hs))

/-- BX Rs (R213, R214). -/
def execBxRs (rs : LoReg) (s : State) : Out := s.branchExchange (s.x (lo rs))

/-- BX Hs (R213, R214); BX PC from an address with bit 1 set is `Unpredictable` (R216, D9). -/
def execBxHs (hs : HiReg) (s : State) : Out :=
  if hi hs = pcReg ∧ s.pc.getLsbD 1 then .fault (.unpredictable .bxPcNotWordAligned) else s.branchExchange (s.x (hi hs))

end Sys2Proof.Machine
end

