-- ==== Sys2Proof/Machine/LoadStore.lean ====
section
/-! DEFINITION. Formats 6 to 11: single-register loads and stores (42_load_store.md R220 to R252). No flag is written, no
base register is written back (R222). -/

namespace Sys2Proof.Machine

/-- The address of formats 7 and 8: `x[Rb] + x[Ro]` (R225 to R233). -/
def addrRegister (s : State) (rb ro : LoReg) : Word := s.x (lo rb) + s.x (lo ro)

/-- The address of formats 9 and 10: `x[Rb] + #Imm` (R235 to R246). -/
def addrImmediate (s : State) (rb : LoReg) (imm : Word) : Word := s.x (lo rb) + imm

/-- The address of format 11: `SP + #Imm` (R250, R251). -/
def addrSp (s : State) (word8 : BitVec 8) : Word := s.x spReg + immWord8 word8

/-- The address of format 6: the word-aligned PC and the offset (R220). -/
def addrPc (s : State) (word8 : BitVec 8) : Word := s.pcWordAligned + immWord8 word8

/-- LDR Rd, [PC, #Imm] (R220). -/
def execLdrPc (rd : LoReg) (word8 : BitVec 8) (s : State) : Out := loadInto s (lo rd) (addrPc s word8) .word id

/-- STR Rd, [Rb, Ro] (R225). -/
def execStrReg (rd rb ro : LoReg) (s : State) : Out := storeFrom s (addrRegister s rb ro) .word (s.x (lo rd))

/-- STRB Rd, [Rb, Ro] (R226). -/
def execStrbReg (rd rb ro : LoReg) (s : State) : Out := storeFrom s (addrRegister s rb ro) .byte (s.x (lo rd))

/-- LDR Rd, [Rb, Ro] (R227). -/
def execLdrReg (rd rb ro : LoReg) (s : State) : Out := loadInto s (lo rd) (addrRegister s rb ro) .word id

/-- LDRB Rd, [Rb, Ro] (R228). -/
def execLdrbReg (rd rb ro : LoReg) (s : State) : Out := loadInto s (lo rd) (addrRegister s rb ro) .byte zeroExtend

/-- STRH Rd, [Rb, Ro] (R230). -/
def execStrhReg (rd rb ro : LoReg) (s : State) : Out := storeFrom s (addrRegister s rb ro) .half (s.x (lo rd))

/-- LDSB Rd, [Rb, Ro] (R232). -/
def execLdsbReg (rd rb ro : LoReg) (s : State) : Out := loadInto s (lo rd) (addrRegister s rb ro) .byte signExtend8

/-- LDRH Rd, [Rb, Ro] (R231). -/
def execLdrhReg (rd rb ro : LoReg) (s : State) : Out := loadInto s (lo rd) (addrRegister s rb ro) .half zeroExtend

/-- LDSH Rd, [Rb, Ro] (R233). -/
def execLdshReg (rd rb ro : LoReg) (s : State) : Out := loadInto s (lo rd) (addrRegister s rb ro) .half signExtend16

/-- STR Rd, [Rb, #Imm] (R235). -/
def execStrImm (rd rb : LoReg) (offset5 : BitVec 5) (s : State) : Out :=
  storeFrom s (addrImmediate s rb (immWord5 offset5)) .word (s.x (lo rd))

/-- LDR Rd, [Rb, #Imm] (R236). -/
def execLdrImm (rd rb : LoReg) (offset5 : BitVec 5) (s : State) : Out :=
  loadInto s (lo rd) (addrImmediate s rb (immWord5 offset5)) .word id

/-- STRB Rd, [Rb, #Imm] (R237). -/
def execStrbImm (rd rb : LoReg) (offset5 : BitVec 5) (s : State) : Out :=
  storeFrom s (addrImmediate s rb (immByte5 offset5)) .byte (s.x (lo rd))

/-- LDRB Rd, [Rb, #Imm] (R238). -/
def execLdrbImm (rd rb : LoReg) (offset5 : BitVec 5) (s : State) : Out :=
  loadInto s (lo rd) (addrImmediate s rb (immByte5 offset5)) .byte zeroExtend

/-- STRH Rd, [Rb, #Imm] (R245). -/
def execStrhImm (rd rb : LoReg) (offset5 : BitVec 5) (s : State) : Out :=
  storeFrom s (addrImmediate s rb (immHalf5 offset5)) .half (s.x (lo rd))

/-- LDRH Rd, [Rb, #Imm] (R246). -/
def execLdrhImm (rd rb : LoReg) (offset5 : BitVec 5) (s : State) : Out :=
  loadInto s (lo rd) (addrImmediate s rb (immHalf5 offset5)) .half zeroExtend

/-- STR Rd, [SP, #Imm] (R250). -/
def execStrSp (rd : LoReg) (word8 : BitVec 8) (s : State) : Out := storeFrom s (addrSp s word8) .word (s.x (lo rd))

/-- LDR Rd, [SP, #Imm] (R251). -/
def execLdrSp (rd : LoReg) (word8 : BitVec 8) (s : State) : Out := loadInto s (lo rd) (addrSp s word8) .word id

end Sys2Proof.Machine
end

