-- ==== Sys2Proof/Machine/MoveShifted.lean ====
section
/-! DEFINITION. Format 1: move shifted register (40_shift_addsub_imm.md R140 to R143). -/

namespace Sys2Proof.Machine

/-- LSL Rd, Rs, #Offset5 (R141). -/
def execLslImm (rd rs : LoReg) (offset5 : BitVec 5) (s : State) : Out :=
  s.shifted rd (shiftImm .lsl (s.x (lo rs)) offset5 s.cpsr.c)

/-- LSR Rd, Rs, #Offset5 (R142). -/
def execLsrImm (rd rs : LoReg) (offset5 : BitVec 5) (s : State) : Out :=
  s.shifted rd (shiftImm .lsr (s.x (lo rs)) offset5 s.cpsr.c)

/-- ASR Rd, Rs, #Offset5 (R143). -/
def execAsrImm (rd rs : LoReg) (offset5 : BitVec 5) (s : State) : Out :=
  s.shifted rd (shiftImm .asr (s.x (lo rs)) offset5 s.cpsr.c)

end Sys2Proof.Machine
end

