-- ==== Sys2Proof/Machine/Multiple.lean ====
section
/-! DEFINITION. Format 14, push and pop, and format 15, multiple load and store (43_address_sp_multiple.md R268 to
R282). The checks of R282 stand before any access (R327). No flag is written. -/

namespace Sys2Proof.Machine

/-- PUSH of these registers: SP - 4n is the lowest address and the new SP (R270, R271). -/
def pushRegisters (s : State) (regs : List Reg) : Out :=
  storeMultiple s spReg (s.x spReg - extent regs) (s.x spReg - extent regs) regs

/-- PUSH of Lo registers (R270); an empty list is `Unpredictable` (R282, D13; log 13). -/
def execPush (rlist : BitVec 8) (s : State) : Out :=
  if rlist = 0#8 then .fault (.unpredictable .emptyRegisterList) else pushRegisters s (regList rlist)

/-- PUSH of Lo registers, if any, and LR at the highest address (R271). -/
def execPushLr (rlist : BitVec 8) (s : State) : Out := pushRegisters s (regList rlist ++ [lrReg])

/-- POP of Lo registers (R272); an empty list is `Unpredictable` (R282, D13; log 13). -/
def execPop (rlist : BitVec 8) (s : State) : Out :=
  if rlist = 0#8 then .fault (.unpredictable .emptyRegisterList)
  else loadMultiple s spReg (s.x spReg) (s.x spReg + extent (regList rlist)) (regList rlist)

/-- POP of Lo registers, if any, and PC from the highest address, whose bit 0 is discarded (R273, D15; log 17). The list
answered by `readWords` ends with the pair of R15, which `writeRegs` leaves to the jump. -/
def execPopPc (rlist : BitVec 8) (s : State) : Out :=
  let regs := regList rlist ++ [pcReg]
  match readWords s (s.x spReg) regs with
  | .error f => .fault f
  | .ok (vs, s') =>
    ((s'.writeRegs vs).writeReg spReg (s.x spReg + extent regs)).jump ((vs.getLast?.map Prod.snd).getD 0#32)

/-- STMIA Rb!, list (R280); an empty list and the base in the list are `Unpredictable` (R282, D13, D14; log 13). -/
def execStmia (rb : LoReg) (rlist : BitVec 8) (s : State) : Out :=
  if rlist = 0#8 then .fault (.unpredictable .emptyRegisterList)
  else if rlist.getLsbD rb.toNat then .fault (.unpredictable .baseRegisterInList)
  else storeMultiple s (lo rb) (s.x (lo rb)) (s.x (lo rb) + extent (regList rlist)) (regList rlist)

/-- LDMIA Rb!, list (R281); an empty list and the base in the list are `Unpredictable` (R282, D13, D14; log 13). -/
def execLdmia (rb : LoReg) (rlist : BitVec 8) (s : State) : Out :=
  if rlist = 0#8 then .fault (.unpredictable .emptyRegisterList)
  else if rlist.getLsbD rb.toNat then .fault (.unpredictable .baseRegisterInList)
  else loadMultiple s (lo rb) (s.x (lo rb)) (s.x (lo rb) + extent (regList rlist)) (regList rlist)

end Sys2Proof.Machine
end

