-- ==== Sys2Proof/Machine/Swi.lean ====
section
/-! DEFINITION. Format 17: software interrupt (44_branch_swi.md R300; 60_exceptions.md R321, R328). -/

namespace Sys2Proof.Machine

/-- SWI Value8 (R300): the exception entry of R321. "Value8 is used solely by the SWI handler: it is ignored by the
processor". -/
def execSwi (_value8 : BitVec 8) (s : State) : Out := .next s.enterSwi

end Sys2Proof.Machine
end

