-- ==== Sys2Proof/Machine/Undefined.lean ====
section
/-! DEFINITION. The twenty-four rows that give no instruction: five the source calls undefined (R124), seven BX encodings
with low bits set (R134, D17), twelve regions no format covers (R125, D8). Each raises `UndefinedEncoding(instr)`: nothing
is written before it (R210) and no exception is entered (R15, R320, D7; log 12). -/

namespace Sys2Proof.Machine

/-- Format 5, ADD with H1 = 0 and H2 = 0 (R124, R210). -/
def execUndefAddLoLo (instr : Half) (_s : State) : Out := .fault (.undefinedEncoding instr)

/-- Format 5, CMP with H1 = 0 and H2 = 0 (R124, R210). -/
def execUndefCmpLoLo (instr : Half) (_s : State) : Out := .fault (.undefinedEncoding instr)

/-- Format 5, MOV with H1 = 0 and H2 = 0 (R124, R210). -/
def execUndefMovLoLo (instr : Half) (_s : State) : Out := .fault (.undefinedEncoding instr)

/-- Format 5, BX with H1 = 1 (R124, R215). -/
def execUndefBxH1 (instr : Half) (_s : State) : Out := .fault (.undefinedEncoding instr)

/-- Format 5, BX with bits 2 to 0 = 1 (R134, D17). -/
def execUndefBxLow1 (instr : Half) (_s : State) : Out := .fault (.undefinedEncoding instr)

/-- Format 5, BX with bits 2 to 0 = 2 (R134, D17). -/
def execUndefBxLow2 (instr : Half) (_s : State) : Out := .fault (.undefinedEncoding instr)

/-- Format 5, BX with bits 2 to 0 = 3 (R134, D17). -/
def execUndefBxLow3 (instr : Half) (_s : State) : Out := .fault (.undefinedEncoding instr)

/-- Format 5, BX with bits 2 to 0 = 4 (R134, D17). -/
def execUndefBxLow4 (instr : Half) (_s : State) : Out := .fault (.undefinedEncoding instr)

/-- Format 5, BX with bits 2 to 0 = 5 (R134, D17). -/
def execUndefBxLow5 (instr : Half) (_s : State) : Out := .fault (.undefinedEncoding instr)

/-- Format 5, BX with bits 2 to 0 = 6 (R134, D17). -/
def execUndefBxLow6 (instr : Half) (_s : State) : Out := .fault (.undefinedEncoding instr)

/-- Format 5, BX with bits 2 to 0 = 7 (R134, D17). -/
def execUndefBxLow7 (instr : Half) (_s : State) : Out := .fault (.undefinedEncoding instr)

/-- Format 16, Cond = 1110 (R124, R292). -/
def execUndefCond14 (instr : Half) (_s : State) : Out := .fault (.undefinedEncoding instr)

/-- Halfwords 0xB100 to 0xB1FF, of no format (R125, D8). -/
def execUnassignedB1 (instr : Half) (_s : State) : Out := .fault (.undefinedEncoding instr)

/-- Halfwords 0xB200 to 0xB2FF, of no format (R125, D8). -/
def execUnassignedB2 (instr : Half) (_s : State) : Out := .fault (.undefinedEncoding instr)

/-- Halfwords 0xB300 to 0xB3FF, of no format (R125, D8). -/
def execUnassignedB3 (instr : Half) (_s : State) : Out := .fault (.undefinedEncoding instr)

/-- Halfwords 0xB600 to 0xB6FF, of no format (R125, D8). -/
def execUnassignedB6 (instr : Half) (_s : State) : Out := .fault (.undefinedEncoding instr)

/-- Halfwords 0xB700 to 0xB7FF, of no format (R125, D8). -/
def execUnassignedB7 (instr : Half) (_s : State) : Out := .fault (.undefinedEncoding instr)

/-- Halfwords 0xB800 to 0xB8FF, of no format (R125, D8). -/
def execUnassignedB8 (instr : Half) (_s : State) : Out := .fault (.undefinedEncoding instr)

/-- Halfwords 0xB900 to 0xB9FF, of no format (R125, D8). -/
def execUnassignedB9 (instr : Half) (_s : State) : Out := .fault (.undefinedEncoding instr)

/-- Halfwords 0xBA00 to 0xBAFF, of no format (R125, D8). -/
def execUnassignedBA (instr : Half) (_s : State) : Out := .fault (.undefinedEncoding instr)

/-- Halfwords 0xBB00 to 0xBBFF, of no format (R125, D8). -/
def execUnassignedBB (instr : Half) (_s : State) : Out := .fault (.undefinedEncoding instr)

/-- Halfwords 0xBE00 to 0xBEFF, of no format (R125, D8). -/
def execUnassignedBE (instr : Half) (_s : State) : Out := .fault (.undefinedEncoding instr)

/-- Halfwords 0xBF00 to 0xBFFF, of no format (R125, D8). -/
def execUnassignedBF (instr : Half) (_s : State) : Out := .fault (.undefinedEncoding instr)

/-- Halfwords 0xE800 to 0xEFFF, of no format (R125, D8). -/
def execUnassignedE8 (instr : Half) (_s : State) : Out := .fault (.undefinedEncoding instr)

end Sys2Proof.Machine
end

