-- ==== Sys2Proof/Machine/Dispatch.lean ====
section
/-! DEFINITION. One arm per instruction: each calls its meaning. -/

namespace Sys2Proof.Machine

def exec (i : Instr) (s : State) : Host.Outcome State Fault Refusal :=
  match i with
  | .lslImm rd rs offset5 => Sys2Proof.Machine.execLslImm rd rs offset5 s
  | .lsrImm rd rs offset5 => Sys2Proof.Machine.execLsrImm rd rs offset5 s
  | .asrImm rd rs offset5 => Sys2Proof.Machine.execAsrImm rd rs offset5 s
  | .addReg rd rs rn => Sys2Proof.Machine.execAddReg rd rs rn s
  | .subReg rd rs rn => Sys2Proof.Machine.execSubReg rd rs rn s
  | .addImm3 rd rs offset3 => Sys2Proof.Machine.execAddImm3 rd rs offset3 s
  | .subImm3 rd rs offset3 => Sys2Proof.Machine.execSubImm3 rd rs offset3 s
  | .movImm8 rd offset8 => Sys2Proof.Machine.execMovImm8 rd offset8 s
  | .cmpImm8 rd offset8 => Sys2Proof.Machine.execCmpImm8 rd offset8 s
  | .addImm8 rd offset8 => Sys2Proof.Machine.execAddImm8 rd offset8 s
  | .subImm8 rd offset8 => Sys2Proof.Machine.execSubImm8 rd offset8 s
  | .andReg rd rs => Sys2Proof.Machine.execAndReg rd rs s
  | .eorReg rd rs => Sys2Proof.Machine.execEorReg rd rs s
  | .lslReg rd rs => Sys2Proof.Machine.execLslReg rd rs s
  | .lsrReg rd rs => Sys2Proof.Machine.execLsrReg rd rs s
  | .asrReg rd rs => Sys2Proof.Machine.execAsrReg rd rs s
  | .adcReg rd rs => Sys2Proof.Machine.execAdcReg rd rs s
  | .sbcReg rd rs => Sys2Proof.Machine.execSbcReg rd rs s
  | .rorReg rd rs => Sys2Proof.Machine.execRorReg rd rs s
  | .tstReg rd rs => Sys2Proof.Machine.execTstReg rd rs s
  | .negReg rd rs => Sys2Proof.Machine.execNegReg rd rs s
  | .cmpReg rd rs => Sys2Proof.Machine.execCmpReg rd rs s
  | .cmnReg rd rs => Sys2Proof.Machine.execCmnReg rd rs s
  | .orrReg rd rs => Sys2Proof.Machine.execOrrReg rd rs s
  | .mulReg rd rs => Sys2Proof.Machine.execMulReg rd rs s
  | .bicReg rd rs => Sys2Proof.Machine.execBicReg rd rs s
  | .mvnReg rd rs => Sys2Proof.Machine.execMvnReg rd rs s
  | .addRdHs rd hs => Sys2Proof.Machine.execAddRdHs rd hs s
  | .addHdRs hd rs => Sys2Proof.Machine.execAddHdRs hd rs s
  | .addHdHs hd hs => Sys2Proof.Machine.execAddHdHs hd hs s
  | .cmpRdHs rd hs => Sys2Proof.Machine.execCmpRdHs rd hs s
  | .cmpHdRs hd rs => Sys2Proof.Machine.execCmpHdRs hd rs s
  | .cmpHdHs hd hs => Sys2Proof.Machine.execCmpHdHs hd hs s
  | .movRdHs rd hs => Sys2Proof.Machine.execMovRdHs rd hs s
  | .movHdRs hd rs => Sys2Proof.Machine.execMovHdRs hd rs s
  | .movHdHs hd hs => Sys2Proof.Machine.execMovHdHs hd hs s
  | .bxRs rs => Sys2Proof.Machine.execBxRs rs s
  | .bxHs hs => Sys2Proof.Machine.execBxHs hs s
  | .ldrPc rd word8 => Sys2Proof.Machine.execLdrPc rd word8 s
  | .strReg rd rb ro => Sys2Proof.Machine.execStrReg rd rb ro s
  | .strbReg rd rb ro => Sys2Proof.Machine.execStrbReg rd rb ro s
  | .ldrReg rd rb ro => Sys2Proof.Machine.execLdrReg rd rb ro s
  | .ldrbReg rd rb ro => Sys2Proof.Machine.execLdrbReg rd rb ro s
  | .strhReg rd rb ro => Sys2Proof.Machine.execStrhReg rd rb ro s
  | .ldsbReg rd rb ro => Sys2Proof.Machine.execLdsbReg rd rb ro s
  | .ldrhReg rd rb ro => Sys2Proof.Machine.execLdrhReg rd rb ro s
  | .ldshReg rd rb ro => Sys2Proof.Machine.execLdshReg rd rb ro s
  | .strImm rd rb offset5 => Sys2Proof.Machine.execStrImm rd rb offset5 s
  | .ldrImm rd rb offset5 => Sys2Proof.Machine.execLdrImm rd rb offset5 s
  | .strbImm rd rb offset5 => Sys2Proof.Machine.execStrbImm rd rb offset5 s
  | .ldrbImm rd rb offset5 => Sys2Proof.Machine.execLdrbImm rd rb offset5 s
  | .strhImm rd rb offset5 => Sys2Proof.Machine.execStrhImm rd rb offset5 s
  | .ldrhImm rd rb offset5 => Sys2Proof.Machine.execLdrhImm rd rb offset5 s
  | .strSp rd word8 => Sys2Proof.Machine.execStrSp rd word8 s
  | .ldrSp rd word8 => Sys2Proof.Machine.execLdrSp rd word8 s
  | .addRdPc rd word8 => Sys2Proof.Machine.execAddRdPc rd word8 s
  | .addRdSp rd word8 => Sys2Proof.Machine.execAddRdSp rd word8 s
  | .addSpImm sword7 => Sys2Proof.Machine.execAddSpImm sword7 s
  | .addSpNegImm sword7 => Sys2Proof.Machine.execAddSpNegImm sword7 s
  | .push rlist => Sys2Proof.Machine.execPush rlist s
  | .pushLr rlist => Sys2Proof.Machine.execPushLr rlist s
  | .pop rlist => Sys2Proof.Machine.execPop rlist s
  | .popPc rlist => Sys2Proof.Machine.execPopPc rlist s
  | .stmia rb rlist => Sys2Proof.Machine.execStmia rb rlist s
  | .ldmia rb rlist => Sys2Proof.Machine.execLdmia rb rlist s
  | .beq soffset8 => Sys2Proof.Machine.execBeq soffset8 s
  | .bne soffset8 => Sys2Proof.Machine.execBne soffset8 s
  | .bcs soffset8 => Sys2Proof.Machine.execBcs soffset8 s
  | .bcc soffset8 => Sys2Proof.Machine.execBcc soffset8 s
  | .bmi soffset8 => Sys2Proof.Machine.execBmi soffset8 s
  | .bpl soffset8 => Sys2Proof.Machine.execBpl soffset8 s
  | .bvs soffset8 => Sys2Proof.Machine.execBvs soffset8 s
  | .bvc soffset8 => Sys2Proof.Machine.execBvc soffset8 s
  | .bhi soffset8 => Sys2Proof.Machine.execBhi soffset8 s
  | .bls soffset8 => Sys2Proof.Machine.execBls soffset8 s
  | .bge soffset8 => Sys2Proof.Machine.execBge soffset8 s
  | .blt soffset8 => Sys2Proof.Machine.execBlt soffset8 s
  | .bgt soffset8 => Sys2Proof.Machine.execBgt soffset8 s
  | .ble soffset8 => Sys2Proof.Machine.execBle soffset8 s
  | .swi value8 => Sys2Proof.Machine.execSwi value8 s
  | .b offset11 => Sys2Proof.Machine.execB offset11 s
  | .blFirst offset => Sys2Proof.Machine.execBlFirst offset s
  | .blSecond offset => Sys2Proof.Machine.execBlSecond offset s
  | .undefAddLoLo instr => Sys2Proof.Machine.execUndefAddLoLo instr s
  | .undefCmpLoLo instr => Sys2Proof.Machine.execUndefCmpLoLo instr s
  | .undefMovLoLo instr => Sys2Proof.Machine.execUndefMovLoLo instr s
  | .undefBxH1 instr => Sys2Proof.Machine.execUndefBxH1 instr s
  | .undefBxLow1 instr => Sys2Proof.Machine.execUndefBxLow1 instr s
  | .undefBxLow2 instr => Sys2Proof.Machine.execUndefBxLow2 instr s
  | .undefBxLow3 instr => Sys2Proof.Machine.execUndefBxLow3 instr s
  | .undefBxLow4 instr => Sys2Proof.Machine.execUndefBxLow4 instr s
  | .undefBxLow5 instr => Sys2Proof.Machine.execUndefBxLow5 instr s
  | .undefBxLow6 instr => Sys2Proof.Machine.execUndefBxLow6 instr s
  | .undefBxLow7 instr => Sys2Proof.Machine.execUndefBxLow7 instr s
  | .undefCond14 instr => Sys2Proof.Machine.execUndefCond14 instr s
  | .unassignedB1 instr => Sys2Proof.Machine.execUnassignedB1 instr s
  | .unassignedB2 instr => Sys2Proof.Machine.execUnassignedB2 instr s
  | .unassignedB3 instr => Sys2Proof.Machine.execUnassignedB3 instr s
  | .unassignedB6 instr => Sys2Proof.Machine.execUnassignedB6 instr s
  | .unassignedB7 instr => Sys2Proof.Machine.execUnassignedB7 instr s
  | .unassignedB8 instr => Sys2Proof.Machine.execUnassignedB8 instr s
  | .unassignedB9 instr => Sys2Proof.Machine.execUnassignedB9 instr s
  | .unassignedBA instr => Sys2Proof.Machine.execUnassignedBA instr s
  | .unassignedBB instr => Sys2Proof.Machine.execUnassignedBB instr s
  | .unassignedBE instr => Sys2Proof.Machine.execUnassignedBE instr s
  | .unassignedBF instr => Sys2Proof.Machine.execUnassignedBF instr s
  | .unassignedE8 instr => Sys2Proof.Machine.execUnassignedE8 instr s

end Sys2Proof.Machine
end

