-- ==== Sys2Proof/Machine/Step.lean ====
section
/-! DEFINITION. One step: in THUMB state, fetch the halfword at `iaddr`, decode it, execute it (20_memory.md R67;
30_encoding.md R100, R120; 60_exceptions.md R327); in ARM state nothing this spec describes (00_scope.md R5, R6, D5). -/

namespace Sys2Proof.Machine

/-- One step of the machine. A fetch fault stands before decode (R327, D26). -/
def step (s : State) : Host.Outcome State Fault Refusal :=
  if s.cpsr.t then
    match fetch s with
    | .error f => .fault f
    | .ok (h, s') => exec (decodeHalf h) s'
  else .refused .armState

/-- The instruction whose bits are `w` stored at `iaddr`, where the next step fetches (R67; log 3). -/
def State.withFetchWord (s : State) (nbits w : Nat) : State := s.setValue s.pc .half (BitVec.ofNat 32 (w % 2 ^ nbits))

end Sys2Proof.Machine
end

