-- ==== Sys2Proof/Machine/Assembler.lean ====
section
/-! DEFINITION. The assembler's side of the instruction set, which 00_scope.md R4 puts in scope: the forms of R130 and the
shorthand of R131, the checks and the scaling of immediates (R121, R132), the choice of a format by the operands (R130),
the split of a BL offset (R303), and the text of a form (R24, R129, R130). A label stands for the address the assembler
gives it. Log 25. -/

namespace Sys2Proof.Machine

/-- A label of the program and its address (R129). -/
structure Label where
  name : String
  addr : Word
  deriving DecidableEq, Repr

/-- The mnemonics of the shifts by an immediate; ASL is a synonym of LSL (R131). -/
inductive ShiftName where
  | lsl | lsr | asr | asl
  deriving DecidableEq, Repr

/-- The mnemonics of format 4 (R104). -/
inductive AluName where
  | and | eor | lsl | lsr | asr | adc | sbc | ror | tst | neg | cmp | cmn | orr | mul | bic | mvn
  deriving DecidableEq, Repr

/-- The mnemonics of format 3 (R103). -/
inductive ImmName where
  | mov | cmp | add | sub
  deriving DecidableEq, Repr

/-- The mnemonics of formats 7 to 10 (R107 to R110). -/
inductive MemName where
  | str | strb | ldr | ldrb | strh | ldsb | ldrh | ldsh
  deriving DecidableEq, Repr

/-- The forms an assembler line may take (R130, R131). Registers are named by their numbers, immediates are the #Imm the
programmer writes. -/
inductive Asm where
  /-- `LSL Rd, Rs, #n` and likewise LSR, ASR, ASL. -/
  | shift (op : ShiftName) (rd rs : Reg) (n : Nat)
  /-- `LSL Rd, #n`: the two-operand shorthand. -/
  | shiftShort (op : ShiftName) (rd : Reg) (n : Nat)
  /-- `ADD Rd, Rs, Rn`. -/
  | addThree (rd rs rn : Reg)
  /-- `SUB Rd, Rs, Rn`. -/
  | subThree (rd rs rn : Reg)
  /-- `ADD Rd, Rs, #n`: format 2, or format 12 when Rs is the PC or the SP. -/
  | addImm (rd rs : Reg) (n : Nat)
  /-- `SUB Rd, Rs, #n`. -/
  | subImm (rd rs : Reg) (n : Nat)
  /-- `MOV Rd, #n` and likewise CMP, ADD, SUB. -/
  | imm (op : ImmName) (rd : Reg) (n : Nat)
  /-- `<op> Rd, Rs` of format 4. -/
  | alu (op : AluName) (rd rs : Reg)
  /-- `ADD Rd, Rs`: format 5, or the shorthand of format 2 between Lo registers. -/
  | add (rd rs : Reg)
  /-- `SUB Rd, Rs`: the shorthand of format 2. -/
  | sub (rd rs : Reg)
  /-- `CMP Rd, Rs`: format 5, or format 4 between Lo registers. -/
  | cmp (rd rs : Reg)
  /-- `MOV Rd, Rs`: format 5, or `ADD Rd, Rs, #0` between Lo registers. -/
  | mov (rd rs : Reg)
  /-- `BX Rs`. -/
  | bx (rs : Reg)
  /-- `<op> Rd, [Rb, Ro]`. -/
  | memReg (op : MemName) (rd rb ro : Reg)
  /-- `<op> Rd, [Rb, #n]`, where Rb may be the PC (LDR) or the SP (LDR, STR). -/
  | memImm (op : MemName) (rd rb : Reg) (n : Nat)
  /-- `ADR Rd, label`. -/
  | adr (rd : Reg) (target : Label)
  /-- `ADD SP, #n` and `ADD SP, #-n`. -/
  | addSp (n : Int)
  | push (rlist : BitVec 8) (lr : Bool)
  | pop (rlist : BitVec 8) (pc : Bool)
  | stmia (rb : Reg) (rlist : BitVec 8)
  | ldmia (rb : Reg) (rlist : BitVec 8)
  | branchIf (c : Cond) (target : Label)
  | branch (target : Label)
  /-- `BL label`: one line, two instructions. -/
  | branchLink (target : Label)
  | swi (n : Nat)
  /-- `ALIGN` and `CODE32`: they emit no THUMB instruction. -/
  | align
  | code32
  deriving DecidableEq, Repr

/-- The 3-bit field of a Lo register (R122). -/
def lowField (r : Reg) : Option LoReg := if r.toNat < 8 then some (r.setWidth 3) else none

/-- The 3-bit field of a Hi register (R122). -/
def highField (r : Reg) : Option HiReg := if 8 ≤ r.toNat then some (r.setWidth 3) else none

/-- The field of a scaled unsigned immediate: a multiple of the scale, within the field's range (R121, R132). -/
def scaledField (w scale n : Nat) : Option (BitVec w) :=
  if n % scale = 0 ∧ n / scale < 2 ^ w then some (BitVec.ofNat w (n / scale)) else none

/-- The field of a branch: `(label - (iaddr + 4)) >> 1`, even and within the field's signed range (R121, R132). -/
def branchField (w : Nat) (iaddr : Word) (target : Label) : Option (BitVec w) :=
  let off : Int := (target.addr - (iaddr + 4#32)).toInt
  if off % 2 = 0 ∧ -(2 ^ w : Int) ≤ off ∧ off < 2 ^ w then some (BitVec.ofInt w (off / 2)) else none

/-- The fields of the two BL instructions: bits 22 to 12 and 11 to 1 of the offset (R303). -/
def blFields (iaddr : Word) (target : Label) : Option (BitVec 11 × BitVec 11) :=
  let off : Word := target.addr - (iaddr + 4#32)
  if off.toInt % 2 = 0 ∧ -4194304 ≤ off.toInt ∧ off.toInt ≤ 4194302 then
    some (off.extractLsb' 12 11, off.extractLsb' 1 11)
  else none

/-- A shift by an immediate (R101). LSR and ASR by 32 have field 0, and by 0 are written as LSL by 0 (R140). -/
def assembleShift (op : ShiftName) (rd rs : LoReg) (n : Nat) : Option Instr :=
  match op with
  | .lsl => (scaledField 5 1 n).map (.lslImm rd rs)
  | .asl => (scaledField 5 1 n).map (.lslImm rd rs)
  | .lsr => if n = 0 then some (.lslImm rd rs 0#5) else if n = 32 then some (.lsrImm rd rs 0#5)
      else (scaledField 5 1 n).map (.lsrImm rd rs)
  | .asr => if n = 0 then some (.lslImm rd rs 0#5) else if n = 32 then some (.asrImm rd rs 0#5)
      else (scaledField 5 1 n).map (.asrImm rd rs)

/-- An instruction of format 4 (R104). -/
def assembleAlu (op : AluName) (rd rs : LoReg) : Instr :=
  match op with
  | .and => .andReg rd rs
  | .eor => .eorReg rd rs
  | .lsl => .lslReg rd rs
  | .lsr => .lsrReg rd rs
  | .asr => .asrReg rd rs
  | .adc => .adcReg rd rs
  | .sbc => .sbcReg rd rs
  | .ror => .rorReg rd rs
  | .tst => .tstReg rd rs
  | .neg => .negReg rd rs
  | .cmp => .cmpReg rd rs
  | .cmn => .cmnReg rd rs
  | .orr => .orrReg rd rs
  | .mul => .mulReg rd rs
  | .bic => .bicReg rd rs
  | .mvn => .mvnReg rd rs

/-- An instruction of format 3 (R103). -/
def assembleImm (op : ImmName) (rd : LoReg) (offset8 : BitVec 8) : Instr :=
  match op with
  | .mov => .movImm8 rd offset8
  | .cmp => .cmpImm8 rd offset8
  | .add => .addImm8 rd offset8
  | .sub => .subImm8 rd offset8

/-- An instruction of format 7 or 8 (R107, R108). -/
def assembleMemReg (op : MemName) (rd rb ro : LoReg) : Instr :=
  match op with
  | .str => .strReg rd rb ro
  | .strb => .strbReg rd rb ro
  | .ldr => .ldrReg rd rb ro
  | .ldrb => .ldrbReg rd rb ro
  | .strh => .strhReg rd rb ro
  | .ldsb => .ldsbReg rd rb ro
  | .ldrh => .ldrhReg rd rb ro
  | .ldsh => .ldshReg rd rb ro

/-- An instruction of format 9 or 10; LDSB and LDSH have no such form (R109, R110, R234). -/
def assembleMemImm (op : MemName) (rd rb : LoReg) (n : Nat) : Option Instr :=
  match op with
  | .str => (scaledField 5 4 n).map (.strImm rd rb)
  | .ldr => (scaledField 5 4 n).map (.ldrImm rd rb)
  | .strb => (scaledField 5 1 n).map (.strbImm rd rb)
  | .ldrb => (scaledField 5 1 n).map (.ldrbImm rd rb)
  | .strh => (scaledField 5 2 n).map (.strhImm rd rb)
  | .ldrh => (scaledField 5 2 n).map (.ldrhImm rd rb)
  | .ldsb => none
  | .ldsh => none

/-- A conditional branch of format 16 (R116). -/
def assembleBranchIf (c : Cond) (o : BitVec 8) : Instr :=
  match c with
  | .eq => .beq o
  | .ne => .bne o
  | .cs => .bcs o
  | .cc => .bcc o
  | .mi => .bmi o
  | .pl => .bpl o
  | .vs => .bvs o
  | .vc => .bvc o
  | .hi => .bhi o
  | .ls => .bls o
  | .ge => .bge o
  | .lt => .blt o
  | .gt => .bgt o
  | .le => .ble o

/-- The two-operand ADD: format 2 between Lo registers, format 5 otherwise (R130, R131). -/
def assembleAdd (rd rs : Reg) : Option Instr :=
  match lowField rd, lowField rs, highField rd, highField rs with
  | some d, some s, _, _ => some (.addReg d d s)
  | some d, _, _, some s => some (.addRdHs d s)
  | _, some s, some d, _ => some (.addHdRs d s)
  | _, _, some d, some s => some (.addHdHs d s)
  | _, _, _, _ => none

/-- The two-operand CMP: format 4 between Lo registers, format 5 otherwise (R130). -/
def assembleCmp (rd rs : Reg) : Option Instr :=
  match lowField rd, lowField rs, highField rd, highField rs with
  | some d, some s, _, _ => some (.cmpReg d s)
  | some d, _, _, some s => some (.cmpRdHs d s)
  | _, some s, some d, _ => some (.cmpHdRs d s)
  | _, _, some d, some s => some (.cmpHdHs d s)
  | _, _, _, _ => none

/-- The two-operand MOV: `ADD Rd, Rs, #0` between Lo registers (D21), format 5 otherwise (R130, R131). -/
def assembleMov (rd rs : Reg) : Option Instr :=
  match lowField rd, lowField rs, highField rd, highField rs with
  | some d, some s, _, _ => some (.addImm3 d s 0#3)
  | some d, _, _, some s => some (.movRdHs d s)
  | _, some s, some d, _ => some (.movHdRs d s)
  | _, _, some d, some s => some (.movHdHs d s)
  | _, _, _, _ => none

/-- The instructions of a line at address `iaddr`, or none when the assembler rejects it (R130 to R132, R303). -/
def assemble (iaddr : Word) : Asm → Option (List Instr)
  | .shift op rd rs n => do return [← assembleShift op (← lowField rd) (← lowField rs) n]
  | .shiftShort op rd n => do return [← assembleShift op (← lowField rd) (← lowField rd) n]
  | .addThree rd rs rn => do return [.addReg (← lowField rd) (← lowField rs) (← lowField rn)]
  | .subThree rd rs rn => do return [.subReg (← lowField rd) (← lowField rs) (← lowField rn)]
  | .addImm rd rs n =>
    if rs = pcReg then do return [.addRdPc (← lowField rd) (← scaledField 8 4 n)]
    else if rs = spReg then do return [.addRdSp (← lowField rd) (← scaledField 8 4 n)]
    else do return [.addImm3 (← lowField rd) (← lowField rs) (← scaledField 3 1 n)]
  | .subImm rd rs n => do return [.subImm3 (← lowField rd) (← lowField rs) (← scaledField 3 1 n)]
  | .imm op rd n => do return [assembleImm op (← lowField rd) (← scaledField 8 1 n)]
  | .alu op rd rs => do return [assembleAlu op (← lowField rd) (← lowField rs)]
  | .add rd rs => do return [← assembleAdd rd rs]
  | .sub rd rs => do return [.subReg (← lowField rd) (← lowField rd) (← lowField rs)]
  | .cmp rd rs => do return [← assembleCmp rd rs]
  | .mov rd rs => do return [← assembleMov rd rs]
  | .bx rs =>
    match lowField rs with
    | some s => some [.bxRs s]
    | none => (highField rs).map (fun s => [.bxHs s])
  | .memReg op rd rb ro => do return [assembleMemReg op (← lowField rd) (← lowField rb) (← lowField ro)]
  | .memImm op rd rb n =>
    if rb = pcReg then
      if op = .ldr then do return [.ldrPc (← lowField rd) (← scaledField 8 4 n)] else none
    else if rb = spReg then
      if op = .str then do return [.strSp (← lowField rd) (← scaledField 8 4 n)]
      else if op = .ldr then do return [.ldrSp (← lowField rd) (← scaledField 8 4 n)]
      else none
    else do return [← assembleMemImm op (← lowField rd) (← lowField rb) n]
  | .adr rd target => do
    let off := target.addr - ((iaddr + 4#32) &&& 0xFFFFFFFC#32)
    return [.addRdPc (← lowField rd) (← scaledField 8 4 off.toNat)]
  | .addSp n =>
    if 0 ≤ n then do return [.addSpImm (← scaledField 7 4 n.toNat)]
    else do return [.addSpNegImm (← scaledField 7 4 (-n).toNat)]
  | .push rlist lr => if lr then some [.pushLr rlist] else if rlist = 0#8 then none else some [.push rlist]
  | .pop rlist pc => if pc then some [.popPc rlist] else if rlist = 0#8 then none else some [.pop rlist]
  | .stmia rb rlist => if rlist = 0#8 then none else do return [.stmia (← lowField rb) rlist]
  | .ldmia rb rlist => if rlist = 0#8 then none else do return [.ldmia (← lowField rb) rlist]
  | .branchIf c target => do return [assembleBranchIf c (← branchField 8 iaddr target)]
  | .branch target => do return [.b (← branchField 11 iaddr target)]
  | .branchLink target => do
    let (high, low) ← blFields iaddr target
    return [.blFirst high, .blSecond low]
  | .swi n => do return [.swi (← scaledField 8 1 n)]
  | .align => some []
  | .code32 => some []

/-- A register's name in assembler text (R24). -/
def regText (r : Reg) : String :=
  if r = spReg then "SP" else if r = lrReg then "LR" else if r = pcReg then "PC" else "R" ++ toString r.toNat

/-- An immediate in assembler text: `#` and a decimal number (R129). -/
def immText (n : Nat) : String := "#" ++ toString n

/-- A register list in braces, separated by commas (R123, R129). -/
def listText (regs : List Reg) : String :=
  String.singleton (Char.ofNat 123) ++ ", ".intercalate (regs.map regText) ++ String.singleton (Char.ofNat 125)

/-- The mnemonic of a shift. -/
def ShiftName.text : ShiftName → String
  | .lsl => "LSL" | .lsr => "LSR" | .asr => "ASR" | .asl => "ASL"

/-- The mnemonic of a format 4 instruction. -/
def AluName.text : AluName → String
  | .and => "AND" | .eor => "EOR" | .lsl => "LSL" | .lsr => "LSR" | .asr => "ASR" | .adc => "ADC" | .sbc => "SBC"
  | .ror => "ROR" | .tst => "TST" | .neg => "NEG" | .cmp => "CMP" | .cmn => "CMN" | .orr => "ORR" | .mul => "MUL"
  | .bic => "BIC" | .mvn => "MVN"

/-- The mnemonic of a format 3 instruction. -/
def ImmName.text : ImmName → String
  | .mov => "MOV" | .cmp => "CMP" | .add => "ADD" | .sub => "SUB"

/-- The mnemonic of a load or store. -/
def MemName.text : MemName → String
  | .str => "STR" | .strb => "STRB" | .ldr => "LDR" | .ldrb => "LDRB" | .strh => "STRH" | .ldsb => "LDSB"
  | .ldrh => "LDRH" | .ldsh => "LDSH"

/-- The suffix of a condition (R290). -/
def condText : Cond → String
  | .eq => "EQ" | .ne => "NE" | .cs => "CS" | .cc => "CC" | .mi => "MI" | .pl => "PL" | .vs => "VS" | .vc => "VC"
  | .hi => "HI" | .ls => "LS" | .ge => "GE" | .lt => "LT" | .gt => "GT" | .le => "LE"

/-- A mnemonic and its operands, separated by commas (R129). -/
def lineText (mnemonic : String) (operands : List String) : String := mnemonic ++ " " ++ ", ".intercalate operands

/-- The text of a line (R129, R130). -/
def Asm.text : Asm → String
  | .shift op rd rs n => lineText op.text [regText rd, regText rs, immText n]
  | .shiftShort op rd n => lineText op.text [regText rd, immText n]
  | .addThree rd rs rn => lineText "ADD" [regText rd, regText rs, regText rn]
  | .subThree rd rs rn => lineText "SUB" [regText rd, regText rs, regText rn]
  | .addImm rd rs n => lineText "ADD" [regText rd, regText rs, immText n]
  | .subImm rd rs n => lineText "SUB" [regText rd, regText rs, immText n]
  | .imm op rd n => lineText op.text [regText rd, immText n]
  | .alu op rd rs => lineText op.text [regText rd, regText rs]
  | .add rd rs => lineText "ADD" [regText rd, regText rs]
  | .sub rd rs => lineText "SUB" [regText rd, regText rs]
  | .cmp rd rs => lineText "CMP" [regText rd, regText rs]
  | .mov rd rs => lineText "MOV" [regText rd, regText rs]
  | .bx rs => lineText "BX" [regText rs]
  | .memReg op rd rb ro => lineText op.text [regText rd, "[" ++ regText rb ++ ", " ++ regText ro ++ "]"]
  | .memImm op rd rb n => lineText op.text [regText rd, "[" ++ regText rb ++ ", " ++ immText n ++ "]"]
  | .adr rd target => lineText "ADR" [regText rd, target.name]
  | .addSp n => lineText "ADD" ["SP", "#" ++ toString n]
  | .push rlist lr => lineText "PUSH" [listText (regList rlist ++ if lr then [lrReg] else [])]
  | .pop rlist pc => lineText "POP" [listText (regList rlist ++ if pc then [pcReg] else [])]
  | .stmia rb rlist => lineText "STMIA" [regText rb ++ "!", listText (regList rlist)]
  | .ldmia rb rlist => lineText "LDMIA" [regText rb ++ "!", listText (regList rlist)]
  | .branchIf c target => lineText ("B" ++ condText c) [target.name]
  | .branch target => lineText "B" [target.name]
  | .branchLink target => lineText "BL" [target.name]
  | .swi n => lineText "SWI" [toString n]
  | .align => "ALIGN"
  | .code32 => "CODE32"

end Sys2Proof.Machine
end

