-- ==== Sys2Proof/Safety.lean ====
section
/-! DEFINITION. The words the claims use: what a launch supplies and when a run ends (10_state.md R40; 00_scope.md R6), the
invariant every step keeps, what an instruction leaves alone (10_state.md R32, R42), and the arithmetic of the flags in
unbounded integers (00_scope.md R10, R13, R14). -/

namespace Sys2Proof.Machine

/-- Memory is canonical; the PC is even, and a multiple of 4 in ARM state (R29, R60, R214, R321). -/
abbrev Inv (s : State) : Prop :=
  Memory.wf s.mem = true ∧ s.pc.getLsbD 0 = false ∧ (s.cpsr.t = false → s.pc.getLsbD 1 = false)

/-- A state in which THUMB execution may begin (R40): THUMB state, an even address; memory is canonical. -/
abbrev Launch (s : State) : Prop := s.cpsr.t = true ∧ s.pc.getLsbD 0 = false ∧ Memory.wf s.mem = true

/-- The modelled run ends here (R6): THUMB state is left, the address named as the end is reached, or the step faults. -/
def RunEnds (stop : Word) (s : State) : Prop := s.cpsr.t = false ∨ s.pc = stop ∨ ∃ f, step s = .fault f

/-- The instruction completes from `s`, in a state that `P` describes. -/
def Completes (i : Instr) (s : State) (P : State → Prop) : Prop := ∃ t, exec i s = .next t ∧ P t

/-- Every register of the file, of every bank, is kept, but for those the listed numbers name in the mode of `s`. -/
def KeepsRegsBut (s t : State) (dests : List Reg) : Prop :=
  ∀ p : PhysReg, (∀ r ∈ dests, phys s.cpsr.mode r ≠ some p) → t.bank p = s.bank p

/-- Every byte of memory reads as before. -/
def KeepsMemory (s t : State) : Prop := ∀ a : Word, t.byteAt a = s.byteAt a

/-- Every byte of memory but the `n` bytes from address `a` on reads as before. -/
def KeepsMemoryBut (s t : State) (a : Word) (n : Nat) : Prop := ∀ b : Word, n ≤ (b - a).toNat → t.byteAt b = s.byteAt b

/-- The saved status registers and the platform's facts are kept. -/
def KeepsSystem (s t : State) : Prop := t.spsr = s.spsr ∧ t.bigEndian = s.bigEndian ∧ t.regions = s.regions

/-- Every bit of the status register but N, Z, C and V is kept. -/
def KeepsControl (p q : Psr) : Prop :=
  q.reserved = p.reserved ∧ q.i = p.i ∧ q.f = p.f ∧ q.t = p.t ∧ q.mode = p.mode

/-- The frame of an instruction that stores nothing: registers but the listed ones, memory, saved status, platform. -/
def LeavesBut (s t : State) (dests : List Reg) : Prop :=
  KeepsRegsBut s t dests ∧ KeepsMemory s t ∧ KeepsSystem s t ∧ KeepsControl s.cpsr t.cpsr

/-- The instruction at the next halfword follows, no free value was drawn, and nothing is written but the listed registers
and the flags. -/
def Advances (s t : State) (dests : List Reg) : Prop := t.pc = s.pc + 2#32 ∧ t.draws = s.draws ∧ LeavesBut s t dests

/-- The frame of an instruction that stores `n` bytes from address `a` on and writes the listed registers, no flag. -/
def StoresBut (s t : State) (dests : List Reg) (a : Word) (n : Nat) : Prop :=
  KeepsRegsBut s t dests ∧ KeepsMemoryBut s t a n ∧ KeepsSystem s t ∧ t.cpsr = s.cpsr ∧ t.draws = s.draws

/-- N is bit 31 of the result and Z says that it is zero (R14). -/
def FlagsNZ (r : Word) (q : Psr) : Prop := (q.n = true ↔ r.toInt < 0) ∧ (q.z = true ↔ r.toNat = 0)

/-- `r` is `a + b + cin` modulo 2^32 and the flags describe it (R13, R14): C is the carry out of the unsigned sum, V says
that the signed sum does not fit. -/
def IsSum (a b : Word) (cin : Bool) (r : Word) (q : Psr) : Prop :=
  r.toNat = (a.toNat + b.toNat + cin.toNat) % 2 ^ 32 ∧ FlagsNZ r q ∧
    (q.c = true ↔ 2 ^ 32 ≤ a.toNat + b.toNat + cin.toNat) ∧ (q.v = true ↔ r.toInt ≠ a.toInt + b.toInt + cin.toNat)

/-- `r` is `a - b - borrow` modulo 2^32 and the flags describe it (R13, R14): C says that nothing is borrowed, V that the
signed difference does not fit. -/
def IsDifference (a b : Word) (borrow : Bool) (r : Word) (q : Psr) : Prop :=
  (r.toNat : Int) = ((a.toNat : Int) - b.toNat - borrow.toNat) % 2 ^ 32 ∧ FlagsNZ r q ∧
    (q.c = true ↔ b.toNat + borrow.toNat ≤ a.toNat) ∧ (q.v = true ↔ r.toInt ≠ a.toInt - b.toInt - borrow.toNat)

/-- The word whose bit `k` is `f k`. -/
def BitsAre (r : Word) (f : Nat → Bool) : Prop := ∀ k, k < 32 → r.getLsbD k = f k

/-- A logical result in `rd`: its bits, N and Z from it, C and V kept (R169, R170). -/
def SetsLogical (s t : State) (rd : LoReg) (f : Nat → Bool) : Prop :=
  BitsAre (t.x (lo rd)) f ∧ FlagsNZ (t.x (lo rd)) t.cpsr ∧ t.cpsr.c = s.cpsr.c ∧ t.cpsr.v = s.cpsr.v ∧
    Advances s t [lo rd]

/-- A load of register `rd` from `n` bytes at address `a` of ordinary memory completes, and `P` holds of the register's
new value; no flag is written. -/
def Loads (i : Instr) (s : State) (rd : LoReg) (a : Word) (n : Size) (P : Word → Prop) : Prop :=
  s.pc ≠ lastHalf → a.toNat % n.bytes = 0 → s.ordinary a n .read = true →
    Completes i s (fun t => P (t.x (lo rd)) ∧ t.cpsr = s.cpsr ∧ Advances s t [lo rd])

/-- A load from a device region completes whatever the oracle answers, with `P` of that answer and the register's new
value, and counts one draw (R72). -/
def LoadsFromDevice (i : Instr) (s : State) (rd : LoReg) (a : Word) (n : Size) (P : Word → Word → Prop) : Prop :=
  s.pc ≠ lastHalf → a.toNat % n.bytes = 0 → s.admitted a n .read = true → s.ordinary a n .read = false →
    Completes i s (fun t => P (Config.deviceRead s.draws a n.bytes) (t.x (lo rd)) ∧ t.pc = s.pc + 2#32 ∧
      t.draws = s.draws + 1 ∧ t.cpsr = s.cpsr ∧ LeavesBut s t [lo rd])

/-- A store of `n` bytes of `v` at address `a` completes, changes those bytes only and writes no register and no flag. -/
def Stores (i : Instr) (s : State) (a : Word) (n : Size) (v : Word) : Prop :=
  s.pc ≠ lastHalf → Memory.wf s.mem = true → a.toNat % n.bytes = 0 → s.admitted a n .write = true →
    Completes i s (fun t => (t.valueAt a n).toNat = v.toNat % 2 ^ (8 * n.bytes) ∧ t.pc = s.pc + 2#32 ∧
      StoresBut s t [] a n.bytes)

/-- An access of `n` bytes at a misaligned address stops the instruction with `Misaligned` (R64, R65). -/
def StopsMisaligned (i : Instr) (s : State) (a : Word) (n : Size) : Prop :=
  a.toNat % n.bytes ≠ 0 → exec i s = .fault (.misaligned a n)

/-- An aligned access that the platform does not admit stops the instruction with `MemFault` (R64, R65). -/
def StopsNotAdmitted (i : Instr) (s : State) (a : Word) (n : Size) (k : Access) : Prop :=
  a.toNat % n.bytes = 0 → s.admitted a n k = false → exec i s = .fault (.memFault a n k)

/-- A conditional branch: to `iaddr + 4 + 2 * offset` when `holds`, else to the next halfword; nothing but the PC is
written (R291). Not taken at the last halfword of the address space it stops (R30; `SequentialAdvance`). -/
def BranchesWhen (i : BitVec 8 → Instr) (holds : Psr → Prop) : Prop :=
  ∀ (s : State) (o : BitVec 8),
    (holds s.cpsr → exec (i o) s = .next (s.withPc (s.pc + 4#32 + BitVec.ofInt 32 (2 * o.toInt)))) ∧
    (¬ holds s.cpsr → s.pc ≠ lastHalf → exec (i o) s = .next (s.withPc (s.pc + 2#32)))

/-- Memory holds the words, each in its four bytes, from address `a` on (R63, R268). -/
def HoldsWords (s : State) (a : Word) : List Word → Prop
  | [] => True
  | v :: rest => s.valueAt a .word = v ∧ HoldsWords s (a + 4#32) rest

/-- Every access of a multiple transfer satisfies `ok` (`State.admitted` or `State.ordinary` of it): `n` words from `a`. -/
def eachWord (ok : Word → Bool) (a : Word) : Nat → Bool
  | 0 => true
  | n + 1 => ok a && eachWord ok (a + 4#32) n

/-- What a multiple load gets from address `a` on, one word at a time, with `d` draws made before it and `e` after it: the
word of ordinary memory, or the oracle's next answer where the region is a device (R64, R70, R72, R268). -/
def ReadsWords (s : State) (d : Nat) (a : Word) : List Word → Nat → Prop
  | [], e => e = d
  | v :: rest, e =>
    if s.ordinary a .word .read then v = s.valueAt a .word ∧ ReadsWords s d (a + 4#32) rest e
    else v = Config.deviceRead d a 4 ∧ ReadsWords s (d + 1) (a + 4#32) rest e

/-- A multiple transfer of `n` words from the aligned address `start` stops with `MemFault` at the first word that the
platform does not admit (R64, R65, R70; step 4 of R327). -/
def StopsAtUnadmittedWord (i : Instr) (s : State) (start : Word) (n : Nat) (k : Access) : Prop :=
  ∀ j, j < n → start.toNat % 4 = 0 → eachWord (fun a => s.admitted a .word k) start j = true →
    s.admitted (start + BitVec.ofNat 32 (4 * j)) .word k = false →
    exec i s = .fault (.memFault (start + BitVec.ofNat 32 (4 * j)) .word k)

/-- The list of a multiple transfer is one that R282 makes `Unpredictable`: empty, or with the base in it. -/
def invalidList : Instr → Bool
  | .push l | .pop l => l == 0#8
  | .stmia rb l | .ldmia rb l => l == 0#8 || l.getLsbD rb.toNat
  | _ => false

/-- The accesses of a multiple transfer: `n` words from `a` (R268). -/
def wordAccesses (k : Access) (a : Word) : Nat → List (Word × Size × Access)
  | 0 => []
  | n + 1 => (a, .word, k) :: wordAccesses k (a + 4#32) n

/-- The memory accesses of an instruction in their order, each an address, a size and a kind (R62, R68, R222, R268). -/
def accesses (s : State) : Instr → List (Word × Size × Access)
  | .ldrPc _ w => [(addrPc s w, .word, .read)]
  | .strReg _ rb ro => [(addrRegister s rb ro, .word, .write)]
  | .strbReg _ rb ro => [(addrRegister s rb ro, .byte, .write)]
  | .ldrReg _ rb ro => [(addrRegister s rb ro, .word, .read)]
  | .ldrbReg _ rb ro => [(addrRegister s rb ro, .byte, .read)]
  | .strhReg _ rb ro => [(addrRegister s rb ro, .half, .write)]
  | .ldsbReg _ rb ro => [(addrRegister s rb ro, .byte, .read)]
  | .ldrhReg _ rb ro | .ldshReg _ rb ro => [(addrRegister s rb ro, .half, .read)]
  | .strImm _ rb o => [(addrImmediate s rb (immWord5 o), .word, .write)]
  | .ldrImm _ rb o => [(addrImmediate s rb (immWord5 o), .word, .read)]
  | .strbImm _ rb o => [(addrImmediate s rb (immByte5 o), .byte, .write)]
  | .ldrbImm _ rb o => [(addrImmediate s rb (immByte5 o), .byte, .read)]
  | .strhImm _ rb o => [(addrImmediate s rb (immHalf5 o), .half, .write)]
  | .ldrhImm _ rb o => [(addrImmediate s rb (immHalf5 o), .half, .read)]
  | .strSp _ w => [(addrSp s w, .word, .write)]
  | .ldrSp _ w => [(addrSp s w, .word, .read)]
  | .push l => wordAccesses .write (s.x spReg - extent (regList l)) (regList l).length
  | .pushLr l => wordAccesses .write (s.x spReg - extent (regList l ++ [lrReg])) ((regList l).length + 1)
  | .pop l => wordAccesses .read (s.x spReg) (regList l).length
  | .popPc l => wordAccesses .read (s.x spReg) ((regList l).length + 1)
  | .stmia rb l => wordAccesses .write (s.x (lo rb)) (regList l).length
  | .ldmia rb l => wordAccesses .read (s.x (lo rb)) (regList l).length
  | _ => []

/-- The instruction writes the PC itself (R28): a branch, BX, SWI, POP with the PC, or format 5 with R15 as destination. A
conditional branch that is not taken does not, but counts here. -/
def writesPc : Instr → Bool
  | .addHdRs hd _ | .addHdHs hd _ | .movHdRs hd _ | .movHdHs hd _ => hi hd = pcReg
  | .bxRs _ | .bxHs _ | .popPc _ | .swi _ | .b _ | .blSecond _ => true
  | .beq _ | .bne _ | .bcs _ | .bcc _ | .bmi _ | .bpl _ | .bvs _ | .bvc _ => true
  | .bhi _ | .bls _ | .bge _ | .blt _ | .bgt _ | .ble _ => true
  | _ => false

/-- The instruction stores to memory (R62, R68). -/
def writesMemory : Instr → Bool
  | .strReg .. | .strbReg .. | .strhReg .. | .strImm .. | .strbImm .. | .strhImm .. | .strSp .. => true
  | .push _ | .pushLr _ | .stmia .. => true
  | _ => false

/-- The instruction loads from memory (R62, R68). -/
def readsMemory : Instr → Bool
  | .ldrPc .. | .ldrReg .. | .ldrbReg .. | .ldsbReg .. | .ldrhReg .. | .ldshReg .. => true
  | .ldrImm .. | .ldrbImm .. | .ldrhImm .. | .ldrSp .. | .pop _ | .popPc _ | .ldmia .. => true
  | _ => false

/-- The instruction writes flags (R32): formats 1 to 4 and the CMP of format 5. -/
def writesFlags : Instr → Bool
  | .lslImm .. | .lsrImm .. | .asrImm .. | .addReg .. | .subReg .. | .addImm3 .. | .subImm3 .. => true
  | .movImm8 .. | .cmpImm8 .. | .addImm8 .. | .subImm8 .. => true
  | .andReg .. | .eorReg .. | .lslReg .. | .lsrReg .. | .asrReg .. | .adcReg .. | .sbcReg .. | .rorReg .. => true
  | .tstReg .. | .negReg .. | .cmpReg .. | .cmnReg .. | .orrReg .. | .mulReg .. | .bicReg .. | .mvnReg .. => true
  | .cmpRdHs .. | .cmpHdRs .. | .cmpHdHs .. => true
  | _ => false

/-- The instruction may write a register numbered 8 to 12: format 5 ADD and MOV with a Hi destination (R21). -/
def writesHiRegister : Instr → Bool
  | .addHdRs .. | .addHdHs .. | .movHdRs .. | .movHdHs .. => true
  | _ => false

/-- The halfword is one of those that give no instruction, at the masks of R124, R125 and R134. -/
def noInstruction (h : Half) : Bool :=
  inRow 0xFFC0#16 0x4400#16 h || inRow 0xFFC0#16 0x4500#16 h || inRow 0xFFC0#16 0x4600#16 h ||
    inRow 0xFF80#16 0x4780#16 h || (inRow 0xFF80#16 0x4700#16 h && h &&& 0x0007#16 != 0#16) ||
    inRow 0xFF00#16 0xDE00#16 h || inRow 0xF800#16 0xE800#16 h ||
    [0xB100#16, 0xB200#16, 0xB300#16, 0xB600#16, 0xB700#16, 0xB800#16, 0xB900#16, 0xBA00#16, 0xBB00#16, 0xBE00#16,
      0xBF00#16].contains (h &&& 0xFF00#16)

end Sys2Proof.Machine
end

