-- ==== Sys2Proof/Certificates/Slice0/Obligations.lean ====
section
/-! DEFINITION. The statements for the provers. Each says in its docstring which rule of spec/ it formalises; where a clause
rests on a choice, the log entry. The vocabulary is that of Safety.lean. -/

open Sys2Proof Sys2Proof.Machine

/-! Encoding -/

/-- Every well-formed instruction, written as bytes in either byte order, decodes to itself and leaves the rest (R120, R127). -/
def Obligations.DecodeInvertsEncode : Prop :=
  ∀ (i : Instr) (be : Bool) (rest : List Byte), i.wellFormed = true → decode be (encodeBytes be i ++ rest) = .ok (i, rest)

/-- Every halfword decodes to a well-formed instruction that is written as that halfword: no bit of it is dropped (R120, R128). -/
def Obligations.EncodeInvertsDecode : Prop :=
  ∀ h : Half, (decodeHalf h).wellFormed = true ∧ encode (decodeHalf h) = h

/-- Every halfword lies in the row of the instruction it decodes to, and in the row of no other (R127, R128). -/
def Obligations.RowsPartitionHalfwords : Prop :=
  ∀ h : Half, h &&& (decodeHalf h).row.mask = (decodeHalf h).row.pat ∧
    ∀ i : Instr, h &&& i.row.mask = i.row.pat → i.row = (decodeHalf h).row

/-- A few words decode to the instructions the source prints for them: `B here` at 0xE7FE (the one encoding it gives),
`LDR R3,[PC,#844]`, `PUSH` of R0 to R4 and LR, `SWI 18`. -/
def Obligations.WordsOfTheSourceDecode : Prop :=
  decodeHalf 0xE7FE#16 = .b 0x7FE#11 ∧ decodeHalf 0x4BD3#16 = .ldrPc 3#3 211#8 ∧
    decodeHalf 0xB51F#16 = .pushLr 0x1F#8 ∧ decodeHalf 0xDF12#16 = .swi 18#8

/-! The step -/

/-- A step in THUMB state runs the decoded instruction: of the two bytes at the PC when they are ordinary memory, of the
oracle's answer when they are a device's, and then one draw is counted (R63, R67, R120; log 6). -/
def Obligations.StepRunsDecodedInstruction : Prop :=
  ∀ (s : State) (i : Instr), s.cpsr.t = true → s.pc.toNat % 2 = 0 →
    (s.ordinary s.pc .half .fetch = true →
      decode s.bigEndian [s.byteAt s.pc, s.byteAt (s.pc + 1#32)] = .ok (i, []) → step s = exec i s) ∧
    (s.admitted s.pc .half .fetch = true → s.ordinary s.pc .half .fetch = false →
      decodeHalf ((Config.deviceRead s.draws s.pc 2).extractLsb' 0 16) = i → step s = exec i s.drawn)

/-- Where a step stops before decode: a fetch at an odd address, a fetch the platform does not admit, and ARM state (R6,
R67, D2, D5, D26; logs 5, 8, 10). -/
def Obligations.StepStopsBeforeDecode : Prop :=
  ∀ s : State, (s.cpsr.t = false → step s = .refused .armState) ∧
    (s.cpsr.t = true → s.pc.toNat % 2 = 1 → step s = .fault (.misaligned s.pc .half)) ∧
    (s.cpsr.t = true → s.pc.toNat % 2 = 0 → s.admitted s.pc .half .fetch = false →
      step s = .fault (.memFault s.pc .half .fetch))

/-- An instruction placed where the step fetches is the one the next step runs, in either byte order; the placing changes
memory only (R63, R67; log 3). -/
def Obligations.PlacedWordRuns : Prop :=
  ∀ (s : State) (w : Nat), s.cpsr.t = true → s.pc.toNat % 2 = 0 → s.ordinary s.pc .half .fetch = true →
    Memory.wf s.mem = true →
    step (s.withFetchWord 16 w) = exec (decodeHalf (BitVec.ofNat 16 w)) (s.withFetchWord 16 w) ∧
      s.withFetchWord 16 w = s.withMem (s.withFetchWord 16 w).mem ∧ KeepsMemoryBut s (s.withFetchWord 16 w) s.pc 2

/-- A value reads back as stored, at each width and in either byte order; every other byte is kept and memory stays
canonical (R64, R65, R75). A narrower read of a stored word sees what the byte order says (R63, D1; log 4). -/
def Obligations.ReadAfterWrite : Prop :=
  ∀ (s : State) (a : Word) (n : Size) (v : Word), Memory.wf s.mem = true →
    ((s.setValue a n v).valueAt a n).toNat = v.toNat % 2 ^ (8 * n.bytes) ∧
      KeepsMemoryBut s (s.setValue a n v) a n.bytes ∧ Memory.wf (s.setValue a n v).mem = true ∧
      ((s.setValue a .word v).valueAt a .byte).toNat =
        (if s.bigEndian then v.toNat / 2 ^ 24 else v.toNat % 2 ^ 8) ∧
      ((s.setValue a .word v).valueAt (a + 2#32) .half).toNat =
        (if s.bigEndian then v.toNat % 2 ^ 16 else v.toNat / 2 ^ 16)

/-! Format 1 to 4 -/

/-- Shifts by an immediate (R140 to R143; field 0, C and V by D10, D11, logs 14 and 15): the result as a multiplication or
a floor division by a power of two, C the last bit shifted out, kept by LSL #0; V kept. -/
def Obligations.ShiftByImmediate : Prop :=
  ∀ (s : State) (rd rs : LoReg) (f : BitVec 5), s.pc ≠ lastHalf →
    let v := s.x (lo rs)
    let n := if f = 0#5 then 32 else f.toNat
    Completes (.lslImm rd rs f) s (fun t =>
      (t.x (lo rd)).toNat = v.toNat * 2 ^ f.toNat % 2 ^ 32 ∧ FlagsNZ (t.x (lo rd)) t.cpsr ∧
        t.cpsr.c = (if f = 0#5 then s.cpsr.c else v.getLsbD (32 - f.toNat)) ∧ t.cpsr.v = s.cpsr.v ∧
        Advances s t [lo rd]) ∧
    Completes (.lsrImm rd rs f) s (fun t =>
      (t.x (lo rd)).toNat = v.toNat / 2 ^ n ∧ FlagsNZ (t.x (lo rd)) t.cpsr ∧ t.cpsr.c = v.getLsbD (n - 1) ∧
        t.cpsr.v = s.cpsr.v ∧ Advances s t [lo rd]) ∧
    Completes (.asrImm rd rs f) s (fun t =>
      (t.x (lo rd)).toInt = v.toInt / 2 ^ n ∧ FlagsNZ (t.x (lo rd)) t.cpsr ∧ t.cpsr.c = v.getLsbD (n - 1) ∧
        t.cpsr.v = s.cpsr.v ∧ Advances s t [lo rd])

/-- ADD and SUB of a register, a 3-bit and an 8-bit immediate (R150 to R153, R162, R163): the sum or difference and all
four flags, whose formulas are PRESUMED (D11, log 15). -/
def Obligations.AddAndSubtract : Prop :=
  ∀ (s : State) (rd rs rn : LoReg) (o3 : BitVec 3) (o8 : BitVec 8), s.pc ≠ lastHalf →
    Completes (.addReg rd rs rn) s (fun t =>
      IsSum (s.x (lo rs)) (s.x (lo rn)) false (t.x (lo rd)) t.cpsr ∧ Advances s t [lo rd]) ∧
    Completes (.subReg rd rs rn) s (fun t =>
      IsDifference (s.x (lo rs)) (s.x (lo rn)) false (t.x (lo rd)) t.cpsr ∧ Advances s t [lo rd]) ∧
    Completes (.addImm3 rd rs o3) s (fun t =>
      IsSum (s.x (lo rs)) (BitVec.ofNat 32 o3.toNat) false (t.x (lo rd)) t.cpsr ∧ Advances s t [lo rd]) ∧
    Completes (.subImm3 rd rs o3) s (fun t =>
      IsDifference (s.x (lo rs)) (BitVec.ofNat 32 o3.toNat) false (t.x (lo rd)) t.cpsr ∧ Advances s t [lo rd]) ∧
    Completes (.addImm8 rd o8) s (fun t =>
      IsSum (s.x (lo rd)) (BitVec.ofNat 32 o8.toNat) false (t.x (lo rd)) t.cpsr ∧ Advances s t [lo rd]) ∧
    Completes (.subImm8 rd o8) s (fun t =>
      IsDifference (s.x (lo rd)) (BitVec.ofNat 32 o8.toNat) false (t.x (lo rd)) t.cpsr ∧ Advances s t [lo rd])

/-- CMP with an immediate, CMP and CMN of registers (R161, R180, R181): the flags of the difference or the sum, whose
formulas are PRESUMED (D11, log 15), and no register. -/
def Obligations.Compare : Prop :=
  ∀ (s : State) (rd rs : LoReg) (o8 : BitVec 8), s.pc ≠ lastHalf →
    Completes (.cmpImm8 rd o8) s (fun t =>
      (∃ r, IsDifference (s.x (lo rd)) (BitVec.ofNat 32 o8.toNat) false r t.cpsr) ∧ Advances s t []) ∧
    Completes (.cmpReg rd rs) s (fun t =>
      (∃ r, IsDifference (s.x (lo rd)) (s.x (lo rs)) false r t.cpsr) ∧ Advances s t []) ∧
    Completes (.cmnReg rd rs) s (fun t =>
      (∃ r, IsSum (s.x (lo rd)) (s.x (lo rs)) false r t.cpsr) ∧ Advances s t [])

/-- AND, EOR, ORR, BIC, MVN and MOV of an immediate (R160, R170, R171, R182, R184, R185): the result bit by bit; TST (R178): N
and Z of the conjunction, and no register; C and V kept (D11, log 15). -/
def Obligations.LogicalOperations : Prop :=
  ∀ (s : State) (rd rs : LoReg) (o8 : BitVec 8), s.pc ≠ lastHalf →
    let a := s.x (lo rd)
    let b := s.x (lo rs)
    Completes (.andReg rd rs) s (fun t => SetsLogical s t rd (fun k => a.getLsbD k && b.getLsbD k)) ∧
    Completes (.eorReg rd rs) s (fun t => SetsLogical s t rd (fun k => a.getLsbD k != b.getLsbD k)) ∧
    Completes (.orrReg rd rs) s (fun t => SetsLogical s t rd (fun k => a.getLsbD k || b.getLsbD k)) ∧
    Completes (.bicReg rd rs) s (fun t => SetsLogical s t rd (fun k => a.getLsbD k && !b.getLsbD k)) ∧
    Completes (.mvnReg rd rs) s (fun t => SetsLogical s t rd (fun k => !b.getLsbD k)) ∧
    Completes (.movImm8 rd o8) s (fun t => SetsLogical s t rd (fun k => o8.getLsbD k)) ∧
    Completes (.tstReg rd rs) s (fun t =>
      (∃ r, BitsAre r (fun k => a.getLsbD k && b.getLsbD k) ∧ FlagsNZ r t.cpsr) ∧ t.cpsr.c = s.cpsr.c ∧
        t.cpsr.v = s.cpsr.v ∧ Advances s t [])

/-- Shifts by a register (R172 to R174, R177, R190; amounts of 0, of 32 and more, C and V by D10, D11, logs 14 and 15): the
amount is Rs modulo 256; amount 0 keeps the value and C; C is the last bit shifted out; V kept. -/
def Obligations.ShiftByRegister : Prop :=
  ∀ (s : State) (rd rs : LoReg), s.pc ≠ lastHalf →
    let v := s.x (lo rd)
    let n := (s.x (lo rs)).toNat % 256
    Completes (.lslReg rd rs) s (fun t =>
      (t.x (lo rd)).toNat = v.toNat * 2 ^ n % 2 ^ 32 ∧
        (t.cpsr.c = true ↔ if n = 0 then s.cpsr.c = true else v.toNat * 2 ^ n / 2 ^ 32 % 2 = 1) ∧
        FlagsNZ (t.x (lo rd)) t.cpsr ∧ t.cpsr.v = s.cpsr.v ∧ Advances s t [lo rd]) ∧
    Completes (.lsrReg rd rs) s (fun t =>
      (t.x (lo rd)).toNat = v.toNat / 2 ^ n ∧
        (t.cpsr.c = true ↔ if n = 0 then s.cpsr.c = true else v.toNat / 2 ^ (n - 1) % 2 = 1) ∧
        FlagsNZ (t.x (lo rd)) t.cpsr ∧ t.cpsr.v = s.cpsr.v ∧ Advances s t [lo rd]) ∧
    Completes (.asrReg rd rs) s (fun t =>
      (t.x (lo rd)).toInt = v.toInt / 2 ^ n ∧
        (t.cpsr.c = true ↔ if n = 0 then s.cpsr.c = true else v.toInt / 2 ^ (n - 1) % 2 = 1) ∧
        FlagsNZ (t.x (lo rd)) t.cpsr ∧ t.cpsr.v = s.cpsr.v ∧ Advances s t [lo rd]) ∧
    Completes (.rorReg rd rs) s (fun t =>
      BitsAre (t.x (lo rd)) (fun k => v.getLsbD ((k + n) % 32)) ∧
        t.cpsr.c = (if n = 0 then s.cpsr.c else (t.x (lo rd)).getLsbD 31) ∧
        FlagsNZ (t.x (lo rd)) t.cpsr ∧ t.cpsr.v = s.cpsr.v ∧ Advances s t [lo rd])

/-- ADC, SBC and NEG (R175, R176, R179): SBC subtracts one more when C is clear; NEG subtracts from zero; the formulas of the
four flags are PRESUMED (D11, log 15). -/
def Obligations.AddSubtractWithCarryAndNegate : Prop :=
  ∀ (s : State) (rd rs : LoReg), s.pc ≠ lastHalf →
    Completes (.adcReg rd rs) s (fun t =>
      IsSum (s.x (lo rd)) (s.x (lo rs)) s.cpsr.c (t.x (lo rd)) t.cpsr ∧ Advances s t [lo rd]) ∧
    Completes (.sbcReg rd rs) s (fun t =>
      IsDifference (s.x (lo rd)) (s.x (lo rs)) (!s.cpsr.c) (t.x (lo rd)) t.cpsr ∧ Advances s t [lo rd]) ∧
    Completes (.negReg rd rs) s (fun t =>
      IsDifference 0#32 (s.x (lo rs)) false (t.x (lo rd)) t.cpsr ∧ Advances s t [lo rd])

/-- MUL (R183): the low word of the product, N and Z from it, V kept; C is free, and one draw is counted (D12, D23, log 16). -/
def Obligations.Multiply : Prop :=
  ∀ (s : State) (rd rs : LoReg), s.pc ≠ lastHalf →
    Completes (.mulReg rd rs) s (fun t =>
      (t.x (lo rd)).toNat = (s.x (lo rs)).toNat * (s.x (lo rd)).toNat % 2 ^ 32 ∧ FlagsNZ (t.x (lo rd)) t.cpsr ∧
        t.cpsr.v = s.cpsr.v ∧ t.pc = s.pc + 2#32 ∧ t.draws = s.draws + 1 ∧ LeavesBut s t [lo rd])

/-- An ADD and an ADC of the next halfwords add two 64-bit numbers held in register pairs, the carry passing through C (R150,
R175). -/
def Obligations.CarryChainAddsDoubleWords : Prop :=
  ∀ (s t u : State) (l h m k : LoReg), h ≠ l → k ≠ l → exec (.addReg l l m) s = .next t →
    exec (.adcReg h k) t = .next u →
    (u.x (lo h)).toNat * 2 ^ 32 + (u.x (lo l)).toNat =
      ((s.x (lo h)).toNat * 2 ^ 32 + (s.x (lo l)).toNat + ((s.x (lo k)).toNat * 2 ^ 32 + (s.x (lo m)).toNat)) % 2 ^ 64

/-! Format 5 -/

/-- ADD and MOV into a Lo register from a Hi register (R201, R207): the sum or the value, R15 reading as the address of the
instruction plus 4 (R27, R200); no flag. -/
def Obligations.HiSourceToLo : Prop :=
  ∀ (s : State) (rd : LoReg) (hs : HiReg), s.pc ≠ lastHalf →
    (hi hs = pcReg → s.pc.toNat % 2 = 0 → s.x (hi hs) = s.pc + 4#32) ∧
    Completes (.addRdHs rd hs) s (fun t =>
      (t.x (lo rd)).toNat = ((s.x (lo rd)).toNat + (s.x (hi hs)).toNat) % 2 ^ 32 ∧ t.cpsr = s.cpsr ∧
        Advances s t [lo rd]) ∧
    Completes (.movRdHs rd hs) s (fun t => t.x (lo rd) = s.x (hi hs) ∧ t.cpsr = s.cpsr ∧ Advances s t [lo rd])

/-- ADD and MOV into a Hi register other than R15 (R202, R203, R208, R209): the sum or the value; no flag. -/
def Obligations.HiDestination : Prop :=
  ∀ (s : State) (hd hs : HiReg) (rs : LoReg), s.pc ≠ lastHalf → hi hd ≠ pcReg →
    Completes (.addHdRs hd rs) s (fun t =>
      (t.x (hi hd)).toNat = ((s.x (hi hd)).toNat + (s.x (lo rs)).toNat) % 2 ^ 32 ∧ t.cpsr = s.cpsr ∧
        Advances s t [hi hd]) ∧
    Completes (.addHdHs hd hs) s (fun t =>
      (t.x (hi hd)).toNat = ((s.x (hi hd)).toNat + (s.x (hi hs)).toNat) % 2 ^ 32 ∧ t.cpsr = s.cpsr ∧
        Advances s t [hi hd]) ∧
    Completes (.movHdRs hd rs) s (fun t => t.x (hi hd) = s.x (lo rs) ∧ t.cpsr = s.cpsr ∧ Advances s t [hi hd]) ∧
    Completes (.movHdHs hd hs) s (fun t => t.x (hi hd) = s.x (hi hs) ∧ t.cpsr = s.cpsr ∧ Advances s t [hi hd])

/-- ADD and MOV into R15 (R199, R202, R203, R208, R209): a jump to the even address at or below the value, in THUMB state as
before; nothing but the PC is written (D15, log 17). -/
def Obligations.PcDestination : Prop :=
  ∀ (s : State) (hd hs : HiReg) (rs : LoReg), hi hd = pcReg → s.pc.toNat % 2 = 0 →
    let even (v : Word) : Word := BitVec.ofNat 32 (v.toNat / 2 * 2)
    exec (.addHdRs hd rs) s = .next (s.withPc (even (s.pc + 4#32 + s.x (lo rs)))) ∧
    exec (.addHdHs hd hs) s = .next (s.withPc (even (s.pc + 4#32 + s.x (hi hs)))) ∧
    exec (.movHdRs hd rs) s = .next (s.withPc (even (s.x (lo rs)))) ∧
    exec (.movHdHs hd hs) s = .next (s.withPc (even (s.x (hi hs))))

/-- CMP with a Hi register on either side (R204, R205, R206): the four flags of the difference, whose formulas are PRESUMED
(D11, log 15), and no register. -/
def Obligations.HiCompare : Prop :=
  ∀ (s : State) (rd rs : LoReg) (hd hs : HiReg), s.pc ≠ lastHalf →
    Completes (.cmpRdHs rd hs) s (fun t =>
      (∃ r, IsDifference (s.x (lo rd)) (s.x (hi hs)) false r t.cpsr) ∧ Advances s t []) ∧
    Completes (.cmpHdRs hd rs) s (fun t =>
      (∃ r, IsDifference (s.x (hi hd)) (s.x (lo rs)) false r t.cpsr) ∧ Advances s t []) ∧
    Completes (.cmpHdHs hd hs) s (fun t =>
      (∃ r, IsDifference (s.x (hi hd)) (s.x (hi hs)) false r t.cpsr) ∧ Advances s t [])

/-- BX (R213, R214): to THUMB state at the address less 1 when bit 0 of the register is set, to ARM state at the address when
it is a multiple of 4; nothing but the PC and T is written. For BX PC from a word-aligned address that is ARM state at the
address of the instruction plus 4 (R216). To an address that is 2 modulo 4, and BX PC from such an address, it is
unpredictable (R214, R216; D9, D16, log 13). -/
def Obligations.BranchExchange : Prop :=
  ∀ (s : State) (rs : LoReg) (hs : HiReg),
    let thumb (v : Word) : State := (s.withCpsr { s.cpsr with t := true }).withPc (v - 1#32)
    let arm (v : Word) : State := (s.withCpsr { s.cpsr with t := false }).withPc v
    ((s.x (lo rs)).toNat % 2 = 1 → exec (.bxRs rs) s = .next (thumb (s.x (lo rs)))) ∧
    ((s.x (hi hs)).toNat % 2 = 1 → exec (.bxHs hs) s = .next (thumb (s.x (hi hs)))) ∧
    ((s.x (lo rs)).toNat % 4 = 0 → exec (.bxRs rs) s = .next (arm (s.x (lo rs)))) ∧
    ((s.x (hi hs)).toNat % 4 = 0 → exec (.bxHs hs) s = .next (arm (s.x (hi hs)))) ∧
    (s.pc.toNat % 4 = 0 → hi hs = pcReg → exec (.bxHs hs) s = .next (arm (s.pc + 4#32))) ∧
    ((s.x (lo rs)).toNat % 4 = 2 → exec (.bxRs rs) s = .fault (.unpredictable .bxTargetNotWordAligned)) ∧
    (hi hs ≠ pcReg → (s.x (hi hs)).toNat % 4 = 2 →
      exec (.bxHs hs) s = .fault (.unpredictable .bxTargetNotWordAligned)) ∧
    (hi hs = pcReg → 2 ≤ s.pc.toNat % 4 → exec (.bxHs hs) s = .fault (.unpredictable .bxPcNotWordAligned))

/-! Formats 6 to 11 -/

/-- Word loads (R220, R227, R236, R251): the word at the address the rule gives; the PC-relative base has bits 1 and 0
cleared. -/
def Obligations.LoadWord : Prop :=
  ∀ (s : State) (rd rb ro : LoReg) (o : BitVec 5) (w : BitVec 8),
    let wordOf (a : Word) : Word → Prop := fun v => v = s.valueAt a .word
    let pcBase : Word := BitVec.ofNat 32 ((s.pc + 4#32).toNat / 4 * 4)
    Loads (.ldrPc rd w) s rd (pcBase + BitVec.ofNat 32 (4 * w.toNat)) .word
      (wordOf (pcBase + BitVec.ofNat 32 (4 * w.toNat))) ∧
    Loads (.ldrReg rd rb ro) s rd (s.x (lo rb) + s.x (lo ro)) .word (wordOf (s.x (lo rb) + s.x (lo ro))) ∧
    Loads (.ldrImm rd rb o) s rd (s.x (lo rb) + BitVec.ofNat 32 (4 * o.toNat)) .word
      (wordOf (s.x (lo rb) + BitVec.ofNat 32 (4 * o.toNat))) ∧
    Loads (.ldrSp rd w) s rd (s.x spReg + BitVec.ofNat 32 (4 * w.toNat)) .word
      (wordOf (s.x spReg + BitVec.ofNat 32 (4 * w.toNat)))

/-- Byte and halfword loads that extend with zeros (R228, R231, R238, R246). -/
def Obligations.LoadZeroExtended : Prop :=
  ∀ (s : State) (rd rb ro : LoReg) (o : BitVec 5),
    let byteOf (a : Word) : Word → Prop := fun v => v.toNat = (s.byteAt a).toNat
    let halfOf (a : Word) : Word → Prop := fun v => v = s.valueAt a .half ∧ v.toNat < 65536
    Loads (.ldrbReg rd rb ro) s rd (s.x (lo rb) + s.x (lo ro)) .byte (byteOf (s.x (lo rb) + s.x (lo ro))) ∧
    Loads (.ldrhReg rd rb ro) s rd (s.x (lo rb) + s.x (lo ro)) .half (halfOf (s.x (lo rb) + s.x (lo ro))) ∧
    Loads (.ldrbImm rd rb o) s rd (s.x (lo rb) + BitVec.ofNat 32 o.toNat) .byte
      (byteOf (s.x (lo rb) + BitVec.ofNat 32 o.toNat)) ∧
    Loads (.ldrhImm rd rb o) s rd (s.x (lo rb) + BitVec.ofNat 32 (2 * o.toNat)) .half
      (halfOf (s.x (lo rb) + BitVec.ofNat 32 (2 * o.toNat)))

/-- Byte and halfword loads that extend with the sign (R232, R233). -/
def Obligations.LoadSignExtended : Prop :=
  ∀ (s : State) (rd rb ro : LoReg),
    let a := s.x (lo rb) + s.x (lo ro)
    Loads (.ldsbReg rd rb ro) s rd a .byte (fun v => v.toInt = (s.byteAt a).toInt) ∧
    Loads (.ldshReg rd rb ro) s rd a .half (fun v => v.toInt = ((s.valueAt a .half).setWidth 16 : Half).toInt)

/-- Loads from a device region complete whatever the platform's oracle answers: the register is that answer, or its low
bits extended as for memory, and nothing else changes but the count of draws (R64, R69, R72, D3, log 6). -/
def Obligations.LoadFromDevice : Prop :=
  ∀ (s : State) (rd rb ro : LoReg) (o : BitVec 5) (w : BitVec 8),
    let whole (d v : Word) : Prop := v = d
    let byte (d v : Word) : Prop := v.toNat = d.toNat % 2 ^ 8
    let half (d v : Word) : Prop := v.toNat = d.toNat % 2 ^ 16
    let signedByte (d v : Word) : Prop := v.toInt = (d.setWidth 8 : BitVec 8).toInt
    let signedHalf (d v : Word) : Prop := v.toInt = (d.setWidth 16 : BitVec 16).toInt
    LoadsFromDevice (.ldrPc rd w) s rd (addrPc s w) .word whole ∧
    LoadsFromDevice (.ldrReg rd rb ro) s rd (addrRegister s rb ro) .word whole ∧
    LoadsFromDevice (.ldrImm rd rb o) s rd (addrImmediate s rb (immWord5 o)) .word whole ∧
    LoadsFromDevice (.ldrSp rd w) s rd (addrSp s w) .word whole ∧
    LoadsFromDevice (.ldrbReg rd rb ro) s rd (addrRegister s rb ro) .byte byte ∧
    LoadsFromDevice (.ldrhReg rd rb ro) s rd (addrRegister s rb ro) .half half ∧
    LoadsFromDevice (.ldrbImm rd rb o) s rd (addrImmediate s rb (immByte5 o)) .byte byte ∧
    LoadsFromDevice (.ldrhImm rd rb o) s rd (addrImmediate s rb (immHalf5 o)) .half half ∧
    LoadsFromDevice (.ldsbReg rd rb ro) s rd (addrRegister s rb ro) .byte signedByte ∧
    LoadsFromDevice (.ldshReg rd rb ro) s rd (addrRegister s rb ro) .half signedHalf

/-- Word stores (R225, R235, R250): the word at the address is the register, the four bytes are all that changes. -/
def Obligations.StoreWord : Prop :=
  ∀ (s : State) (rd rb ro : LoReg) (o : BitVec 5) (w : BitVec 8),
    Stores (.strReg rd rb ro) s (addrRegister s rb ro) .word (s.x (lo rd)) ∧
    Stores (.strImm rd rb o) s (addrImmediate s rb (immWord5 o)) .word (s.x (lo rd)) ∧
    Stores (.strSp rd w) s (addrSp s w) .word (s.x (lo rd)) ∧
    addrRegister s rb ro = s.x (lo rb) + s.x (lo ro) ∧
    addrImmediate s rb (immWord5 o) = s.x (lo rb) + BitVec.ofNat 32 (4 * o.toNat) ∧
    addrSp s w = s.x spReg + BitVec.ofNat 32 (4 * w.toNat)

/-- Byte and halfword stores (R226, R230, R237, R245): the low bits of the register, and no neighbouring byte. -/
def Obligations.StoreNarrow : Prop :=
  ∀ (s : State) (rd rb ro : LoReg) (o : BitVec 5),
    Stores (.strbReg rd rb ro) s (addrRegister s rb ro) .byte (s.x (lo rd)) ∧
    Stores (.strhReg rd rb ro) s (addrRegister s rb ro) .half (s.x (lo rd)) ∧
    Stores (.strbImm rd rb o) s (addrImmediate s rb (immByte5 o)) .byte (s.x (lo rd)) ∧
    Stores (.strhImm rd rb o) s (addrImmediate s rb (immHalf5 o)) .half (s.x (lo rd)) ∧
    addrRegister s rb ro = s.x (lo rb) + s.x (lo ro) ∧
    addrImmediate s rb (immByte5 o) = s.x (lo rb) + BitVec.ofNat 32 o.toNat ∧
    addrImmediate s rb (immHalf5 o) = s.x (lo rb) + BitVec.ofNat 32 (2 * o.toNat)

/-- Every halfword and word access of a single load or store at a misaligned address stops with `Misaligned`; the
PC-relative load is aligned always (R66, R220, R222; D2, log 8). -/
def Obligations.MisalignedAccessStops : Prop :=
  ∀ (s : State) (rd rb ro : LoReg) (o : BitVec 5) (w : BitVec 8),
    StopsMisaligned (.strReg rd rb ro) s (addrRegister s rb ro) .word ∧
    StopsMisaligned (.ldrReg rd rb ro) s (addrRegister s rb ro) .word ∧
    StopsMisaligned (.strhReg rd rb ro) s (addrRegister s rb ro) .half ∧
    StopsMisaligned (.ldrhReg rd rb ro) s (addrRegister s rb ro) .half ∧
    StopsMisaligned (.ldshReg rd rb ro) s (addrRegister s rb ro) .half ∧
    StopsMisaligned (.strImm rd rb o) s (addrImmediate s rb (immWord5 o)) .word ∧
    StopsMisaligned (.ldrImm rd rb o) s (addrImmediate s rb (immWord5 o)) .word ∧
    StopsMisaligned (.strhImm rd rb o) s (addrImmediate s rb (immHalf5 o)) .half ∧
    StopsMisaligned (.ldrhImm rd rb o) s (addrImmediate s rb (immHalf5 o)) .half ∧
    StopsMisaligned (.strSp rd w) s (addrSp s w) .word ∧
    StopsMisaligned (.ldrSp rd w) s (addrSp s w) .word ∧
    (addrPc s w).toNat % 4 = 0

/-- Every single load or store whose aligned access the platform does not admit stops with `MemFault`, and so does a
multiple transfer, with a valid list and an aligned start, at the first of its words that the platform does not admit
(R64, R65, R70, step 4 of R327; D3, log 5; the order of the words: log 18). -/
def Obligations.UnadmittedAccessStops : Prop :=
  ∀ (s : State) (rd rb ro : LoReg) (o : BitVec 5) (w l : BitVec 8),
    let regs := regList l
    let sp := s.x spReg
    StopsNotAdmitted (.ldrPc rd w) s (addrPc s w) .word .read ∧
    StopsNotAdmitted (.strReg rd rb ro) s (addrRegister s rb ro) .word .write ∧
    StopsNotAdmitted (.strbReg rd rb ro) s (addrRegister s rb ro) .byte .write ∧
    StopsNotAdmitted (.ldrReg rd rb ro) s (addrRegister s rb ro) .word .read ∧
    StopsNotAdmitted (.ldrbReg rd rb ro) s (addrRegister s rb ro) .byte .read ∧
    StopsNotAdmitted (.strhReg rd rb ro) s (addrRegister s rb ro) .half .write ∧
    StopsNotAdmitted (.ldsbReg rd rb ro) s (addrRegister s rb ro) .byte .read ∧
    StopsNotAdmitted (.ldrhReg rd rb ro) s (addrRegister s rb ro) .half .read ∧
    StopsNotAdmitted (.ldshReg rd rb ro) s (addrRegister s rb ro) .half .read ∧
    StopsNotAdmitted (.strImm rd rb o) s (addrImmediate s rb (immWord5 o)) .word .write ∧
    StopsNotAdmitted (.ldrImm rd rb o) s (addrImmediate s rb (immWord5 o)) .word .read ∧
    StopsNotAdmitted (.strbImm rd rb o) s (addrImmediate s rb (immByte5 o)) .byte .write ∧
    StopsNotAdmitted (.ldrbImm rd rb o) s (addrImmediate s rb (immByte5 o)) .byte .read ∧
    StopsNotAdmitted (.strhImm rd rb o) s (addrImmediate s rb (immHalf5 o)) .half .write ∧
    StopsNotAdmitted (.ldrhImm rd rb o) s (addrImmediate s rb (immHalf5 o)) .half .read ∧
    StopsNotAdmitted (.strSp rd w) s (addrSp s w) .word .write ∧
    StopsNotAdmitted (.ldrSp rd w) s (addrSp s w) .word .read ∧
    (l ≠ 0#8 → StopsAtUnadmittedWord (.push l) s (sp - BitVec.ofNat 32 (4 * regs.length)) regs.length .write ∧
      StopsAtUnadmittedWord (.pop l) s sp regs.length .read) ∧
    StopsAtUnadmittedWord (.pushLr l) s (sp - BitVec.ofNat 32 (4 * (regs.length + 1))) (regs.length + 1) .write ∧
    StopsAtUnadmittedWord (.popPc l) s sp (regs.length + 1) .read ∧
    (l ≠ 0#8 → l.getLsbD rb.toNat = false →
      StopsAtUnadmittedWord (.stmia rb l) s (s.x (lo rb)) regs.length .write ∧
      StopsAtUnadmittedWord (.ldmia rb l) s (s.x (lo rb)) regs.length .read)

/-! Formats 12 to 15 -/

/-- ADD Rd, PC, #Imm and ADD Rd, SP, #Imm (R260, R261): no flag, no memory. -/
def Obligations.LoadAddress : Prop :=
  ∀ (s : State) (rd : LoReg) (w : BitVec 8), s.pc ≠ lastHalf →
    Completes (.addRdPc rd w) s (fun t =>
      (t.x (lo rd)).toNat = ((s.pc + 4#32).toNat / 4 * 4 + 4 * w.toNat) % 2 ^ 32 ∧ t.cpsr = s.cpsr ∧
        Advances s t [lo rd]) ∧
    Completes (.addRdSp rd w) s (fun t =>
      (t.x (lo rd)).toNat = ((s.x spReg).toNat + 4 * w.toNat) % 2 ^ 32 ∧ t.cpsr = s.cpsr ∧ Advances s t [lo rd])

/-- ADD SP, #Imm and ADD SP, #-Imm (R265, R266): the offset is a sign and a magnitude in words; no flag. -/
def Obligations.AddToStackPointer : Prop :=
  ∀ (s : State) (m : BitVec 7), s.pc ≠ lastHalf →
    Completes (.addSpImm m) s (fun t =>
      ((t.x spReg).toNat : Int) = ((s.x spReg).toNat + 4 * (m.toNat : Int)) % 2 ^ 32 ∧ t.cpsr = s.cpsr ∧
        Advances s t [spReg]) ∧
    Completes (.addSpNegImm m) s (fun t =>
      ((t.x spReg).toNat : Int) = ((s.x spReg).toNat - 4 * (m.toNat : Int)) % 2 ^ 32 ∧ t.cpsr = s.cpsr ∧
        Advances s t [spReg])

/-- A register list names Lo registers by its bits, in ascending order (R123, R268; D27, log 18). -/
def Obligations.RegisterListAscends : Prop :=
  ∀ l : BitVec 8, (regList l).Pairwise (fun a b => a.toNat < b.toNat) ∧
    ∀ r : Reg, r ∈ regList l ↔ r.toNat < 8 ∧ l.getLsbD r.toNat = true

/-- PUSH, without and with LR (R268, R270, R271; D22, log 18): the words are stored below the SP in the order of the list,
LR highest; the SP becomes the lowest address; nothing else changes. -/
def Obligations.PushRegisters : Prop :=
  ∀ (s : State) (l : BitVec 8), s.pc ≠ lastHalf → Memory.wf s.mem = true → (s.x spReg).toNat % 4 = 0 →
    let pushes (i : Instr) (regs : List Reg) : Prop :=
      let start := s.x spReg - BitVec.ofNat 32 (4 * regs.length)
      eachWord (fun a => s.admitted a .word .write) start regs.length = true →
        Completes i s (fun t => HoldsWords t start (regs.map s.x) ∧ t.x spReg = start ∧ t.pc = s.pc + 2#32 ∧
          StoresBut s t [spReg] start (4 * regs.length))
    (l ≠ 0#8 → pushes (.push l) (regList l)) ∧ pushes (.pushLr l) (regList l ++ [lrReg])

/-- POP without the PC (R268, R272; D22, log 18): the registers of the list receive the words from the SP upward, each of
ordinary memory or of a device (R72, log 6); the SP is raised past them; nothing else changes but the count of draws. -/
def Obligations.PopRegisters : Prop :=
  ∀ (s : State) (l : BitVec 8), s.pc ≠ lastHalf → l ≠ 0#8 → (s.x spReg).toNat % 4 = 0 →
    let regs := regList l
    eachWord (fun a => s.admitted a .word .read) (s.x spReg) regs.length = true →
      Completes (.pop l) s (fun t => ReadsWords s s.draws (s.x spReg) (regs.map t.x) t.draws ∧
        t.x spReg = s.x spReg + BitVec.ofNat 32 (4 * regs.length) ∧ t.pc = s.pc + 2#32 ∧ t.cpsr = s.cpsr ∧
        LeavesBut s t (spReg :: regs))

/-- POP with the PC (R268, R273; D15, D22, logs 17 and 18; devices: R72, log 6): as POP, and the next address is the highest
word with bit 0 discarded, in THUMB state as before. -/
def Obligations.PopPc : Prop :=
  ∀ (s : State) (l : BitVec 8), (s.x spReg).toNat % 4 = 0 →
    let regs := regList l
    eachWord (fun a => s.admitted a .word .read) (s.x spReg) (regs.length + 1) = true →
      Completes (.popPc l) s (fun t =>
        (∃ top, ReadsWords s s.draws (s.x spReg) (regs.map t.x ++ [top]) t.draws ∧
          t.pc = BitVec.ofNat 32 (top.toNat / 2 * 2)) ∧
        t.x spReg = s.x spReg + BitVec.ofNat 32 (4 * (regs.length + 1)) ∧ t.cpsr = s.cpsr ∧
        LeavesBut s t (spReg :: regs))

/-- STMIA (R268, R280; D22, log 18): the words are stored from the base upward, the base is raised past them. -/
def Obligations.StoreMultiple : Prop :=
  ∀ (s : State) (rb : LoReg) (l : BitVec 8), s.pc ≠ lastHalf → Memory.wf s.mem = true → l ≠ 0#8 →
    l.getLsbD rb.toNat = false → (s.x (lo rb)).toNat % 4 = 0 →
    let regs := regList l
    eachWord (fun a => s.admitted a .word .write) (s.x (lo rb)) regs.length = true →
      Completes (.stmia rb l) s (fun t => HoldsWords t (s.x (lo rb)) (regs.map s.x) ∧
        t.x (lo rb) = s.x (lo rb) + BitVec.ofNat 32 (4 * regs.length) ∧ t.pc = s.pc + 2#32 ∧
        StoresBut s t [lo rb] (s.x (lo rb)) (4 * regs.length))

/-- LDMIA (R268, R281; D22, log 18): the registers receive the words from the base upward, each of ordinary memory or of a
device (R72, log 6); the base is raised past them; nothing else changes but the count of draws. -/
def Obligations.LoadMultiple : Prop :=
  ∀ (s : State) (rb : LoReg) (l : BitVec 8), s.pc ≠ lastHalf → l ≠ 0#8 → l.getLsbD rb.toNat = false →
    (s.x (lo rb)).toNat % 4 = 0 →
    let regs := regList l
    eachWord (fun a => s.admitted a .word .read) (s.x (lo rb)) regs.length = true →
      Completes (.ldmia rb l) s (fun t => ReadsWords s s.draws (s.x (lo rb)) (regs.map t.x) t.draws ∧
        t.x (lo rb) = s.x (lo rb) + BitVec.ofNat 32 (4 * regs.length) ∧ t.pc = s.pc + 2#32 ∧ t.cpsr = s.cpsr ∧
        LeavesBut s t (lo rb :: regs))

/-- Where the multiple transfers stop (R282, R327; D2, D13, D14, logs 8 and 13): an empty list, the base in the list, and
else a start address that is no multiple of 4. -/
def Obligations.MultipleTransferStops : Prop :=
  ∀ (s : State) (rb : LoReg) (l : BitVec 8),
    exec (.push 0#8) s = .fault (.unpredictable .emptyRegisterList) ∧
    exec (.pop 0#8) s = .fault (.unpredictable .emptyRegisterList) ∧
    exec (.stmia rb 0#8) s = .fault (.unpredictable .emptyRegisterList) ∧
    exec (.ldmia rb 0#8) s = .fault (.unpredictable .emptyRegisterList) ∧
    (l.getLsbD rb.toNat = true → exec (.stmia rb l) s = .fault (.unpredictable .baseRegisterInList) ∧
      exec (.ldmia rb l) s = .fault (.unpredictable .baseRegisterInList)) ∧
    (l ≠ 0#8 → l.getLsbD rb.toNat = false → (s.x (lo rb)).toNat % 4 ≠ 0 →
      exec (.stmia rb l) s = .fault (.misaligned (s.x (lo rb)) .word) ∧
      exec (.ldmia rb l) s = .fault (.misaligned (s.x (lo rb)) .word)) ∧
    ((s.x spReg).toNat % 4 ≠ 0 →
      (l ≠ 0#8 → exec (.push l) s =
        .fault (.misaligned (s.x spReg - BitVec.ofNat 32 (4 * (regList l).length)) .word)) ∧
      exec (.pushLr l) s = .fault (.misaligned (s.x spReg - BitVec.ofNat 32 (4 * ((regList l).length + 1))) .word) ∧
      (l ≠ 0#8 → exec (.pop l) s = .fault (.misaligned (s.x spReg) .word)) ∧
      exec (.popPc l) s = .fault (.misaligned (s.x spReg) .word))

/-- What PUSH of registers and LR stored, POP of the same registers and the PC restores: the registers and the SP are as
before the PUSH, whatever the program left in those registers meanwhile, and control goes to LR (R268, R271, R273; D22). -/
def Obligations.PopUndoesPush : Prop :=
  ∀ (s t u w : State) (l : BitVec 8), Memory.wf s.mem = true → exec (.pushLr l) s = .next t →
    u.mem = t.mem → u.regions = t.regions → u.bigEndian = t.bigEndian → u.cpsr.mode = t.cpsr.mode →
    u.x spReg = t.x spReg →
    eachWord (fun a => u.ordinary a .word .read) (u.x spReg) ((regList l).length + 1) = true →
    exec (.popPc l) u = .next w →
    (∀ r ∈ regList l, w.x r = s.x r) ∧ w.x spReg = s.x spReg ∧
      w.pc = BitVec.ofNat 32 ((s.x lrReg).toNat / 2 * 2)

/-! Formats 16 to 19 -/

/-- The branches on one flag (R291, R306 to R313). -/
def Obligations.BranchesOnOneFlag : Prop :=
  BranchesWhen .beq (fun p => p.z = true) ∧ BranchesWhen .bne (fun p => p.z = false) ∧
  BranchesWhen .bcs (fun p => p.c = true) ∧ BranchesWhen .bcc (fun p => p.c = false) ∧
  BranchesWhen .bmi (fun p => p.n = true) ∧ BranchesWhen .bpl (fun p => p.n = false) ∧
  BranchesWhen .bvs (fun p => p.v = true) ∧ BranchesWhen .bvc (fun p => p.v = false)

/-- The branches on several flags (R291, R314 to R319). -/
def Obligations.BranchesOnSeveralFlags : Prop :=
  BranchesWhen .bhi (fun p => p.c = true ∧ p.z = false) ∧ BranchesWhen .bls (fun p => p.c = false ∨ p.z = true) ∧
  BranchesWhen .bge (fun p => p.n = p.v) ∧ BranchesWhen .blt (fun p => p.n ≠ p.v) ∧
  BranchesWhen .bgt (fun p => p.z = false ∧ p.n = p.v) ∧ BranchesWhen .ble (fun p => p.z = true ∨ p.n ≠ p.v)

/-- After a CMP the conditions are the relations their names say, unsigned and signed (R13, R180, R290). -/
def Obligations.ConditionsAfterCompare : Prop :=
  ∀ (s t : State) (rd rs : LoReg), exec (.cmpReg rd rs) s = .next t →
    let a := s.x (lo rd)
    let b := s.x (lo rs)
    (condHolds .eq t.cpsr = true ↔ a = b) ∧ (condHolds .ne t.cpsr = true ↔ a ≠ b) ∧
    (condHolds .cs t.cpsr = true ↔ b.toNat ≤ a.toNat) ∧ (condHolds .cc t.cpsr = true ↔ a.toNat < b.toNat) ∧
    (condHolds .hi t.cpsr = true ↔ b.toNat < a.toNat) ∧ (condHolds .ls t.cpsr = true ↔ a.toNat ≤ b.toNat) ∧
    (condHolds .ge t.cpsr = true ↔ b.toInt ≤ a.toInt) ∧ (condHolds .lt t.cpsr = true ↔ a.toInt < b.toInt) ∧
    (condHolds .gt t.cpsr = true ↔ b.toInt < a.toInt) ∧ (condHolds .le t.cpsr = true ↔ a.toInt ≤ b.toInt)

/-- B (R301): to `iaddr + 4 + 2 * Offset11`, wrapping; no link, nothing else written; offset -2, the halfword 0xE7FE,
branches to itself, and offset -1 goes to the next halfword. -/
def Obligations.UnconditionalBranch : Prop :=
  ∀ (s : State) (o : BitVec 11),
    exec (.b o) s = .next (s.withPc (s.pc + 4#32 + BitVec.ofInt 32 (2 * o.toInt))) ∧
      exec (.b 0x7FE#11) s = .next s ∧ encode (.b 0x7FE#11) = 0xE7FE#16 ∧
      exec (.b 0x7FF#11) s = .next (s.withPc (s.pc + 2#32))

/-- The first instruction of BL (R304): LR is `iaddr + 4` plus the offset times 4096, an even value at an even address;
nothing else is written. That the offset is signed is the spec's inference (R121, C7). -/
def Obligations.BranchLinkFirst : Prop :=
  ∀ (s : State) (o : BitVec 11), s.pc ≠ lastHalf →
    Completes (.blFirst o) s (fun t =>
      t.x lrReg = s.pc + 4#32 + BitVec.ofInt 32 (4096 * o.toInt) ∧
        (s.pc.toNat % 2 = 0 → (t.x lrReg).toNat % 2 = 0) ∧ t.cpsr = s.cpsr ∧ Advances s t [lrReg])

/-- The second instruction of BL (R305; bit 0 of the target by D15, log 17): to LR plus twice the unsigned offset, with bit 0
cleared; LR is the address of the next instruction with bit 0 set; nothing else is written. -/
def Obligations.BranchLinkSecond : Prop :=
  ∀ (s : State) (o : BitVec 11), s.pc.toNat % 2 = 0 →
    Completes (.blSecond o) s (fun t =>
      t.pc = BitVec.ofNat 32 ((s.x lrReg + BitVec.ofNat 32 (2 * o.toNat)).toNat / 2 * 2) ∧
        t.x lrReg = s.pc + 3#32 ∧ t.cpsr = s.cpsr ∧ t.draws = s.draws ∧ LeavesBut s t [lrReg])

/-- The two instructions the assembler writes for `BL label`, run one after the other, reach the label, whatever the
distance it accepts, and leave the return address with bit 0 set in LR; nothing else is written (R302 to R305). -/
def Obligations.AssembledCallReachesLabel : Prop :=
  ∀ (s : State) (label : Label), s.pc.toNat % 2 = 0 → s.pc ≠ lastHalf →
    ∀ i j : Instr, assemble s.pc (.branchLink label) = some [i, j] →
      ∃ t u, exec i s = .next t ∧ exec j t = .next u ∧ u.pc = label.addr ∧ u.x lrReg = s.pc + 5#32 ∧
        u.cpsr = s.cpsr ∧ LeavesBut s u [lrReg]

/-- What the assembler writes for a branch reaches the label (R121, R132), and for `ADR`, a form R131 supplies from general
knowledge, gives the label's address (PRESUMED and DESIGN CHOICE, log 25). -/
def Obligations.AssembledBranchReachesLabel : Prop :=
  ∀ (s : State) (label : Label) (i : Instr),
    (assemble s.pc (.branch label) = some [i] → exec i s = .next (s.withPc label.addr)) ∧
    (∀ c : Cond, assemble s.pc (.branchIf c label) = some [i] → condHolds c s.cpsr = true →
      exec i s = .next (s.withPc label.addr)) ∧
    (∀ rd : LoReg, s.pc ≠ lastHalf → assemble s.pc (.adr (lo rd) label) = some [i] →
      Completes i s (fun t => t.x (lo rd) = label.addr ∧ t.cpsr = s.cpsr ∧ Advances s t [lo rd]))

/-- SWI (R300, R321; D24, log 20 for the bank, the I bit and bit 0 of LR): the entry saves the address of the next
instruction in R14_svc and the CPSR in SPSR_svc, enters Supervisor mode and ARM state with IRQ disabled at address 8, and
changes nothing else, whatever Value8 is. -/
def Obligations.SoftwareInterruptEntry : Prop :=
  ∀ (s : State) (v : BitVec 8), Completes (.swi v) s (fun t =>
    t.bank .lrSvc = s.pc + 2#32 ∧ (∀ p, p ≠ .lrSvc → t.bank p = s.bank p) ∧ t.spsr = { s.spsr with svc := s.cpsr } ∧
      t.cpsr = { s.cpsr with mode := .supervisor, t := false, i := true } ∧ t.pc = 8#32 ∧ KeepsMemory s t ∧
      t.bigEndian = s.bigEndian ∧ t.regions = s.regions ∧ t.draws = s.draws)

/-- The return R329 describes (log 20) undoes the entry: the CPSR is restored whole and THUMB execution resumes after the
SWI; of the registers only R14_svc differs. Whatever the handler left in R14_svc, a return to THUMB state goes to it with
bit 0 cleared, and THUMB execution may begin there (R40, R361). -/
def Obligations.SoftwareInterruptReturn : Prop :=
  (∀ (s t : State) (v : BitVec 8), exec (.swi v) s = .next t →
    t.returnFromSwi.cpsr = s.cpsr ∧ (s.pc.toNat % 2 = 0 → t.returnFromSwi.pc = s.pc + 2#32) ∧
      ∀ p, p ≠ .lrSvc → t.returnFromSwi.bank p = s.bank p) ∧
  (∀ u : State, u.spsr.svc.t = true →
    u.returnFromSwi.pc = BitVec.ofNat 32 ((u.bank .lrSvc).toNat / 2 * 2) ∧
      (Memory.wf u.mem = true → Launch u.returnFromSwi))

/-! Encodings that give no instruction -/

/-- Each of the twenty-four rows that give no instruction stops with `UndefinedEncoding` of its halfword (R124, R125, R134,
R210, R215, R292; D7, D8, D17, log 12). -/
def Obligations.RowsWithoutInstructionStop : Prop :=
  ∀ (s : State) (h : Half),
    exec (.undefAddLoLo h) s = .fault (.undefinedEncoding h) ∧ exec (.undefCmpLoLo h) s = .fault (.undefinedEncoding h) ∧
    exec (.undefMovLoLo h) s = .fault (.undefinedEncoding h) ∧ exec (.undefBxH1 h) s = .fault (.undefinedEncoding h) ∧
    exec (.undefBxLow1 h) s = .fault (.undefinedEncoding h) ∧ exec (.undefBxLow2 h) s = .fault (.undefinedEncoding h) ∧
    exec (.undefBxLow3 h) s = .fault (.undefinedEncoding h) ∧ exec (.undefBxLow4 h) s = .fault (.undefinedEncoding h) ∧
    exec (.undefBxLow5 h) s = .fault (.undefinedEncoding h) ∧ exec (.undefBxLow6 h) s = .fault (.undefinedEncoding h) ∧
    exec (.undefBxLow7 h) s = .fault (.undefinedEncoding h) ∧ exec (.undefCond14 h) s = .fault (.undefinedEncoding h) ∧
    exec (.unassignedB1 h) s = .fault (.undefinedEncoding h) ∧ exec (.unassignedB2 h) s = .fault (.undefinedEncoding h) ∧
    exec (.unassignedB3 h) s = .fault (.undefinedEncoding h) ∧ exec (.unassignedB6 h) s = .fault (.undefinedEncoding h) ∧
    exec (.unassignedB7 h) s = .fault (.undefinedEncoding h) ∧ exec (.unassignedB8 h) s = .fault (.undefinedEncoding h) ∧
    exec (.unassignedB9 h) s = .fault (.undefinedEncoding h) ∧ exec (.unassignedBA h) s = .fault (.undefinedEncoding h) ∧
    exec (.unassignedBB h) s = .fault (.undefinedEncoding h) ∧ exec (.unassignedBE h) s = .fault (.undefinedEncoding h) ∧
    exec (.unassignedBF h) s = .fault (.undefinedEncoding h) ∧ exec (.unassignedE8 h) s = .fault (.undefinedEncoding h)

/-- A halfword stops with `UndefinedEncoding`, recording itself, exactly when it is one of those R124, R125 and R134 list:
every other halfword is an instruction (R128; D7, D8, D17, log 12). -/
def Obligations.UndefinedEncodingExactly : Prop :=
  ∀ (s : State) (h g : Half),
    exec (decodeHalf h) s = .fault (.undefinedEncoding g) ↔ noInstruction h = true ∧ g = h

/-! The whole machine -/

/-- An instruction that does not write the PC is followed by the next halfword, and at the last halfword of the address
space never completes: unless it gives no instruction, has an invalid list or makes an access that is misaligned or not
admitted, it stops there with "pc wrap", and so does a conditional branch that is not taken (R26, R30, step 6 of R327; D4,
log 9). -/
def Obligations.SequentialAdvance : Prop :=
  ∀ s : State,
    (∀ i : Instr, writesPc i = false →
      (∀ t, exec i s = .next t → s.pc ≠ lastHalf ∧ t.pc = s.pc + 2#32) ∧
      (s.pc = lastHalf → noInstruction (encode i) = false → i.wellFormed = true → invalidList i = false →
        (∀ q ∈ accesses s i, q.1.toNat % q.2.1.bytes = 0 ∧ s.admitted q.1 q.2.1 q.2.2 = true) →
        exec i s = .fault (.unpredictable .pcWrap))) ∧
    (∀ (c : Cond) (o : BitVec 8), condHolds c s.cpsr = false → s.pc = lastHalf →
      exec (assembleBranchIf c o) s = .fault (.unpredictable .pcWrap))

/-- Every step keeps the invariant: memory canonical, the PC even, and a multiple of 4 once in ARM state (R29, R60, R214). -/
def Obligations.StepKeepsInvariant : Prop := ∀ s t : State, Inv s → step s = .next t → Inv t

/-- The invariant holds at reset, and of every state from which THUMB execution may be launched (R40). -/
def Obligations.InvariantHoldsAtLaunch : Prop := Inv State.reset ∧ Launch State.reset ∧ ∀ s, Launch s → Inv s

/-- What the launch state has in common with every launch (R40), and the values the model chose for what R40 leaves
unspecified (logs 1, 2, 4, 5, 7): registers, flags and reserved bits 0, Supervisor mode, I and F set, every SPSR all zeros
in User mode, PC 0, little-endian, memory all zeros and admitted. -/
def Obligations.ResetState : Prop :=
  State.reset.cpsr.t = true ∧ State.reset.pc = 0#32 ∧ (∀ p, State.reset.bank p = 0#32) ∧
    (State.reset.cpsr.n, State.reset.cpsr.z, State.reset.cpsr.c, State.reset.cpsr.v) = (false, false, false, false) ∧
    State.reset.cpsr.reserved = 0#20 ∧
    State.reset.cpsr.mode = .supervisor ∧ State.reset.cpsr.i = true ∧ State.reset.cpsr.f = true ∧
    (∀ p ∈ [State.reset.spsr.fiq, State.reset.spsr.irq, State.reset.spsr.svc, State.reset.spsr.abt, State.reset.spsr.und],
      (p.n, p.z, p.c, p.v) = (false, false, false, false) ∧ p.reserved = 0#20 ∧
        (p.i, p.f, p.t) = (false, false, false) ∧ p.mode = .user) ∧
    State.reset.bigEndian = false ∧
    ∀ (a : Word) (k : Access), State.reset.byteAt a = 0#8 ∧ State.reset.ordinary a .byte k = true

/-- No instruction but SWI changes the mode, a mask, a reserved bit, a saved status register, or a register that the mode
does not see; none at all changes the byte order or the address map (R34, R63, R73, R326, R331). That the byte order and the map are fields
no instruction changes is a DESIGN CHOICE (logs 4 and 5); the banks are PRESUMED (log 19). -/
def Obligations.OnlySwiChangesProcessorControl : Prop :=
  ∀ (i : Instr) (s t : State), exec i s = .next t →
    t.bigEndian = s.bigEndian ∧ t.regions = s.regions ∧
    ((∀ v, i ≠ .swi v) →
      t.cpsr.mode = s.cpsr.mode ∧ t.cpsr.i = s.cpsr.i ∧ t.cpsr.f = s.cpsr.f ∧ t.cpsr.reserved = s.cpsr.reserved ∧
        t.spsr = s.spsr ∧ ∀ p, (∀ r, phys s.cpsr.mode r ≠ some p) → t.bank p = s.bank p)

/-- THUMB state is left only, and always, by SWI and by BX to an address with bit 0 clear (R36). -/
def Obligations.ThumbStateLeftOnlyBySwiAndBx : Prop :=
  ∀ (i : Instr) (s t : State), s.cpsr.t = true → exec i s = .next t →
    (t.cpsr.t = false ↔ (∃ v, i = .swi v) ∨ (∃ r, i = .bxRs r ∧ (s.x (lo r)).getLsbD 0 = false) ∨
      ∃ h, i = .bxHs h ∧ (s.x (hi h)).getLsbD 0 = false)

/-- Only the stores change memory (R62, R68), and only a MUL or a load draws a free value (logs 6, 16, 24). -/
def Obligations.OnlyStoresChangeMemory : Prop :=
  ∀ (i : Instr) (s t : State), exec i s = .next t →
    (writesMemory i = false → KeepsMemory s t) ∧
    (readsMemory i = false → (∀ rd rs, i ≠ .mulReg rd rs) → t.draws = s.draws)

/-- Only formats 1 to 4 and the CMP of format 5 write a flag (R32). -/
def Obligations.OnlyDataProcessingWritesFlags : Prop :=
  ∀ (i : Instr) (s t : State), writesFlags i = false → exec i s = .next t →
    t.cpsr.n = s.cpsr.n ∧ t.cpsr.z = s.cpsr.z ∧ t.cpsr.c = s.cpsr.c ∧ t.cpsr.v = s.cpsr.v

/-- R8 to R12 are reached by format 5 only: no other instruction writes one (R21), nor FIQ mode's own copies of them, which
are PRESUMED (R37, R331; log 19). -/
def Obligations.OnlyFormatFiveWritesHiRegisters : Prop :=
  ∀ (i : Instr) (s t : State), writesHiRegister i = false → exec i s = .next t →
    ∀ p ∈ [PhysReg.r8, .r9, .r10, .r11, .r12, .r8Fiq, .r9Fiq, .r10Fiq, .r11Fiq, .r12Fiq], t.bank p = s.bank p
end

