-- ==== Sys2Proof/Laws/Memory.lean ====
section
/-! SUPPORT. Memory: every operation keeps the canonical form; a read after a write. -/

namespace Sys2Proof.Machine

theorem Memory.wfFrom_cons (lo a : Nat) (b : Byte) (rest : List Host.Cell) :
    Memory.wfFrom lo ((a, b) :: rest) = true ↔
      lo ≤ a ∧ a < 4294967296 ∧ b ≠ Memory.unlisted ∧ Memory.wfFrom (a + 1) rest = true := by
  simp [Memory.wfFrom, and_assoc]

theorem Memory.wfFrom_mono (m : List Host.Cell) (lo lo' : Nat) (h : lo' ≤ lo) (hw : Memory.wfFrom lo m = true) :
    Memory.wfFrom lo' m = true := by
  cases m with
  | nil => rfl
  | cons c rest =>
    obtain ⟨a, b⟩ := c
    rw [Memory.wfFrom_cons] at hw ⊢
    exact ⟨h.trans hw.1, hw.2⟩

theorem Memory.wfFrom_write (m : List Host.Cell) (lo a : Nat) (b : Byte) (ha : a < 4294967296) (hlo : lo ≤ a)
    (hw : Memory.wfFrom lo m = true) : Memory.wfFrom lo (Memory.write m a b) = true := by
  induction m generalizing lo with
  | nil =>
    simp only [Memory.write]
    split
    · rfl
    · rename_i hb
      exact (Memory.wfFrom_cons ..).2 ⟨hlo, ha, hb, rfl⟩
  | cons c rest ih =>
    obtain ⟨a', b'⟩ := c
    have hc := (Memory.wfFrom_cons ..).1 hw
    simp only [Memory.write]
    split
    · split
      · exact hw
      · rename_i hlt hb
        exact (Memory.wfFrom_cons ..).2 ⟨hlo, ha, hb, (Memory.wfFrom_cons ..).2 ⟨hlt, hc.2⟩⟩
    · split
      · rename_i heq
        subst heq
        split
        · exact Memory.wfFrom_mono _ _ _ (by omega) hc.2.2.2
        · rename_i hb
          exact (Memory.wfFrom_cons ..).2 ⟨hc.1, hc.2.1, hb, hc.2.2.2⟩
      · exact (Memory.wfFrom_cons ..).2 ⟨hc.1, hc.2.1, hc.2.2.1, ih _ (by omega) hc.2.2.2⟩

/-- A store keeps memory canonical. -/
theorem Memory.wf_write (m : List Host.Cell) (a : Nat) (b : Byte) (ha : a < 4294967296) (hw : Memory.wf m = true) :
    Memory.wf (Memory.write m a b) = true :=
  Memory.wfFrom_write m 0 a b ha (Nat.zero_le _) hw

theorem Memory.read_below (m : List Host.Cell) (lo a : Nat) (hw : Memory.wfFrom lo m = true) (h : a < lo) :
    Memory.read m a = Memory.unlisted := by
  induction m generalizing lo with
  | nil => rfl
  | cons c rest ih =>
    obtain ⟨a', b'⟩ := c
    have hc := (Memory.wfFrom_cons ..).1 hw
    rw [Memory.read, if_neg (by omega)]
    exact ih (a' + 1) hc.2.2.2 (by omega)

theorem Memory.read_write_self_from (m : List Host.Cell) (lo a : Nat) (b : Byte) (hw : Memory.wfFrom lo m = true) :
    Memory.read (Memory.write m a b) a = b := by
  induction m generalizing lo with
  | nil =>
    simp only [Memory.write]
    split
    · rename_i hb
      exact hb.symm
    · simp [Memory.read]
  | cons c rest ih =>
    obtain ⟨a', b'⟩ := c
    have hc := (Memory.wfFrom_cons ..).1 hw
    simp only [Memory.write]
    split
    · split
      · rename_i hlt hb
        rw [hb]
        exact Memory.read_below _ a' _ ((Memory.wfFrom_cons ..).2 ⟨le_refl _, hc.2⟩) hlt
      · simp [Memory.read]
    · split
      · rename_i heq
        subst heq
        split
        · rename_i hb
          rw [hb]
          exact Memory.read_below _ (a + 1) _ hc.2.2.2 (by omega)
        · simp [Memory.read]
      · rename_i hne
        rw [Memory.read, if_neg hne]
        exact ih (a' + 1) hc.2.2.2

/-- A byte reads as what was last stored there. -/
theorem Memory.read_write_self (m : List Host.Cell) (a : Nat) (b : Byte) (hw : Memory.wf m = true) :
    Memory.read (Memory.write m a b) a = b :=
  Memory.read_write_self_from m 0 a b hw

/-- A store leaves every other byte alone. -/
theorem Memory.read_write_other (m : List Host.Cell) (a a' : Nat) (b : Byte) (h : a' ≠ a) :
    Memory.read (Memory.write m a b) a' = Memory.read m a' := by
  induction m with
  | nil =>
    simp only [Memory.write]
    split <;> simp [Memory.read, h]
  | cons c rest ih =>
    obtain ⟨x, y⟩ := c
    simp only [Memory.write]
    split
    · split
      · rfl
      · simp [Memory.read, h]
    · split
      · rename_i heq
        subst heq
        split <;> simp [Memory.read, h]
      · simp only [Memory.read, ih]

end Sys2Proof.Machine
end

