-- ==== Sys2Proof/Laws/State.lean ====
section
/-! SUPPORT. One lemma per field per update of the state, and of the status register, so that no proof unfolds one. -/

namespace Sys2Proof.Machine

@[simp] theorem State.withPc_regs (s : State) (a : Word) : (s.withPc a).regs = s.regs := rfl
@[simp] theorem State.withPc_pc (s : State) (a : Word) : (s.withPc a).pc = a := rfl
@[simp] theorem State.withPc_cpsr (s : State) (a : Word) : (s.withPc a).cpsr = s.cpsr := rfl
@[simp] theorem State.withPc_spsr (s : State) (a : Word) : (s.withPc a).spsr = s.spsr := rfl
@[simp] theorem State.withPc_mem (s : State) (a : Word) : (s.withPc a).mem = s.mem := rfl
@[simp] theorem State.withPc_bigEndian (s : State) (a : Word) : (s.withPc a).bigEndian = s.bigEndian := rfl
@[simp] theorem State.withPc_regions (s : State) (a : Word) : (s.withPc a).regions = s.regions := rfl
@[simp] theorem State.withPc_draws (s : State) (a : Word) : (s.withPc a).draws = s.draws := rfl

@[simp] theorem State.withCpsr_regs (s : State) (p : Psr) : (s.withCpsr p).regs = s.regs := rfl
@[simp] theorem State.withCpsr_pc (s : State) (p : Psr) : (s.withCpsr p).pc = s.pc := rfl
@[simp] theorem State.withCpsr_cpsr (s : State) (p : Psr) : (s.withCpsr p).cpsr = p := rfl
@[simp] theorem State.withCpsr_spsr (s : State) (p : Psr) : (s.withCpsr p).spsr = s.spsr := rfl
@[simp] theorem State.withCpsr_mem (s : State) (p : Psr) : (s.withCpsr p).mem = s.mem := rfl
@[simp] theorem State.withCpsr_bigEndian (s : State) (p : Psr) : (s.withCpsr p).bigEndian = s.bigEndian := rfl
@[simp] theorem State.withCpsr_regions (s : State) (p : Psr) : (s.withCpsr p).regions = s.regions := rfl
@[simp] theorem State.withCpsr_draws (s : State) (p : Psr) : (s.withCpsr p).draws = s.draws := rfl

@[simp] theorem State.withMem_regs (s : State) (m : List Host.Cell) : (s.withMem m).regs = s.regs := rfl
@[simp] theorem State.withMem_pc (s : State) (m : List Host.Cell) : (s.withMem m).pc = s.pc := rfl
@[simp] theorem State.withMem_cpsr (s : State) (m : List Host.Cell) : (s.withMem m).cpsr = s.cpsr := rfl
@[simp] theorem State.withMem_spsr (s : State) (m : List Host.Cell) : (s.withMem m).spsr = s.spsr := rfl
@[simp] theorem State.withMem_mem (s : State) (m : List Host.Cell) : (s.withMem m).mem = m := rfl
@[simp] theorem State.withMem_bigEndian (s : State) (m : List Host.Cell) : (s.withMem m).bigEndian = s.bigEndian := rfl
@[simp] theorem State.withMem_regions (s : State) (m : List Host.Cell) : (s.withMem m).regions = s.regions := rfl
@[simp] theorem State.withMem_draws (s : State) (m : List Host.Cell) : (s.withMem m).draws = s.draws := rfl

@[simp] theorem State.withBank_regs (s : State) (r : PhysReg) (v : Word) : (s.withBank r v).regs = s.regs.set r.index v r.index.isLt := rfl
@[simp] theorem State.withBank_pc (s : State) (r : PhysReg) (v : Word) : (s.withBank r v).pc = s.pc := rfl
@[simp] theorem State.withBank_cpsr (s : State) (r : PhysReg) (v : Word) : (s.withBank r v).cpsr = s.cpsr := rfl
@[simp] theorem State.withBank_spsr (s : State) (r : PhysReg) (v : Word) : (s.withBank r v).spsr = s.spsr := rfl
@[simp] theorem State.withBank_mem (s : State) (r : PhysReg) (v : Word) : (s.withBank r v).mem = s.mem := rfl
@[simp] theorem State.withBank_bigEndian (s : State) (r : PhysReg) (v : Word) : (s.withBank r v).bigEndian = s.bigEndian := rfl
@[simp] theorem State.withBank_regions (s : State) (r : PhysReg) (v : Word) : (s.withBank r v).regions = s.regions := rfl
@[simp] theorem State.withBank_draws (s : State) (r : PhysReg) (v : Word) : (s.withBank r v).draws = s.draws := rfl

@[simp] theorem State.drawn_regs (s : State) : s.drawn.regs = s.regs := rfl
@[simp] theorem State.drawn_pc (s : State) : s.drawn.pc = s.pc := rfl
@[simp] theorem State.drawn_cpsr (s : State) : s.drawn.cpsr = s.cpsr := rfl
@[simp] theorem State.drawn_spsr (s : State) : s.drawn.spsr = s.spsr := rfl
@[simp] theorem State.drawn_mem (s : State) : s.drawn.mem = s.mem := rfl
@[simp] theorem State.drawn_bigEndian (s : State) : s.drawn.bigEndian = s.bigEndian := rfl
@[simp] theorem State.drawn_regions (s : State) : s.drawn.regions = s.regions := rfl
@[simp] theorem State.drawn_draws (s : State) : s.drawn.draws = s.draws + 1 := rfl

@[simp] theorem State.setByte_regs (s : State) (a : Word) (b : Byte) : (s.setByte a b).regs = s.regs := rfl
@[simp] theorem State.setByte_pc (s : State) (a : Word) (b : Byte) : (s.setByte a b).pc = s.pc := rfl
@[simp] theorem State.setByte_cpsr (s : State) (a : Word) (b : Byte) : (s.setByte a b).cpsr = s.cpsr := rfl
@[simp] theorem State.setByte_spsr (s : State) (a : Word) (b : Byte) : (s.setByte a b).spsr = s.spsr := rfl
@[simp] theorem State.setByte_mem (s : State) (a : Word) (b : Byte) : (s.setByte a b).mem = Memory.write s.mem a.toNat b := rfl
@[simp] theorem State.setByte_bigEndian (s : State) (a : Word) (b : Byte) : (s.setByte a b).bigEndian = s.bigEndian := rfl
@[simp] theorem State.setByte_regions (s : State) (a : Word) (b : Byte) : (s.setByte a b).regions = s.regions := rfl
@[simp] theorem State.setByte_draws (s : State) (a : Word) (b : Byte) : (s.setByte a b).draws = s.draws := rfl

@[simp] theorem State.enterSwi_regs (s : State) : s.enterSwi.regs = (s.withBank .lrSvc (s.pc + 2#32)).regs := rfl
@[simp] theorem State.enterSwi_pc (s : State) : s.enterSwi.pc = Config.swiVector := rfl
@[simp] theorem State.enterSwi_cpsr (s : State) : s.enterSwi.cpsr = { s.cpsr with mode := .supervisor, t := false, i := true } := rfl
@[simp] theorem State.enterSwi_spsr (s : State) : s.enterSwi.spsr = { s.spsr with svc := s.cpsr } := rfl
@[simp] theorem State.enterSwi_mem (s : State) : s.enterSwi.mem = s.mem := rfl
@[simp] theorem State.enterSwi_bigEndian (s : State) : s.enterSwi.bigEndian = s.bigEndian := rfl
@[simp] theorem State.enterSwi_regions (s : State) : s.enterSwi.regions = s.regions := rfl
@[simp] theorem State.enterSwi_draws (s : State) : s.enterSwi.draws = s.draws := rfl

@[simp] theorem entryAddress_thumb (v : Word) : entryAddress true v = v &&& 0xFFFFFFFE#32 := rfl
@[simp] theorem entryAddress_arm (v : Word) : entryAddress false v = v := rfl

@[simp] theorem State.returnFromSwi_regs (s : State) : s.returnFromSwi.regs = s.regs := rfl
@[simp] theorem State.returnFromSwi_pc (s : State) : s.returnFromSwi.pc = entryAddress s.spsr.svc.t (s.bank .lrSvc) :=
  rfl
@[simp] theorem State.returnFromSwi_cpsr (s : State) : s.returnFromSwi.cpsr = s.spsr.svc := rfl
@[simp] theorem State.returnFromSwi_spsr (s : State) : s.returnFromSwi.spsr = s.spsr := rfl
@[simp] theorem State.returnFromSwi_mem (s : State) : s.returnFromSwi.mem = s.mem := rfl
@[simp] theorem State.returnFromSwi_bigEndian (s : State) : s.returnFromSwi.bigEndian = s.bigEndian := rfl
@[simp] theorem State.returnFromSwi_regions (s : State) : s.returnFromSwi.regions = s.regions := rfl
@[simp] theorem State.returnFromSwi_draws (s : State) : s.returnFromSwi.draws = s.draws := rfl

@[simp] theorem Psr.setNZ_n (p : Psr) (r : Word) : (p.setNZ r).n = r.getLsbD 31 := rfl
@[simp] theorem Psr.setNZ_z (p : Psr) (r : Word) : (p.setNZ r).z = decide (r = 0#32) := rfl
@[simp] theorem Psr.setNZ_c (p : Psr) (r : Word) : (p.setNZ r).c = p.c := rfl
@[simp] theorem Psr.setNZ_v (p : Psr) (r : Word) : (p.setNZ r).v = p.v := rfl
@[simp] theorem Psr.setNZ_reserved (p : Psr) (r : Word) : (p.setNZ r).reserved = p.reserved := rfl
@[simp] theorem Psr.setNZ_i (p : Psr) (r : Word) : (p.setNZ r).i = p.i := rfl
@[simp] theorem Psr.setNZ_f (p : Psr) (r : Word) : (p.setNZ r).f = p.f := rfl
@[simp] theorem Psr.setNZ_t (p : Psr) (r : Word) : (p.setNZ r).t = p.t := rfl
@[simp] theorem Psr.setNZ_mode (p : Psr) (r : Word) : (p.setNZ r).mode = p.mode := rfl

@[simp] theorem Psr.setNZC_n (p : Psr) (r : Word) (c : Bool) : (p.setNZC r c).n = r.getLsbD 31 := rfl
@[simp] theorem Psr.setNZC_z (p : Psr) (r : Word) (c : Bool) : (p.setNZC r c).z = decide (r = 0#32) := rfl
@[simp] theorem Psr.setNZC_c (p : Psr) (r : Word) (c : Bool) : (p.setNZC r c).c = c := rfl
@[simp] theorem Psr.setNZC_v (p : Psr) (r : Word) (c : Bool) : (p.setNZC r c).v = p.v := rfl
@[simp] theorem Psr.setNZC_reserved (p : Psr) (r : Word) (c : Bool) : (p.setNZC r c).reserved = p.reserved := rfl
@[simp] theorem Psr.setNZC_i (p : Psr) (r : Word) (c : Bool) : (p.setNZC r c).i = p.i := rfl
@[simp] theorem Psr.setNZC_f (p : Psr) (r : Word) (c : Bool) : (p.setNZC r c).f = p.f := rfl
@[simp] theorem Psr.setNZC_t (p : Psr) (r : Word) (c : Bool) : (p.setNZC r c).t = p.t := rfl
@[simp] theorem Psr.setNZC_mode (p : Psr) (r : Word) (c : Bool) : (p.setNZC r c).mode = p.mode := rfl

@[simp] theorem Psr.setNZCV_n (p : Psr) (r : AddResult) : (p.setNZCV r).n = r.result.getLsbD 31 := rfl
@[simp] theorem Psr.setNZCV_z (p : Psr) (r : AddResult) : (p.setNZCV r).z = decide (r.result = 0#32) := rfl
@[simp] theorem Psr.setNZCV_c (p : Psr) (r : AddResult) : (p.setNZCV r).c = r.carry := rfl
@[simp] theorem Psr.setNZCV_v (p : Psr) (r : AddResult) : (p.setNZCV r).v = r.overflow := rfl
@[simp] theorem Psr.setNZCV_reserved (p : Psr) (r : AddResult) : (p.setNZCV r).reserved = p.reserved := rfl
@[simp] theorem Psr.setNZCV_i (p : Psr) (r : AddResult) : (p.setNZCV r).i = p.i := rfl
@[simp] theorem Psr.setNZCV_f (p : Psr) (r : AddResult) : (p.setNZCV r).f = p.f := rfl
@[simp] theorem Psr.setNZCV_t (p : Psr) (r : AddResult) : (p.setNZCV r).t = p.t := rfl
@[simp] theorem Psr.setNZCV_mode (p : Psr) (r : AddResult) : (p.setNZCV r).mode = p.mode := rfl

end Sys2Proof.Machine
end

