-- ==== Sys2Proof/Laws/Ops.lean ====
section
/-! SUPPORT. What each shared operation can do, said once: registers and banks, the PC, memory accesses, transfers. -/

namespace Sys2Proof.Machine

/-! Registers and banks -/

theorem PhysReg.index_injective (p q : PhysReg) (h : p.index = q.index) : p = q := by
  cases p <;> cases q <;> first | rfl | exact absurd h (by decide)

theorem State.bank_withBank (s : State) (p q : PhysReg) (v : Word) :
    (s.withBank p v).bank q = if p = q then v else s.bank q := by
  unfold State.bank State.withBank
  split
  · rename_i h
    subst h
    exact Vector.getElem_set_self p.index.isLt
  · rename_i h
    have hne : (p.index : Nat) ≠ q.index := fun e => h (PhysReg.index_injective p q (Fin.ext e))
    exact Vector.getElem_set_ne p.index.isLt q.index.isLt hne

@[simp] theorem State.bank_withPc (s : State) (a : Word) (q : PhysReg) : (s.withPc a).bank q = s.bank q := rfl
@[simp] theorem State.bank_withCpsr (s : State) (p : Psr) (q : PhysReg) : (s.withCpsr p).bank q = s.bank q := rfl
@[simp] theorem State.bank_withMem (s : State) (m : List Host.Cell) (q : PhysReg) : (s.withMem m).bank q = s.bank q := rfl
@[simp] theorem State.bank_drawn (s : State) (q : PhysReg) : s.drawn.bank q = s.bank q := rfl
@[simp] theorem State.bank_setByte (s : State) (a : Word) (b : Byte) (q : PhysReg) : (s.setByte a b).bank q = s.bank q := rfl

/-- Two numbers name one register of the file only if they are one number. -/
theorem phys_injective (m : Mode) (r r' : Reg) (p : PhysReg) (h : phys m r = some p) (h' : phys m r' = some p) :
    r = r' := by
  have key : ∀ r r' : Reg, phys m r = phys m r' → (phys m r).isSome = true → r = r' := by
    cases m <;> decide
  exact key r r' (h.trans h'.symm) (by rw [h]; rfl)

/-- Every number but 15 names a register of the file. -/
theorem phys_isSome (m : Mode) (r : Reg) : (phys m r).isSome = true ↔ r ≠ pcReg := by
  revert r
  cases m <;> decide

theorem phys_pcReg (m : Mode) : phys m pcReg = none := by cases m <;> rfl

theorem phys_of_ne (m : Mode) (r : Reg) (h : r ≠ pcReg) : ∃ p, phys m r = some p :=
  Option.isSome_iff_exists.1 ((phys_isSome m r).2 h)

theorem lo_ne_pcReg (f : LoReg) : lo f ≠ pcReg := by revert f; decide

theorem lo_injective (f g : LoReg) (h : lo f = lo g) : f = g := by revert f g; decide

theorem hi_injective (f g : HiReg) (h : hi f = hi g) : f = g := by revert f g; decide

theorem lo_ne_hi (f : LoReg) (g : HiReg) : lo f ≠ hi g := by revert f g; decide

theorem lo_ne_spReg (f : LoReg) : lo f ≠ spReg := by revert f; decide

theorem lo_ne_lrReg (f : LoReg) : lo f ≠ lrReg := by revert f; decide

theorem State.writeReg_eq (s : State) (r : Reg) (v : Word) (p : PhysReg) (h : phys s.cpsr.mode r = some p) :
    s.writeReg r v = s.withBank p v := by
  rw [State.writeReg, h]

/-- A write of a register changes the register file only. -/
theorem State.writeReg_regs_only (s : State) (r : Reg) (v : Word) :
    s.writeReg r v = { s with regs := (s.writeReg r v).regs } := by
  unfold State.writeReg
  split <;> rfl

@[simp] theorem State.writeReg_pc (s : State) (r : Reg) (v : Word) : (s.writeReg r v).pc = s.pc := by
  rw [State.writeReg_regs_only]
@[simp] theorem State.writeReg_cpsr (s : State) (r : Reg) (v : Word) : (s.writeReg r v).cpsr = s.cpsr := by
  rw [State.writeReg_regs_only]
@[simp] theorem State.writeReg_spsr (s : State) (r : Reg) (v : Word) : (s.writeReg r v).spsr = s.spsr := by
  rw [State.writeReg_regs_only]
@[simp] theorem State.writeReg_mem (s : State) (r : Reg) (v : Word) : (s.writeReg r v).mem = s.mem := by
  rw [State.writeReg_regs_only]
@[simp] theorem State.writeReg_bigEndian (s : State) (r : Reg) (v : Word) : (s.writeReg r v).bigEndian = s.bigEndian := by
  rw [State.writeReg_regs_only]
@[simp] theorem State.writeReg_regions (s : State) (r : Reg) (v : Word) : (s.writeReg r v).regions = s.regions := by
  rw [State.writeReg_regs_only]
@[simp] theorem State.writeReg_draws (s : State) (r : Reg) (v : Word) : (s.writeReg r v).draws = s.draws := by
  rw [State.writeReg_regs_only]

/-- The register file after a write by number. -/
theorem State.bank_writeReg (s : State) (r : Reg) (v : Word) (q : PhysReg) :
    (s.writeReg r v).bank q = if phys s.cpsr.mode r = some q then v else s.bank q := by
  unfold State.writeReg
  split
  · rename_i p h
    rw [State.bank_withBank, h]
    simp
  · rename_i h
    rw [h]
    simp

/-- What an operand reads depends on the file, the mode and the PC only. -/
theorem State.x_congr (s t : State) (r : Reg) (hr : ∀ p, t.bank p = s.bank p) (hm : t.cpsr.mode = s.cpsr.mode)
    (hp : t.pc = s.pc) : t.x r = s.x r := by
  simp only [State.x, hm, hp, hr]

theorem State.x_of_phys (s : State) (r : Reg) (p : PhysReg) (h : phys s.cpsr.mode r = some p) : s.x r = s.bank p := by
  rw [State.x, h]

theorem State.x_pcReg (s : State) : s.x pcReg = (s.pc + 4#32) &&& 0xFFFFFFFE#32 := by
  rw [State.x, phys_pcReg]

/-- A register reads as what was last written to it. -/
theorem State.x_writeReg_self (s : State) (r : Reg) (v : Word) (h : r ≠ pcReg) : (s.writeReg r v).x r = v := by
  obtain ⟨p, hp⟩ := phys_of_ne s.cpsr.mode r h
  rw [State.x_of_phys _ r p (by simpa using hp), State.bank_writeReg, if_pos hp]

/-- A write of a register leaves every other one alone. -/
theorem State.x_writeReg_other (s : State) (r r' : Reg) (v : Word) (h : r' ≠ r) : (s.writeReg r v).x r' = s.x r' := by
  simp only [State.x, State.writeReg_cpsr, State.writeReg_pc]
  split
  · rename_i p hp
    rw [State.bank_writeReg, if_neg]
    exact fun e => h (phys_injective _ _ _ _ hp e)
  · rfl

theorem State.keepsRegsBut_writeReg (s : State) (r : Reg) (v : Word) : KeepsRegsBut s (s.writeReg r v) [r] := by
  intro p hp
  rw [State.bank_writeReg, if_neg (hp r (by simp))]

/-! The PC -/

/-- If the machine advances it is at the next halfword, and nothing else changed. -/
theorem State.advance_next (s t : State) (h : s.advance = .next t) : s.pc ≠ lastHalf ∧ t = s.withPc (s.pc + 2#32) := by
  unfold State.advance at h
  split at h
  · cases h
  · rename_i hne
    exact ⟨hne, by simpa using h.symm⟩

theorem State.advance_of_ne (s : State) (h : s.pc ≠ lastHalf) : s.advance = .next (s.withPc (s.pc + 2#32)) := if_neg h

theorem State.assign_lo (s : State) (f : LoReg) (v : Word) : s.assign (lo f) v = (s.writeReg (lo f) v).advance :=
  if_neg (lo_ne_pcReg f)

/-! Bytes of memory -/

theorem State.byteAt_setByte_self (s : State) (a : Word) (b : Byte) (h : Memory.wf s.mem = true) :
    (s.setByte a b).byteAt a = b :=
  Memory.read_write_self s.mem a.toNat b h

theorem State.byteAt_setByte_other (s : State) (a a' : Word) (b : Byte) (h : a' ≠ a) :
    (s.setByte a b).byteAt a' = s.byteAt a' :=
  Memory.read_write_other s.mem a.toNat a'.toNat b (fun e => h (BitVec.eq_of_toNat_eq e))

theorem State.wf_setByte (s : State) (a : Word) (b : Byte) (h : Memory.wf s.mem = true) :
    Memory.wf (s.setByte a b).mem = true :=
  Memory.wf_write s.mem a.toNat b a.isLt h

/-- Storing bytes changes memory only. -/
theorem State.setBytes_mem_only (s : State) (a : Word) (bs : List Byte) :
    s.setBytes a bs = s.withMem (s.setBytes a bs).mem := by
  induction bs generalizing s a with
  | nil => rfl
  | cons b rest ih => rw [State.setBytes, ih]; rfl

/-- Storing bytes keeps memory canonical. -/
theorem State.wf_setBytes (s : State) (a : Word) (bs : List Byte) (h : Memory.wf s.mem = true) :
    Memory.wf (s.setBytes a bs).mem = true := by
  induction bs generalizing s a with
  | nil => exact h
  | cons b rest ih => exact ih _ _ (State.wf_setByte s a b h)

/-- Storing bytes leaves every byte outside them alone. -/
theorem State.byteAt_setBytes_other (s : State) (a a' : Word) (bs : List Byte)
    (h : ∀ k, k < bs.length → a' ≠ a + BitVec.ofNat 32 k) : (s.setBytes a bs).byteAt a' = s.byteAt a' := by
  induction bs generalizing s a with
  | nil => rfl
  | cons b rest ih =>
    rw [State.setBytes, ih]
    · exact State.byteAt_setByte_other s a a' b (by simpa using h 0 (by simp))
    · intro k hk e
      refine h (k + 1) (by simpa using hk) (e.trans ?_)
      rw [Nat.add_comm k 1, BitVec.ofNat_add, ← BitVec.add_assoc]

theorem bytesOf_length (be : Bool) (n : Size) (v : Word) : (bytesOf be n v).length = n.bytes := by
  cases be <;> cases n <;> rfl

theorem outside_ne (a b : Word) (n k : Nat) (h : n ≤ (b - a).toNat) (hk : k < n) : b ≠ a + BitVec.ofNat 32 k := by
  rintro rfl
  have : (a + BitVec.ofNat 32 k - a) = BitVec.ofNat 32 k := by
    rw [BitVec.add_comm, BitVec.add_sub_cancel]
  rw [this, BitVec.toNat_ofNat] at h
  have := Nat.mod_le k (2 ^ 32)
  omega

/-- Storing a value changes memory only. -/
theorem State.setValue_mem_only (s : State) (a : Word) (n : Size) (v : Word) :
    s.setValue a n v = s.withMem (s.setValue a n v).mem :=
  State.setBytes_mem_only ..

/-- Storing a value keeps memory canonical. -/
theorem State.wf_setValue (s : State) (a : Word) (n : Size) (v : Word) (h : Memory.wf s.mem = true) :
    Memory.wf (s.setValue a n v).mem = true :=
  State.wf_setBytes _ _ _ h

/-- Storing a value leaves every byte outside it alone. -/
theorem State.keepsMemoryBut_setValue (s : State) (a : Word) (n : Size) (v : Word) :
    KeepsMemoryBut s (s.setValue a n v) a n.bytes := by
  intro b hb
  apply State.byteAt_setBytes_other
  intro k hk
  rw [bytesOf_length] at hk
  exact outside_ne a b n.bytes k hb hk

/-! Accesses -/

/-- An aligned read of ordinary memory answers the bytes there and changes nothing. -/
theorem memRead_of_ordinary (s : State) (a : Word) (n : Size) (k : Access) (ha : a.toNat % n.bytes = 0)
    (ho : s.ordinary a n k = true) : memRead s a n k = .ok (s.valueAt a n, s) := by
  unfold memRead
  unfold State.ordinary at ho
  rw [if_neg (not_not.2 ha)]
  cases hr : s.regionFor a n k with
  | none => simp [hr] at ho
  | some r =>
    have hd : r.device = false := by simpa [hr] using ho
    simp [hd]

/-- If a read answers, it was aligned and admitted; what it answers is memory's value or the oracle's, and the state is
the same but for the draw. -/
theorem memRead_cases (s t : State) (a : Word) (n : Size) (k : Access) (v : Word) (h : memRead s a n k = .ok (v, t)) :
    a.toNat % n.bytes = 0 ∧ s.admitted a n k = true ∧
      ((v = s.valueAt a n ∧ t = s) ∨ (v = n.trunc (Config.deviceRead s.draws a n.bytes) ∧ t = s.drawn)) := by
  unfold memRead at h
  split at h
  · cases h
  · rename_i ha
    refine ⟨not_not.1 ha, ?_⟩
    unfold State.admitted
    cases hr : s.regionFor a n k with
    | none => simp [hr] at h
    | some r =>
      simp only [hr] at h
      refine ⟨rfl, ?_⟩
      split at h
      · injection h with h; injection h with h1 h2
        exact .inr ⟨h1.symm, h2.symm⟩
      · injection h with h; injection h with h1 h2
        exact .inl ⟨h1.symm, h2.symm⟩

/-- If a write answers, it was aligned and admitted, and the value is stored. -/
theorem memWrite_cases (s t : State) (a : Word) (n : Size) (v : Word) (h : memWrite s a n v = .ok t) :
    a.toNat % n.bytes = 0 ∧ s.admitted a n .write = true ∧ t = s.setValue a n v := by
  unfold memWrite at h
  split at h
  · cases h
  · rename_i ha
    split at h
    · rename_i hd
      injection h with h
      exact ⟨not_not.1 ha, hd, h.symm⟩
    · cases h

theorem memWrite_of_admitted (s : State) (a : Word) (n : Size) (v : Word) (ha : a.toNat % n.bytes = 0)
    (hd : s.admitted a n .write = true) : memWrite s a n v = .ok (s.setValue a n v) := by
  unfold memWrite
  rw [if_neg (not_not.2 ha), if_pos hd]

/-- If a single load completes: the read answered, the register holds the extended value, the PC advanced. -/
theorem loadInto_next (s t : State) (rd : Reg) (a : Word) (n : Size) (e : Word → Word) (h : loadInto s rd a n e = .next t) :
    ∃ v s', memRead s a n .read = .ok (v, s') ∧ s'.pc ≠ lastHalf ∧ t = (s'.writeReg rd (e v)).withPc (s'.pc + 2#32) := by
  unfold loadInto at h
  split at h
  · cases h
  · rename_i v s' hm
    obtain ⟨h1, h2⟩ := State.advance_next _ _ h
    exact ⟨v, s', hm, by simpa using h1, by simpa using h2⟩

/-- If a single store completes: the value is stored and the PC advanced. -/
theorem storeFrom_next (s t : State) (a : Word) (n : Size) (v : Word) (h : storeFrom s a n v = .next t) :
    a.toNat % n.bytes = 0 ∧ s.admitted a n .write = true ∧ t = (s.setValue a n v).withPc (s.pc + 2#32) := by
  unfold storeFrom at h
  split at h
  · cases h
  · rename_i s' hm
    obtain ⟨h1, h2, rfl⟩ := memWrite_cases _ _ _ _ _ hm
    obtain ⟨-, h3⟩ := State.advance_next _ _ h
    refine ⟨h1, h2, h3.trans ?_⟩
    rw [State.setValue_mem_only, State.withMem_pc]

/-- Reading words changes nothing but the count of draws. -/
theorem readWords_state (s t : State) (a : Word) (regs : List Reg) (vs : List (Reg × Word))
    (h : readWords s a regs = .ok (vs, t)) : (∃ d, t = { s with draws := d }) ∧ vs.map Prod.fst = regs := by
  induction regs generalizing s a vs t with
  | nil =>
    simp only [readWords] at h
    injection h with h; injection h with h1 h2
    exact ⟨⟨s.draws, h2.symm⟩, by rw [← h1]; rfl⟩
  | cons r rest ih =>
    simp only [readWords] at h
    split at h
    · cases h
    · rename_i v s' hm
      split at h
      · cases h
      · rename_i vs' s'' hr
        injection h with h; injection h with h1 h2
        obtain ⟨⟨d, hd⟩, hf⟩ := ih _ _ _ _ hr
        obtain ⟨-, -, hc⟩ := memRead_cases _ _ _ _ _ _ hm
        subst h1 h2
        refine ⟨⟨d, ?_⟩, by simp [hf]⟩
        rcases hc with ⟨-, rfl⟩ | ⟨-, rfl⟩ <;> exact hd

/-- Storing words changes memory only, and keeps it canonical. -/
theorem writeWords_state (s t : State) (a : Word) (vs : List Word) (h : writeWords s a vs = .ok t) :
    t = s.withMem t.mem ∧ (Memory.wf s.mem = true → Memory.wf t.mem = true) := by
  induction vs generalizing s a with
  | nil =>
    simp only [writeWords] at h
    injection h with h
    subst h
    exact ⟨rfl, id⟩
  | cons v rest ih =>
    simp only [writeWords] at h
    split at h
    · cases h
    · rename_i s' hm
      obtain ⟨-, -, rfl⟩ := memWrite_cases _ _ _ _ _ hm
      obtain ⟨h1, h2⟩ := ih _ _ h
      refine ⟨?_, fun hw => h2 (State.wf_setValue _ _ _ _ hw)⟩
      rw [h1, State.setValue_mem_only]
      rfl

/-- The next word of a transfer is aligned when the first is. -/
theorem aligned_next (a : Word) (ha : a.toNat % 4 = 0) : (a + 4#32).toNat % 4 = 0 := by
  rw [BitVec.toNat_add, show (4#32 : Word).toNat = 4 from rfl]
  omega

/-- Reading words of ordinary memory: it answers each register with the word at its address, and changes nothing. -/
theorem readWords_of_ordinary (s : State) (a : Word) (regs : List Reg) (ha : a.toNat % 4 = 0)
    (h : eachWord (fun b => s.ordinary b .word .read) a regs.length = true) :
    ∃ vs, readWords s a regs = .ok (vs, s) ∧ vs.map Prod.fst = regs ∧ HoldsWords s a (vs.map Prod.snd) := by
  induction regs generalizing a with
  | nil => exact ⟨[], rfl, rfl, trivial⟩
  | cons r rest ih =>
    simp only [List.length_cons, eachWord, Bool.and_eq_true] at h
    obtain ⟨vs, h1, h2, h3⟩ := ih (a + 4#32) (aligned_next a ha) h.2
    refine ⟨(r, s.valueAt a .word) :: vs, ?_, by simp [h2], rfl, h3⟩
    simp [readWords, memRead_of_ordinary s a .word .read ha h.1, h1]

/-- Storing words that the platform admits completes. -/
theorem writeWords_of_admitted (s : State) (a : Word) (vs : List Word) (ha : a.toNat % 4 = 0)
    (h : eachWord (fun b => s.admitted b .word .write) a vs.length = true) : ∃ t, writeWords s a vs = .ok t := by
  induction vs generalizing s a with
  | nil => exact ⟨s, rfl⟩
  | cons v rest ih =>
    simp only [List.length_cons, eachWord, Bool.and_eq_true] at h
    have hreg : (s.setValue a .word v).regions = s.regions := by
      rw [State.setValue_mem_only]
      rfl
    obtain ⟨t, ht⟩ := ih (s.setValue a .word v) (a + 4#32) (aligned_next a ha) (by
      simpa only [State.admitted, State.regionFor, hreg] using h.2)
    exact ⟨t, by simp [writeWords, memWrite_of_admitted s a .word v ha h.1, ht]⟩

/-- The address of word `j + 1` of a transfer is that of word `j` of the rest. -/
theorem wordAddr_succ (a : Word) (j : Nat) : a + BitVec.ofNat 32 (4 * (j + 1)) = a + 4#32 + BitVec.ofNat 32 (4 * j) := by
  rw [Nat.mul_succ, Nat.add_comm, BitVec.ofNat_add, BitVec.add_assoc]

/-- An aligned admitted read that is not of ordinary memory answers the oracle's word and counts a draw. -/
theorem memRead_of_device (s : State) (a : Word) (n : Size) (k : Access) (ha : a.toNat % n.bytes = 0)
    (hd : s.admitted a n k = true) (ho : s.ordinary a n k = false) :
    memRead s a n k = .ok (n.trunc (Config.deviceRead s.draws a n.bytes), s.drawn) := by
  unfold memRead
  unfold State.ordinary at ho
  unfold State.admitted at hd
  rw [if_neg (not_not.2 ha)]
  cases hr : s.regionFor a n k with
  | none => simp [hr] at hd
  | some r =>
    have hdev : r.device = true := by simpa [hr] using ho
    simp [hdev]

/-- An aligned read that no region admits stops. -/
theorem memRead_of_unadmitted (s : State) (a : Word) (n : Size) (k : Access) (ha : a.toNat % n.bytes = 0)
    (hd : s.admitted a n k = false) : memRead s a n k = .error (.memFault a n k) := by
  unfold memRead
  unfold State.admitted at hd
  rw [if_neg (not_not.2 ha)]
  cases hr : s.regionFor a n k with
  | none => rfl
  | some r => simp [hr] at hd

/-- An aligned read that some region admits answers, and changes nothing but the count of draws. -/
theorem memRead_of_admitted (s : State) (a : Word) (n : Size) (k : Access) (ha : a.toNat % n.bytes = 0)
    (hd : s.admitted a n k = true) : ∃ v e, memRead s a n k = .ok (v, { s with draws := e }) := by
  cases ho : s.ordinary a n k with
  | true => exact ⟨_, s.draws, memRead_of_ordinary s a n k ha ho⟩
  | false => exact ⟨_, s.draws + 1, memRead_of_device s a n k ha hd ho⟩

/-- What a multiple load gets does not depend on the count of draws the state holds. -/
theorem readsWords_draws (s : State) (k d e : Nat) (a : Word) (vs : List Word) :
    ReadsWords { s with draws := k } d a vs e ↔ ReadsWords s d a vs e := by
  induction vs generalizing d a with
  | nil => exact Iff.rfl
  | cons v rest ih =>
    show (if s.ordinary a .word .read then v = s.valueAt a .word ∧ ReadsWords { s with draws := k } d (a + 4#32) rest e
      else v = Config.deviceRead d a 4 ∧ ReadsWords { s with draws := k } (d + 1) (a + 4#32) rest e) ↔ _
    rw [ih, ih]
    rfl

/-- Reading words that the platform admits, of memory or of devices: it answers each register with what `ReadsWords` says,
and changes nothing but the count of draws. -/
theorem readWords_of_admitted (s : State) (a : Word) (regs : List Reg) (ha : a.toNat % 4 = 0)
    (h : eachWord (fun b => s.admitted b .word .read) a regs.length = true) :
    ∃ vs e, readWords s a regs = .ok (vs, { s with draws := e }) ∧ vs.map Prod.fst = regs ∧
      ReadsWords s s.draws a (vs.map Prod.snd) e := by
  induction regs generalizing s a with
  | nil => exact ⟨[], s.draws, rfl, rfl, rfl⟩
  | cons r rest ih =>
    simp only [List.length_cons, eachWord, Bool.and_eq_true] at h
    cases ho : s.ordinary a .word .read with
    | true =>
      obtain ⟨vs, e, h1, h2, h3⟩ := ih s (a + 4#32) (aligned_next a ha) h.2
      refine ⟨(r, s.valueAt a .word) :: vs, e, ?_, by simp [h2], ?_⟩
      · simp [readWords, memRead_of_ordinary s a .word .read ha ho, h1]
      · simp [ReadsWords, ho, h3]
    | false =>
      obtain ⟨vs, e, h1, h2, h3⟩ := ih s.drawn (a + 4#32) (aligned_next a ha) h.2
      refine ⟨(r, Config.deviceRead s.draws a 4) :: vs, e, ?_, by simp [h2], ?_⟩
      · simp only [readWords, memRead_of_device s a .word .read ha h.1 ho, h1]
        rfl
      · simp only [List.map_cons, ReadsWords, ho, Bool.false_eq_true, if_false, true_and]
        exact (readsWords_draws s _ _ _ _ _).1 h3

/-- Reading words stops with `MemFault` at the first that the platform does not admit. -/
theorem readWords_of_unadmitted (s : State) (a : Word) (regs : List Reg) (j : Nat) (hj : j < regs.length)
    (ha : a.toNat % 4 = 0) (h : eachWord (fun b => s.admitted b .word .read) a j = true)
    (hd : s.admitted (a + BitVec.ofNat 32 (4 * j)) .word .read = false) :
    readWords s a regs = .error (.memFault (a + BitVec.ofNat 32 (4 * j)) .word .read) := by
  induction regs generalizing s a j with
  | nil => exact absurd hj (Nat.not_lt_zero j)
  | cons r rest ih =>
    cases j with
    | zero =>
      rw [Nat.mul_zero, BitVec.add_zero] at hd ⊢
      simp [readWords, memRead_of_unadmitted s a .word .read ha hd]
    | succ j =>
      simp only [eachWord, Bool.and_eq_true] at h
      rw [wordAddr_succ] at hd ⊢
      obtain ⟨v, e, hm⟩ := memRead_of_admitted s a .word .read ha h.1
      simp [readWords, hm, ih { s with draws := e } (a + 4#32) j (Nat.lt_of_succ_lt_succ hj) (aligned_next a ha) h.2 hd]

/-- Storing words stops with `MemFault` at the first that the platform does not admit. -/
theorem writeWords_of_unadmitted (s : State) (a : Word) (vs : List Word) (j : Nat) (hj : j < vs.length)
    (ha : a.toNat % 4 = 0) (h : eachWord (fun b => s.admitted b .word .write) a j = true)
    (hd : s.admitted (a + BitVec.ofNat 32 (4 * j)) .word .write = false) :
    writeWords s a vs = .error (.memFault (a + BitVec.ofNat 32 (4 * j)) .word .write) := by
  induction vs generalizing s a j with
  | nil => exact absurd hj (Nat.not_lt_zero j)
  | cons v rest ih =>
    cases j with
    | zero =>
      rw [Nat.mul_zero, BitVec.add_zero] at hd ⊢
      have : a.toNat % Size.word.bytes = 0 := ha
      simp [writeWords, memWrite, this, hd]
    | succ j =>
      simp only [eachWord, Bool.and_eq_true] at h
      rw [wordAddr_succ] at hd ⊢
      have hreg : (s.setValue a .word v).regions = s.regions := by
        rw [State.setValue_mem_only]
        rfl
      have hadm : ∀ b, (s.setValue a .word v).admitted b .word .write = s.admitted b .word .write := fun b => by
        rw [State.admitted, State.admitted, State.regionFor, State.regionFor, hreg]
      simp [writeWords, memWrite_of_admitted s a .word v ha h.1,
        ih (s.setValue a .word v) (a + 4#32) j (Nat.lt_of_succ_lt_succ hj) (aligned_next a ha)
          (by simpa only [hadm] using h.2) (by rw [hadm]; exact hd)]

/-- Writing registers changes the register file only. -/
theorem State.writeRegs_regs_only (s : State) (vs : List (Reg × Word)) :
    s.writeRegs vs = { s with regs := (s.writeRegs vs).regs } := by
  induction vs generalizing s with
  | nil => rfl
  | cons c rest ih =>
    obtain ⟨r, v⟩ := c
    rw [State.writeRegs, ih, State.writeReg_regs_only]

/-- A register that is not written reads as before. -/
theorem State.x_writeRegs_other (s : State) (vs : List (Reg × Word)) (r : Reg) (h : r ∉ vs.map Prod.fst) :
    (s.writeRegs vs).x r = s.x r := by
  induction vs generalizing s with
  | nil => rfl
  | cons c rest ih =>
    obtain ⟨q, v⟩ := c
    simp only [List.map_cons, List.mem_cons, not_or] at h
    rw [State.writeRegs, ih _ h.2, State.x_writeReg_other _ _ _ _ h.1]

/-- Different registers of the file read as what was written to them. -/
theorem State.x_writeRegs (s : State) (vs : List (Reg × Word)) (hn : (vs.map Prod.fst).Nodup)
    (hp : pcReg ∉ vs.map Prod.fst) : (vs.map Prod.fst).map (s.writeRegs vs).x = vs.map Prod.snd := by
  induction vs generalizing s with
  | nil => rfl
  | cons c rest ih =>
    obtain ⟨q, v⟩ := c
    simp only [List.map_cons, List.nodup_cons, List.mem_cons, not_or] at hn hp
    simp only [List.map_cons, State.writeRegs, List.cons.injEq]
    exact ⟨by rw [State.x_writeRegs_other _ _ _ hn.1, State.x_writeReg_self _ _ _ (Ne.symm hp.1)], ih _ hn.2 hp.2⟩

/-- Writing registers keeps every other one of every bank. -/
theorem State.keepsRegsBut_writeRegs (s : State) (vs : List (Reg × Word)) :
    KeepsRegsBut s (s.writeRegs vs) (vs.map Prod.fst) := by
  induction vs generalizing s with
  | nil => exact fun _ _ => rfl
  | cons c rest ih =>
    obtain ⟨q, v⟩ := c
    intro p hp
    rw [State.writeRegs, ih (s.writeReg q v) p (fun r hr => by simpa using hp r (by simp [hr])),
      State.keepsRegsBut_writeReg s q v p (fun r hr => hp r (by simp_all))]

/-- The registers of a list are different from each other. -/
theorem regList_nodup (l : BitVec 8) : (regList l).Nodup := by
  revert l
  decide

/-- The registers of a list are Lo registers. -/
theorem regList_lt (l : BitVec 8) : ∀ r ∈ regList l, r.toNat < 8 := by
  revert l
  decide

/-- No Hi register is in a list. -/
theorem not_mem_regList (l : BitVec 8) (r : Reg) (h : 8 ≤ r.toNat) : r ∉ regList l :=
  fun hr => absurd (regList_lt l r hr) (Nat.not_lt.2 h)

/-- A Lo register is in a list exactly when its bit is set. -/
theorem lo_mem_regList (l : BitVec 8) (f : LoReg) : lo f ∈ regList l ↔ l.getLsbD f.toNat = true := by
  revert l f
  decide

end Sys2Proof.Machine
end

