-- ==== Sys2Proof/Laws/Exec.lean ====
section
/-! SUPPORT. What the shapes of completion the meanings share leave behind: one lemma for each, in the words of Safety.lean. -/

namespace Sys2Proof.Machine

theorem KeepsControl.refl (p : Psr) : KeepsControl p p := ⟨rfl, rfl, rfl, rfl, rfl⟩

theorem Psr.keepsControl_setNZ (p : Psr) (r : Word) : KeepsControl p (p.setNZ r) := ⟨rfl, rfl, rfl, rfl, rfl⟩

theorem Psr.keepsControl_setNZC (p : Psr) (r : Word) (c : Bool) : KeepsControl p (p.setNZC r c) := ⟨rfl, rfl, rfl, rfl, rfl⟩

theorem Psr.keepsControl_setNZCV (p : Psr) (r : AddResult) : KeepsControl p (p.setNZCV r) := ⟨rfl, rfl, rfl, rfl, rfl⟩

theorem KeepsRegsBut.refl (s : State) (dests : List Reg) : KeepsRegsBut s s dests := fun _ _ => rfl

/-- A write of one register, of the status register and of the PC leaves everything else alone. -/
theorem leavesBut_write (s : State) (r : Reg) (v : Word) (p : Psr) (a : Word) (h : KeepsControl s.cpsr p) :
    LeavesBut s (((s.writeReg r v).withCpsr p).withPc a) [r] := by
  refine ⟨?_, ?_, ⟨?_, ?_, ?_⟩, h⟩
  · intro q hq
    simpa using State.keepsRegsBut_writeReg s r v q hq
  · intro b
    simp [State.byteAt]
  all_goals simp

/-- A write of the status register and of the PC leaves everything else alone. -/
theorem leavesBut_flags (s : State) (p : Psr) (a : Word) (h : KeepsControl s.cpsr p) :
    LeavesBut s ((s.withCpsr p).withPc a) [] :=
  ⟨fun _ _ => rfl, fun _ => rfl, ⟨rfl, rfl, rfl⟩, h⟩

/-- What an operand reads does not depend on the flags. -/
theorem State.x_withCpsr (s : State) (p : Psr) (r : Reg) (h : p.mode = s.cpsr.mode) : (s.withCpsr p).x r = s.x r :=
  State.x_congr s _ r (fun _ => rfl) h rfl

/-- What an operand but R15 reads does not depend on the PC. -/
theorem State.x_withPc (s : State) (a : Word) (r : Reg) (h : r ≠ pcReg) : (s.withPc a).x r = s.x r := by
  obtain ⟨p, hp⟩ := phys_of_ne s.cpsr.mode r h
  rw [State.x_of_phys _ r p hp, State.x_of_phys (s.withPc a) r p hp]
  rfl

/-- A data operation that writes a Lo register and flags completes unless it stands at the end of the address space. -/
theorem State.result_completes (s : State) (rd : LoReg) (v : Word) (p : Psr) (hpc : s.pc ≠ lastHalf)
    (h : KeepsControl s.cpsr p) :
    ∃ t, s.result rd v p = .next t ∧ t.x (lo rd) = v ∧ t.cpsr = p ∧ Advances s t [lo rd] := by
  refine ⟨((s.writeReg (lo rd) v).withCpsr p).withPc (s.pc + 2#32), ?_, ?_, rfl, ?_, ?_, leavesBut_write _ _ _ _ _ h⟩
  · rw [State.result, State.advance_of_ne _ (by simpa using hpc)]
    simp
  · rw [State.x_withPc _ _ _ (lo_ne_pcReg rd), State.x_withCpsr _ _ _ (by simpa using h.2.2.2.2),
      State.x_writeReg_self _ _ _ (lo_ne_pcReg rd)]
  · simp
  · simp

/-- A compare completes unless it stands at the end of the address space, and writes flags only. -/
theorem State.flagged_completes (s : State) (p : Psr) (hpc : s.pc ≠ lastHalf) (h : KeepsControl s.cpsr p) :
    ∃ t, s.flagged p = .next t ∧ t.cpsr = p ∧ Advances s t [] := by
  refine ⟨(s.withCpsr p).withPc (s.pc + 2#32), ?_, rfl, rfl, rfl, leavesBut_flags s p _ h⟩
  exact State.advance_of_ne (s.withCpsr p) hpc

/-- A write of a register other than R15 and the advance complete unless they stand at the end of the address space. -/
theorem State.writeReg_advance_completes (s : State) (r : Reg) (v : Word) (hr : r ≠ pcReg) (hpc : s.pc ≠ lastHalf) :
    ∃ t, (s.writeReg r v).advance = .next t ∧ t.x r = v ∧ t.cpsr = s.cpsr ∧ Advances s t [r] := by
  refine ⟨(s.writeReg r v).withPc (s.pc + 2#32), ?_, ?_, by simp, by simp, by simp, ?_⟩
  · rw [State.advance_of_ne _ (by simpa using hpc)]
    simp
  · rw [State.x_withPc _ _ _ hr, State.x_writeReg_self _ _ _ hr]
  · refine ⟨?_, ?_, ⟨?_, ?_, ?_⟩, ?_⟩
    · intro q hq
      simpa using State.keepsRegsBut_writeReg s r v q hq
    · intro b
      simp [State.byteAt]
    all_goals simp [KeepsControl]

/-- Format 5 with a destination other than R15 completes unless it stands at the end of the address space. -/
theorem State.assign_completes (s : State) (r : Reg) (v : Word) (hr : r ≠ pcReg) (hpc : s.pc ≠ lastHalf) :
    ∃ t, s.assign r v = .next t ∧ t.x r = v ∧ t.cpsr = s.cpsr ∧ Advances s t [r] := by
  rw [State.assign, if_neg hr]
  exact State.writeReg_advance_completes s r v hr hpc

theorem State.assign_pcReg (s : State) (v : Word) : s.assign pcReg v = .next (s.withPc (v &&& 0xFFFFFFFE#32)) := if_pos rfl

/-- A load from ordinary memory completes unless it stands at the end of the address space. -/
theorem loadInto_completes (s : State) (rd : Reg) (a : Word) (n : Size) (e : Word → Word) (hr : rd ≠ pcReg)
    (hpc : s.pc ≠ lastHalf) (ha : a.toNat % n.bytes = 0) (ho : s.ordinary a n .read = true) :
    ∃ t, loadInto s rd a n e = .next t ∧ t.x rd = e (s.valueAt a n) ∧ t.cpsr = s.cpsr ∧ Advances s t [rd] := by
  simp only [loadInto, memRead_of_ordinary s a n .read ha ho]
  exact State.writeReg_advance_completes s rd _ hr hpc

/-- A store to admitted memory completes unless it stands at the end of the address space. -/
theorem storeFrom_completes (s : State) (a : Word) (n : Size) (v : Word) (hpc : s.pc ≠ lastHalf)
    (ha : a.toNat % n.bytes = 0) (hd : s.admitted a n .write = true) :
    storeFrom s a n v = .next ((s.setValue a n v).withPc (s.pc + 2#32)) ∧
      StoresBut s ((s.setValue a n v).withPc (s.pc + 2#32)) [] a n.bytes := by
  constructor
  · simp only [storeFrom, memWrite_of_admitted s a n v ha hd]
    rw [State.setValue_mem_only, State.advance_of_ne _ (by simpa using hpc), State.withMem_pc]
  · refine ⟨?_, State.keepsMemoryBut_setValue s a n v, ?_, ?_, ?_⟩
    · rw [State.setValue_mem_only]
      exact fun _ _ => rfl
    all_goals rw [State.setValue_mem_only]
    exact ⟨rfl, rfl, rfl⟩
    all_goals rfl

/-- If a conditional branch completes, it went to its target or to the next halfword, and wrote nothing but the PC. -/
theorem State.branchIf_next (s t : State) (c : Cond) (o : BitVec 8) (h : s.branchIf c o = .next t) :
    (condHolds c s.cpsr = true ∧ t = s.withPc (s.pcAhead + branchOffset8 o)) ∨
      (condHolds c s.cpsr = false ∧ s.pc ≠ lastHalf ∧ t = s.withPc (s.pc + 2#32)) := by
  unfold State.branchIf at h
  split at h
  · rename_i hc
    injection h with h
    exact .inl ⟨hc, h.symm⟩
  · rename_i hc
    obtain ⟨h1, h2⟩ := State.advance_next _ _ h
    exact .inr ⟨by simpa using hc, h1, h2⟩

/-- If BX completes, it entered THUMB state at the address with bit 0 cleared, or ARM state at a word-aligned address. -/
theorem State.branchExchange_next (s t : State) (v : Word) (h : s.branchExchange v = .next t) :
    (v.getLsbD 0 = true ∧ t = (s.withCpsr { s.cpsr with t := true }).withPc (v &&& 0xFFFFFFFE#32)) ∨
      (v.getLsbD 0 = false ∧ v.getLsbD 1 = false ∧ t = (s.withCpsr { s.cpsr with t := false }).withPc v) := by
  unfold State.branchExchange State.exitToArm at h
  split at h
  · rename_i h0
    injection h with h
    exact .inl ⟨h0, h.symm⟩
  · rename_i h0
    split at h
    · cases h
    · rename_i h1
      injection h with h
      exact .inr ⟨by simpa using h0, by simpa using h1, h.symm⟩

/-- If a multiple store completes: its words were written, then the base, then the PC advanced. -/
theorem storeMultiple_next (s t : State) (base : Reg) (start newBase : Word) (regs : List Reg)
    (h : storeMultiple s base start newBase regs = .next t) :
    ∃ s', writeWords s start (regs.map s.x) = .ok s' ∧ s.pc ≠ lastHalf ∧
      t = (s'.writeReg base newBase).withPc (s.pc + 2#32) := by
  unfold storeMultiple at h
  split at h
  · cases h
  · rename_i s' hw
    obtain ⟨h1, h2⟩ := State.advance_next _ _ h
    have hs := (writeWords_state _ _ _ _ hw).1
    have hpc : s'.pc = s.pc := by
      rw [hs]
      rfl
    rw [State.writeReg_pc, hpc] at h1 h2
    exact ⟨s', hw, h1, h2⟩

/-- If a multiple load completes: its words were read, the registers and then the base written, and the PC advanced. -/
theorem loadMultiple_next (s t : State) (base : Reg) (start newBase : Word) (regs : List Reg)
    (h : loadMultiple s base start newBase regs = .next t) :
    ∃ vs s', readWords s start regs = .ok (vs, s') ∧ s.pc ≠ lastHalf ∧
      t = ((s'.writeRegs vs).writeReg base newBase).withPc (s.pc + 2#32) := by
  unfold loadMultiple at h
  split at h
  · cases h
  · rename_i vs s' hr
    obtain ⟨h1, h2⟩ := State.advance_next _ _ h
    obtain ⟨⟨d, hs⟩, -⟩ := readWords_state _ _ _ _ _ hr
    have hpc : (s'.writeRegs vs).pc = s.pc := by
      rw [State.writeRegs_regs_only, hs]
    rw [State.writeReg_pc, hpc] at h1 h2
    exact ⟨vs, s', hr, h1, h2⟩

/-- A multiple load of admitted words, of memory or of devices, completes unless it stands at the end of the address space:
the registers hold what was read, the base its new value, and nothing else changes but the count of draws. -/
theorem loadMultiple_completes (s : State) (base : Reg) (start newBase : Word) (regs : List Reg) (hpc : s.pc ≠ lastHalf)
    (hb : base ≠ pcReg) (hm : base ∉ regs) (hn : regs.Nodup) (hp : pcReg ∉ regs) (ha : start.toNat % 4 = 0)
    (h : eachWord (fun b => s.admitted b .word .read) start regs.length = true) :
    ∃ t, loadMultiple s base start newBase regs = .next t ∧ ReadsWords s s.draws start (regs.map t.x) t.draws ∧
      t.x base = newBase ∧ t.pc = s.pc + 2#32 ∧ t.cpsr = s.cpsr ∧ LeavesBut s t (base :: regs) := by
  obtain ⟨vs, e, h1, rfl, h3⟩ := readWords_of_admitted s start regs ha h
  have hkeep := State.writeRegs_regs_only { s with draws := e } vs
  have hdraws : (({ s with draws := e } : State).writeRegs vs).draws = e := by rw [hkeep]
  obtain ⟨t, k1, k2, k3, k4, k5, k6⟩ := State.writeReg_advance_completes (({ s with draws := e } : State).writeRegs vs) base
    newBase hb (by rw [hkeep]; exact hpc)
  have hother : (vs.map Prod.fst).map t.x = vs.map Prod.snd := by
    rw [← State.x_writeRegs { s with draws := e } vs hn hp]
    refine List.map_congr_left fun r hr => ?_
    rw [show t = ((({ s with draws := e } : State).writeRegs vs).writeReg base newBase).withPc
        ((({ s with draws := e } : State).writeRegs vs).pc + 2#32) by
      simpa using (State.advance_next _ _ k1).2]
    rw [State.x_withPc _ _ _ (fun hq => hp (hq ▸ hr)), State.x_writeReg_other _ base r _ (fun hq : r = base => hm (hq ▸ hr))]
  refine ⟨t, ?_, ?_, k2, ?_, ?_, ?_, ?_, ?_, ?_⟩
  · simp only [loadMultiple, h1]
    exact k1
  · rw [hother, k5, hdraws]
    exact h3
  · rw [k4, hkeep]
  · rw [k3, hkeep]
  · intro p hq
    rw [k6.1 p (by rw [hkeep]; exact fun r hr => hq r (List.mem_cons.2 (.inl (List.mem_singleton.1 hr))))]
    exact State.keepsRegsBut_writeRegs { s with draws := e } vs p (fun r hr => hq r (List.mem_cons_of_mem _ hr))
  · intro b
    rw [k6.2.1 b, hkeep]
    rfl
  · obtain ⟨q1, q2, q3⟩ := k6.2.2.1
    rw [hkeep] at q1 q2 q3
    exact ⟨q1, q2, q3⟩
  · have q := k6.2.2.2
    rw [hkeep] at q
    exact q

/-- If the fetch answers: the PC was even and admitted, and the state is the same but for the draw. -/
theorem fetch_ok (s t : State) (h : Half) (hf : fetch s = .ok (h, t)) :
    s.pc.toNat % 2 = 0 ∧ s.admitted s.pc .half .fetch = true ∧ (t = s ∨ t = s.drawn) := by
  unfold fetch at hf
  split at hf
  · cases hf
  · rename_i v s' hm
    injection hf with hf
    injection hf with h1 h2
    subst h2
    obtain ⟨ha, hd, hc⟩ := memRead_cases _ _ _ _ _ _ hm
    exact ⟨ha, hd, hc.imp And.right And.right⟩

end Sys2Proof.Machine
end

