-- ==== Sys2Proof/Laws/Operands.lean ====
section
/-! SUPPORT. Operand forms as numbers: cleared low bits, scaled immediates. -/

namespace Sys2Proof.Machine

theorem clearBit0_eq (v : Word) : v &&& 0xFFFFFFFE#32 = (v >>> 1) <<< 1 := by
  apply BitVec.eq_of_getLsbD_eq
  intro i hi
  have hm : (0xFFFFFFFE#32 : Word).getLsbD i = decide (1 ≤ i) := by
    revert i
    decide
  simp only [BitVec.getLsbD_and, hm, BitVec.getLsbD_shiftLeft, BitVec.getLsbD_ushiftRight, hi]
  by_cases h : 1 ≤ i
  · simp [h, Nat.add_sub_cancel' h]
    omega
  · simp [h]
    omega

theorem clearBits10_eq (v : Word) : v &&& 0xFFFFFFFC#32 = (v >>> 2) <<< 2 := by
  apply BitVec.eq_of_getLsbD_eq
  intro i hi
  have hm : (0xFFFFFFFC#32 : Word).getLsbD i = decide (2 ≤ i) := by
    revert i
    decide
  simp only [BitVec.getLsbD_and, hm, BitVec.getLsbD_shiftLeft, BitVec.getLsbD_ushiftRight, hi]
  by_cases h : 2 ≤ i
  · simp [h, Nat.add_sub_cancel' h]
    omega
  · simp [h]
    omega

/-- Clearing bit 0 rounds down to an even number. -/
theorem clearBit0_toNat (v : Word) : (v &&& 0xFFFFFFFE#32).toNat = v.toNat / 2 * 2 := by
  have := v.isLt
  rw [clearBit0_eq, BitVec.toNat_shiftLeft, BitVec.toNat_ushiftRight, Nat.shiftRight_eq_div_pow, Nat.shiftLeft_eq]
  omega

/-- Clearing bits 1 and 0 rounds down to a multiple of 4. -/
theorem clearBits10_toNat (v : Word) : (v &&& 0xFFFFFFFC#32).toNat = v.toNat / 4 * 4 := by
  have := v.isLt
  rw [clearBits10_eq, BitVec.toNat_shiftLeft, BitVec.toNat_ushiftRight, Nat.shiftRight_eq_div_pow, Nat.shiftLeft_eq]
  omega

theorem immWord8_eq (w : BitVec 8) : immWord8 w = BitVec.ofNat 32 (4 * w.toNat) := by
  have := w.isLt
  apply BitVec.eq_of_toNat_eq
  simp [immWord8, Nat.shiftLeft_eq]
  omega

theorem immWord5_eq (o : BitVec 5) : immWord5 o = BitVec.ofNat 32 (4 * o.toNat) := by
  have := o.isLt
  apply BitVec.eq_of_toNat_eq
  simp [immWord5, Nat.shiftLeft_eq]
  omega

theorem immHalf5_eq (o : BitVec 5) : immHalf5 o = BitVec.ofNat 32 (2 * o.toNat) := by
  have := o.isLt
  apply BitVec.eq_of_toNat_eq
  simp [immHalf5, Nat.shiftLeft_eq]
  omega

theorem immByte5_eq (o : BitVec 5) : immByte5 o = BitVec.ofNat 32 o.toNat := by
  apply BitVec.eq_of_toNat_eq
  simp [immByte5]

theorem immWord7_eq (w : BitVec 7) : immWord7 w = BitVec.ofNat 32 (4 * w.toNat) := by
  have := w.isLt
  apply BitVec.eq_of_toNat_eq
  simp [immWord7, Nat.shiftLeft_eq]
  omega

/-- A sign-extended field shifted left is the field's signed value times a power of two. -/
theorem signExtend_shiftLeft (w k : Nat) (o : BitVec w) : o.signExtend 32 <<< k = BitVec.ofInt 32 (2 ^ k * o.toInt) := by
  rw [BitVec.ofInt_mul, show BitVec.signExtend 32 o = BitVec.ofInt 32 o.toInt from rfl, BitVec.shiftLeft_eq_mul_twoPow,
    BitVec.mul_comm]
  congr 1
  apply BitVec.eq_of_toNat_eq
  rw [BitVec.toNat_twoPow, BitVec.toNat_ofInt]
  have hp : ((2 ^ k : Int) % ((2 ^ 32 : Nat) : Int)) = (((2 ^ k % 2 ^ 32 : Nat)) : Int) := by
    push_cast
    rfl
  rw [hp]
  rfl

theorem branchOffset8_eq (o : BitVec 8) : branchOffset8 o = BitVec.ofInt 32 (2 * o.toInt) := signExtend_shiftLeft 8 1 o

theorem branchOffset11_eq (o : BitVec 11) : branchOffset11 o = BitVec.ofInt 32 (2 * o.toInt) := signExtend_shiftLeft 11 1 o

theorem blOffsetHigh_eq (o : BitVec 11) : blOffsetHigh o = BitVec.ofInt 32 (4096 * o.toInt) := signExtend_shiftLeft 11 12 o

theorem blOffsetLow_eq (o : BitVec 11) : blOffsetLow o = BitVec.ofNat 32 (2 * o.toNat) := by
  have := o.isLt
  apply BitVec.eq_of_toNat_eq
  simp [blOffsetLow, Nat.shiftLeft_eq]
  omega

end Sys2Proof.Machine
end

