-- ==== Sys2Proof/Laws/PerInstr.lean ====
section
/-! SUPPORT. Families of statements about every instruction as a term: `EncodeInRow`. -/

/-- The halfword of a well-formed instruction lies in the instruction's own row of the opcode map (30_encoding.md R127). -/
def Sys2Proof.Laws.EncodeInRow.Statement (i : Sys2Proof.Instr) : Prop :=
  i.wellFormed = true → Sys2Proof.encode i &&& i.row.mask = i.row.pat

namespace Sys2Proof.Laws.EncodeInRow

theorem lslImm (rd : LoReg) (rs : LoReg) (offset5 : BitVec 5) : Statement (.lslImm rd rs offset5) := by
  intro _
  show (0b00000#5 ++ offset5 ++ rs ++ rd) &&& (0b11111#5 ++ 0#5 ++ 0#3 ++ 0#3) = 0b00000#5 ++ 0#5 ++ 0#3 ++ 0#3
  simp only [BitVec.and_append, BitVec.and_zero]
  rfl

theorem lsrImm (rd : LoReg) (rs : LoReg) (offset5 : BitVec 5) : Statement (.lsrImm rd rs offset5) := by
  intro _
  show (0b00001#5 ++ offset5 ++ rs ++ rd) &&& (0b11111#5 ++ 0#5 ++ 0#3 ++ 0#3) = 0b00001#5 ++ 0#5 ++ 0#3 ++ 0#3
  simp only [BitVec.and_append, BitVec.and_zero]
  rfl

theorem asrImm (rd : LoReg) (rs : LoReg) (offset5 : BitVec 5) : Statement (.asrImm rd rs offset5) := by
  intro _
  show (0b00010#5 ++ offset5 ++ rs ++ rd) &&& (0b11111#5 ++ 0#5 ++ 0#3 ++ 0#3) = 0b00010#5 ++ 0#5 ++ 0#3 ++ 0#3
  simp only [BitVec.and_append, BitVec.and_zero]
  rfl

theorem addReg (rd : LoReg) (rs : LoReg) (rn : LoReg) : Statement (.addReg rd rs rn) := by
  intro _
  show (0b0001100#7 ++ rn ++ rs ++ rd) &&& (0b1111111#7 ++ 0#3 ++ 0#3 ++ 0#3) = 0b0001100#7 ++ 0#3 ++ 0#3 ++ 0#3
  simp only [BitVec.and_append, BitVec.and_zero]
  rfl

theorem subReg (rd : LoReg) (rs : LoReg) (rn : LoReg) : Statement (.subReg rd rs rn) := by
  intro _
  show (0b0001101#7 ++ rn ++ rs ++ rd) &&& (0b1111111#7 ++ 0#3 ++ 0#3 ++ 0#3) = 0b0001101#7 ++ 0#3 ++ 0#3 ++ 0#3
  simp only [BitVec.and_append, BitVec.and_zero]
  rfl

theorem addImm3 (rd : LoReg) (rs : LoReg) (offset3 : BitVec 3) : Statement (.addImm3 rd rs offset3) := by
  intro _
  show (0b0001110#7 ++ offset3 ++ rs ++ rd) &&& (0b1111111#7 ++ 0#3 ++ 0#3 ++ 0#3) = 0b0001110#7 ++ 0#3 ++ 0#3 ++ 0#3
  simp only [BitVec.and_append, BitVec.and_zero]
  rfl

theorem subImm3 (rd : LoReg) (rs : LoReg) (offset3 : BitVec 3) : Statement (.subImm3 rd rs offset3) := by
  intro _
  show (0b0001111#7 ++ offset3 ++ rs ++ rd) &&& (0b1111111#7 ++ 0#3 ++ 0#3 ++ 0#3) = 0b0001111#7 ++ 0#3 ++ 0#3 ++ 0#3
  simp only [BitVec.and_append, BitVec.and_zero]
  rfl

theorem movImm8 (rd : LoReg) (offset8 : BitVec 8) : Statement (.movImm8 rd offset8) := by
  intro _
  show (0b00100#5 ++ rd ++ offset8) &&& (0b11111#5 ++ 0#3 ++ 0#8) = 0b00100#5 ++ 0#3 ++ 0#8
  simp only [BitVec.and_append, BitVec.and_zero]
  rfl

theorem cmpImm8 (rd : LoReg) (offset8 : BitVec 8) : Statement (.cmpImm8 rd offset8) := by
  intro _
  show (0b00101#5 ++ rd ++ offset8) &&& (0b11111#5 ++ 0#3 ++ 0#8) = 0b00101#5 ++ 0#3 ++ 0#8
  simp only [BitVec.and_append, BitVec.and_zero]
  rfl

theorem addImm8 (rd : LoReg) (offset8 : BitVec 8) : Statement (.addImm8 rd offset8) := by
  intro _
  show (0b00110#5 ++ rd ++ offset8) &&& (0b11111#5 ++ 0#3 ++ 0#8) = 0b00110#5 ++ 0#3 ++ 0#8
  simp only [BitVec.and_append, BitVec.and_zero]
  rfl

theorem subImm8 (rd : LoReg) (offset8 : BitVec 8) : Statement (.subImm8 rd offset8) := by
  intro _
  show (0b00111#5 ++ rd ++ offset8) &&& (0b11111#5 ++ 0#3 ++ 0#8) = 0b00111#5 ++ 0#3 ++ 0#8
  simp only [BitVec.and_append, BitVec.and_zero]
  rfl

theorem andReg (rd : LoReg) (rs : LoReg) : Statement (.andReg rd rs) := by
  intro _
  show (0b0100000000#10 ++ rs ++ rd) &&& (0b1111111111#10 ++ 0#3 ++ 0#3) = 0b0100000000#10 ++ 0#3 ++ 0#3
  simp only [BitVec.and_append, BitVec.and_zero]
  rfl

theorem eorReg (rd : LoReg) (rs : LoReg) : Statement (.eorReg rd rs) := by
  intro _
  show (0b0100000001#10 ++ rs ++ rd) &&& (0b1111111111#10 ++ 0#3 ++ 0#3) = 0b0100000001#10 ++ 0#3 ++ 0#3
  simp only [BitVec.and_append, BitVec.and_zero]
  rfl

theorem lslReg (rd : LoReg) (rs : LoReg) : Statement (.lslReg rd rs) := by
  intro _
  show (0b0100000010#10 ++ rs ++ rd) &&& (0b1111111111#10 ++ 0#3 ++ 0#3) = 0b0100000010#10 ++ 0#3 ++ 0#3
  simp only [BitVec.and_append, BitVec.and_zero]
  rfl

theorem lsrReg (rd : LoReg) (rs : LoReg) : Statement (.lsrReg rd rs) := by
  intro _
  show (0b0100000011#10 ++ rs ++ rd) &&& (0b1111111111#10 ++ 0#3 ++ 0#3) = 0b0100000011#10 ++ 0#3 ++ 0#3
  simp only [BitVec.and_append, BitVec.and_zero]
  rfl

theorem asrReg (rd : LoReg) (rs : LoReg) : Statement (.asrReg rd rs) := by
  intro _
  show (0b0100000100#10 ++ rs ++ rd) &&& (0b1111111111#10 ++ 0#3 ++ 0#3) = 0b0100000100#10 ++ 0#3 ++ 0#3
  simp only [BitVec.and_append, BitVec.and_zero]
  rfl

theorem adcReg (rd : LoReg) (rs : LoReg) : Statement (.adcReg rd rs) := by
  intro _
  show (0b0100000101#10 ++ rs ++ rd) &&& (0b1111111111#10 ++ 0#3 ++ 0#3) = 0b0100000101#10 ++ 0#3 ++ 0#3
  simp only [BitVec.and_append, BitVec.and_zero]
  rfl

theorem sbcReg (rd : LoReg) (rs : LoReg) : Statement (.sbcReg rd rs) := by
  intro _
  show (0b0100000110#10 ++ rs ++ rd) &&& (0b1111111111#10 ++ 0#3 ++ 0#3) = 0b0100000110#10 ++ 0#3 ++ 0#3
  simp only [BitVec.and_append, BitVec.and_zero]
  rfl

theorem rorReg (rd : LoReg) (rs : LoReg) : Statement (.rorReg rd rs) := by
  intro _
  show (0b0100000111#10 ++ rs ++ rd) &&& (0b1111111111#10 ++ 0#3 ++ 0#3) = 0b0100000111#10 ++ 0#3 ++ 0#3
  simp only [BitVec.and_append, BitVec.and_zero]
  rfl

theorem tstReg (rd : LoReg) (rs : LoReg) : Statement (.tstReg rd rs) := by
  intro _
  show (0b0100001000#10 ++ rs ++ rd) &&& (0b1111111111#10 ++ 0#3 ++ 0#3) = 0b0100001000#10 ++ 0#3 ++ 0#3
  simp only [BitVec.and_append, BitVec.and_zero]
  rfl

theorem negReg (rd : LoReg) (rs : LoReg) : Statement (.negReg rd rs) := by
  intro _
  show (0b0100001001#10 ++ rs ++ rd) &&& (0b1111111111#10 ++ 0#3 ++ 0#3) = 0b0100001001#10 ++ 0#3 ++ 0#3
  simp only [BitVec.and_append, BitVec.and_zero]
  rfl

theorem cmpReg (rd : LoReg) (rs : LoReg) : Statement (.cmpReg rd rs) := by
  intro _
  show (0b0100001010#10 ++ rs ++ rd) &&& (0b1111111111#10 ++ 0#3 ++ 0#3) = 0b0100001010#10 ++ 0#3 ++ 0#3
  simp only [BitVec.and_append, BitVec.and_zero]
  rfl

theorem cmnReg (rd : LoReg) (rs : LoReg) : Statement (.cmnReg rd rs) := by
  intro _
  show (0b0100001011#10 ++ rs ++ rd) &&& (0b1111111111#10 ++ 0#3 ++ 0#3) = 0b0100001011#10 ++ 0#3 ++ 0#3
  simp only [BitVec.and_append, BitVec.and_zero]
  rfl

theorem orrReg (rd : LoReg) (rs : LoReg) : Statement (.orrReg rd rs) := by
  intro _
  show (0b0100001100#10 ++ rs ++ rd) &&& (0b1111111111#10 ++ 0#3 ++ 0#3) = 0b0100001100#10 ++ 0#3 ++ 0#3
  simp only [BitVec.and_append, BitVec.and_zero]
  rfl

theorem mulReg (rd : LoReg) (rs : LoReg) : Statement (.mulReg rd rs) := by
  intro _
  show (0b0100001101#10 ++ rs ++ rd) &&& (0b1111111111#10 ++ 0#3 ++ 0#3) = 0b0100001101#10 ++ 0#3 ++ 0#3
  simp only [BitVec.and_append, BitVec.and_zero]
  rfl

theorem bicReg (rd : LoReg) (rs : LoReg) : Statement (.bicReg rd rs) := by
  intro _
  show (0b0100001110#10 ++ rs ++ rd) &&& (0b1111111111#10 ++ 0#3 ++ 0#3) = 0b0100001110#10 ++ 0#3 ++ 0#3
  simp only [BitVec.and_append, BitVec.and_zero]
  rfl

theorem mvnReg (rd : LoReg) (rs : LoReg) : Statement (.mvnReg rd rs) := by
  intro _
  show (0b0100001111#10 ++ rs ++ rd) &&& (0b1111111111#10 ++ 0#3 ++ 0#3) = 0b0100001111#10 ++ 0#3 ++ 0#3
  simp only [BitVec.and_append, BitVec.and_zero]
  rfl

theorem addRdHs (rd : LoReg) (hs : HiReg) : Statement (.addRdHs rd hs) := by
  intro _
  show (0b0100010001#10 ++ hs ++ rd) &&& (0b1111111111#10 ++ 0#3 ++ 0#3) = 0b0100010001#10 ++ 0#3 ++ 0#3
  simp only [BitVec.and_append, BitVec.and_zero]
  rfl

theorem addHdRs (hd : HiReg) (rs : LoReg) : Statement (.addHdRs hd rs) := by
  intro _
  show (0b0100010010#10 ++ rs ++ hd) &&& (0b1111111111#10 ++ 0#3 ++ 0#3) = 0b0100010010#10 ++ 0#3 ++ 0#3
  simp only [BitVec.and_append, BitVec.and_zero]
  rfl

theorem addHdHs (hd : HiReg) (hs : HiReg) : Statement (.addHdHs hd hs) := by
  intro _
  show (0b0100010011#10 ++ hs ++ hd) &&& (0b1111111111#10 ++ 0#3 ++ 0#3) = 0b0100010011#10 ++ 0#3 ++ 0#3
  simp only [BitVec.and_append, BitVec.and_zero]
  rfl

theorem cmpRdHs (rd : LoReg) (hs : HiReg) : Statement (.cmpRdHs rd hs) := by
  intro _
  show (0b0100010101#10 ++ hs ++ rd) &&& (0b1111111111#10 ++ 0#3 ++ 0#3) = 0b0100010101#10 ++ 0#3 ++ 0#3
  simp only [BitVec.and_append, BitVec.and_zero]
  rfl

theorem cmpHdRs (hd : HiReg) (rs : LoReg) : Statement (.cmpHdRs hd rs) := by
  intro _
  show (0b0100010110#10 ++ rs ++ hd) &&& (0b1111111111#10 ++ 0#3 ++ 0#3) = 0b0100010110#10 ++ 0#3 ++ 0#3
  simp only [BitVec.and_append, BitVec.and_zero]
  rfl

theorem cmpHdHs (hd : HiReg) (hs : HiReg) : Statement (.cmpHdHs hd hs) := by
  intro _
  show (0b0100010111#10 ++ hs ++ hd) &&& (0b1111111111#10 ++ 0#3 ++ 0#3) = 0b0100010111#10 ++ 0#3 ++ 0#3
  simp only [BitVec.and_append, BitVec.and_zero]
  rfl

theorem movRdHs (rd : LoReg) (hs : HiReg) : Statement (.movRdHs rd hs) := by
  intro _
  show (0b0100011001#10 ++ hs ++ rd) &&& (0b1111111111#10 ++ 0#3 ++ 0#3) = 0b0100011001#10 ++ 0#3 ++ 0#3
  simp only [BitVec.and_append, BitVec.and_zero]
  rfl

theorem movHdRs (hd : HiReg) (rs : LoReg) : Statement (.movHdRs hd rs) := by
  intro _
  show (0b0100011010#10 ++ rs ++ hd) &&& (0b1111111111#10 ++ 0#3 ++ 0#3) = 0b0100011010#10 ++ 0#3 ++ 0#3
  simp only [BitVec.and_append, BitVec.and_zero]
  rfl

theorem movHdHs (hd : HiReg) (hs : HiReg) : Statement (.movHdHs hd hs) := by
  intro _
  show (0b0100011011#10 ++ hs ++ hd) &&& (0b1111111111#10 ++ 0#3 ++ 0#3) = 0b0100011011#10 ++ 0#3 ++ 0#3
  simp only [BitVec.and_append, BitVec.and_zero]
  rfl

theorem bxRs (rs : LoReg) : Statement (.bxRs rs) := by
  intro _
  show (0b0100011100#10 ++ rs ++ 0b000#3) &&& (0b1111111111#10 ++ 0#3 ++ 0b111#3) = 0b0100011100#10 ++ 0#3 ++ 0b000#3
  simp only [BitVec.and_append, BitVec.and_zero]
  rfl

theorem bxHs (hs : HiReg) : Statement (.bxHs hs) := by
  intro _
  show (0b0100011101#10 ++ hs ++ 0b000#3) &&& (0b1111111111#10 ++ 0#3 ++ 0b111#3) = 0b0100011101#10 ++ 0#3 ++ 0b000#3
  simp only [BitVec.and_append, BitVec.and_zero]
  rfl

theorem ldrPc (rd : LoReg) (word8 : BitVec 8) : Statement (.ldrPc rd word8) := by
  intro _
  show (0b01001#5 ++ rd ++ word8) &&& (0b11111#5 ++ 0#3 ++ 0#8) = 0b01001#5 ++ 0#3 ++ 0#8
  simp only [BitVec.and_append, BitVec.and_zero]
  rfl

theorem strReg (rd : LoReg) (rb : LoReg) (ro : LoReg) : Statement (.strReg rd rb ro) := by
  intro _
  show (0b0101000#7 ++ ro ++ rb ++ rd) &&& (0b1111111#7 ++ 0#3 ++ 0#3 ++ 0#3) = 0b0101000#7 ++ 0#3 ++ 0#3 ++ 0#3
  simp only [BitVec.and_append, BitVec.and_zero]
  rfl

theorem strbReg (rd : LoReg) (rb : LoReg) (ro : LoReg) : Statement (.strbReg rd rb ro) := by
  intro _
  show (0b0101010#7 ++ ro ++ rb ++ rd) &&& (0b1111111#7 ++ 0#3 ++ 0#3 ++ 0#3) = 0b0101010#7 ++ 0#3 ++ 0#3 ++ 0#3
  simp only [BitVec.and_append, BitVec.and_zero]
  rfl

theorem ldrReg (rd : LoReg) (rb : LoReg) (ro : LoReg) : Statement (.ldrReg rd rb ro) := by
  intro _
  show (0b0101100#7 ++ ro ++ rb ++ rd) &&& (0b1111111#7 ++ 0#3 ++ 0#3 ++ 0#3) = 0b0101100#7 ++ 0#3 ++ 0#3 ++ 0#3
  simp only [BitVec.and_append, BitVec.and_zero]
  rfl

theorem ldrbReg (rd : LoReg) (rb : LoReg) (ro : LoReg) : Statement (.ldrbReg rd rb ro) := by
  intro _
  show (0b0101110#7 ++ ro ++ rb ++ rd) &&& (0b1111111#7 ++ 0#3 ++ 0#3 ++ 0#3) = 0b0101110#7 ++ 0#3 ++ 0#3 ++ 0#3
  simp only [BitVec.and_append, BitVec.and_zero]
  rfl

theorem strhReg (rd : LoReg) (rb : LoReg) (ro : LoReg) : Statement (.strhReg rd rb ro) := by
  intro _
  show (0b0101001#7 ++ ro ++ rb ++ rd) &&& (0b1111111#7 ++ 0#3 ++ 0#3 ++ 0#3) = 0b0101001#7 ++ 0#3 ++ 0#3 ++ 0#3
  simp only [BitVec.and_append, BitVec.and_zero]
  rfl

theorem ldsbReg (rd : LoReg) (rb : LoReg) (ro : LoReg) : Statement (.ldsbReg rd rb ro) := by
  intro _
  show (0b0101011#7 ++ ro ++ rb ++ rd) &&& (0b1111111#7 ++ 0#3 ++ 0#3 ++ 0#3) = 0b0101011#7 ++ 0#3 ++ 0#3 ++ 0#3
  simp only [BitVec.and_append, BitVec.and_zero]
  rfl

theorem ldrhReg (rd : LoReg) (rb : LoReg) (ro : LoReg) : Statement (.ldrhReg rd rb ro) := by
  intro _
  show (0b0101101#7 ++ ro ++ rb ++ rd) &&& (0b1111111#7 ++ 0#3 ++ 0#3 ++ 0#3) = 0b0101101#7 ++ 0#3 ++ 0#3 ++ 0#3
  simp only [BitVec.and_append, BitVec.and_zero]
  rfl

theorem ldshReg (rd : LoReg) (rb : LoReg) (ro : LoReg) : Statement (.ldshReg rd rb ro) := by
  intro _
  show (0b0101111#7 ++ ro ++ rb ++ rd) &&& (0b1111111#7 ++ 0#3 ++ 0#3 ++ 0#3) = 0b0101111#7 ++ 0#3 ++ 0#3 ++ 0#3
  simp only [BitVec.and_append, BitVec.and_zero]
  rfl

theorem strImm (rd : LoReg) (rb : LoReg) (offset5 : BitVec 5) : Statement (.strImm rd rb offset5) := by
  intro _
  show (0b01100#5 ++ offset5 ++ rb ++ rd) &&& (0b11111#5 ++ 0#5 ++ 0#3 ++ 0#3) = 0b01100#5 ++ 0#5 ++ 0#3 ++ 0#3
  simp only [BitVec.and_append, BitVec.and_zero]
  rfl

theorem ldrImm (rd : LoReg) (rb : LoReg) (offset5 : BitVec 5) : Statement (.ldrImm rd rb offset5) := by
  intro _
  show (0b01101#5 ++ offset5 ++ rb ++ rd) &&& (0b11111#5 ++ 0#5 ++ 0#3 ++ 0#3) = 0b01101#5 ++ 0#5 ++ 0#3 ++ 0#3
  simp only [BitVec.and_append, BitVec.and_zero]
  rfl

theorem strbImm (rd : LoReg) (rb : LoReg) (offset5 : BitVec 5) : Statement (.strbImm rd rb offset5) := by
  intro _
  show (0b01110#5 ++ offset5 ++ rb ++ rd) &&& (0b11111#5 ++ 0#5 ++ 0#3 ++ 0#3) = 0b01110#5 ++ 0#5 ++ 0#3 ++ 0#3
  simp only [BitVec.and_append, BitVec.and_zero]
  rfl

theorem ldrbImm (rd : LoReg) (rb : LoReg) (offset5 : BitVec 5) : Statement (.ldrbImm rd rb offset5) := by
  intro _
  show (0b01111#5 ++ offset5 ++ rb ++ rd) &&& (0b11111#5 ++ 0#5 ++ 0#3 ++ 0#3) = 0b01111#5 ++ 0#5 ++ 0#3 ++ 0#3
  simp only [BitVec.and_append, BitVec.and_zero]
  rfl

theorem strhImm (rd : LoReg) (rb : LoReg) (offset5 : BitVec 5) : Statement (.strhImm rd rb offset5) := by
  intro _
  show (0b10000#5 ++ offset5 ++ rb ++ rd) &&& (0b11111#5 ++ 0#5 ++ 0#3 ++ 0#3) = 0b10000#5 ++ 0#5 ++ 0#3 ++ 0#3
  simp only [BitVec.and_append, BitVec.and_zero]
  rfl

theorem ldrhImm (rd : LoReg) (rb : LoReg) (offset5 : BitVec 5) : Statement (.ldrhImm rd rb offset5) := by
  intro _
  show (0b10001#5 ++ offset5 ++ rb ++ rd) &&& (0b11111#5 ++ 0#5 ++ 0#3 ++ 0#3) = 0b10001#5 ++ 0#5 ++ 0#3 ++ 0#3
  simp only [BitVec.and_append, BitVec.and_zero]
  rfl

theorem strSp (rd : LoReg) (word8 : BitVec 8) : Statement (.strSp rd word8) := by
  intro _
  show (0b10010#5 ++ rd ++ word8) &&& (0b11111#5 ++ 0#3 ++ 0#8) = 0b10010#5 ++ 0#3 ++ 0#8
  simp only [BitVec.and_append, BitVec.and_zero]
  rfl

theorem ldrSp (rd : LoReg) (word8 : BitVec 8) : Statement (.ldrSp rd word8) := by
  intro _
  show (0b10011#5 ++ rd ++ word8) &&& (0b11111#5 ++ 0#3 ++ 0#8) = 0b10011#5 ++ 0#3 ++ 0#8
  simp only [BitVec.and_append, BitVec.and_zero]
  rfl

theorem addRdPc (rd : LoReg) (word8 : BitVec 8) : Statement (.addRdPc rd word8) := by
  intro _
  show (0b10100#5 ++ rd ++ word8) &&& (0b11111#5 ++ 0#3 ++ 0#8) = 0b10100#5 ++ 0#3 ++ 0#8
  simp only [BitVec.and_append, BitVec.and_zero]
  rfl

theorem addRdSp (rd : LoReg) (word8 : BitVec 8) : Statement (.addRdSp rd word8) := by
  intro _
  show (0b10101#5 ++ rd ++ word8) &&& (0b11111#5 ++ 0#3 ++ 0#8) = 0b10101#5 ++ 0#3 ++ 0#8
  simp only [BitVec.and_append, BitVec.and_zero]
  rfl

theorem addSpImm (sword7 : BitVec 7) : Statement (.addSpImm sword7) := by
  intro _
  show (0b101100000#9 ++ sword7) &&& (0b111111111#9 ++ 0#7) = 0b101100000#9 ++ 0#7
  simp only [BitVec.and_append, BitVec.and_zero]
  rfl

theorem addSpNegImm (sword7 : BitVec 7) : Statement (.addSpNegImm sword7) := by
  intro _
  show (0b101100001#9 ++ sword7) &&& (0b111111111#9 ++ 0#7) = 0b101100001#9 ++ 0#7
  simp only [BitVec.and_append, BitVec.and_zero]
  rfl

theorem push (rlist : BitVec 8) : Statement (.push rlist) := by
  intro _
  show (0b10110100#8 ++ rlist) &&& (0b11111111#8 ++ 0#8) = 0b10110100#8 ++ 0#8
  simp only [BitVec.and_append, BitVec.and_zero]
  rfl

theorem pushLr (rlist : BitVec 8) : Statement (.pushLr rlist) := by
  intro _
  show (0b10110101#8 ++ rlist) &&& (0b11111111#8 ++ 0#8) = 0b10110101#8 ++ 0#8
  simp only [BitVec.and_append, BitVec.and_zero]
  rfl

theorem pop (rlist : BitVec 8) : Statement (.pop rlist) := by
  intro _
  show (0b10111100#8 ++ rlist) &&& (0b11111111#8 ++ 0#8) = 0b10111100#8 ++ 0#8
  simp only [BitVec.and_append, BitVec.and_zero]
  rfl

theorem popPc (rlist : BitVec 8) : Statement (.popPc rlist) := by
  intro _
  show (0b10111101#8 ++ rlist) &&& (0b11111111#8 ++ 0#8) = 0b10111101#8 ++ 0#8
  simp only [BitVec.and_append, BitVec.and_zero]
  rfl

theorem stmia (rb : LoReg) (rlist : BitVec 8) : Statement (.stmia rb rlist) := by
  intro _
  show (0b11000#5 ++ rb ++ rlist) &&& (0b11111#5 ++ 0#3 ++ 0#8) = 0b11000#5 ++ 0#3 ++ 0#8
  simp only [BitVec.and_append, BitVec.and_zero]
  rfl

theorem ldmia (rb : LoReg) (rlist : BitVec 8) : Statement (.ldmia rb rlist) := by
  intro _
  show (0b11001#5 ++ rb ++ rlist) &&& (0b11111#5 ++ 0#3 ++ 0#8) = 0b11001#5 ++ 0#3 ++ 0#8
  simp only [BitVec.and_append, BitVec.and_zero]
  rfl

theorem beq (soffset8 : BitVec 8) : Statement (.beq soffset8) := by
  intro _
  show (0b11010000#8 ++ soffset8) &&& (0b11111111#8 ++ 0#8) = 0b11010000#8 ++ 0#8
  simp only [BitVec.and_append, BitVec.and_zero]
  rfl

theorem bne (soffset8 : BitVec 8) : Statement (.bne soffset8) := by
  intro _
  show (0b11010001#8 ++ soffset8) &&& (0b11111111#8 ++ 0#8) = 0b11010001#8 ++ 0#8
  simp only [BitVec.and_append, BitVec.and_zero]
  rfl

theorem bcs (soffset8 : BitVec 8) : Statement (.bcs soffset8) := by
  intro _
  show (0b11010010#8 ++ soffset8) &&& (0b11111111#8 ++ 0#8) = 0b11010010#8 ++ 0#8
  simp only [BitVec.and_append, BitVec.and_zero]
  rfl

theorem bcc (soffset8 : BitVec 8) : Statement (.bcc soffset8) := by
  intro _
  show (0b11010011#8 ++ soffset8) &&& (0b11111111#8 ++ 0#8) = 0b11010011#8 ++ 0#8
  simp only [BitVec.and_append, BitVec.and_zero]
  rfl

theorem bmi (soffset8 : BitVec 8) : Statement (.bmi soffset8) := by
  intro _
  show (0b11010100#8 ++ soffset8) &&& (0b11111111#8 ++ 0#8) = 0b11010100#8 ++ 0#8
  simp only [BitVec.and_append, BitVec.and_zero]
  rfl

theorem bpl (soffset8 : BitVec 8) : Statement (.bpl soffset8) := by
  intro _
  show (0b11010101#8 ++ soffset8) &&& (0b11111111#8 ++ 0#8) = 0b11010101#8 ++ 0#8
  simp only [BitVec.and_append, BitVec.and_zero]
  rfl

theorem bvs (soffset8 : BitVec 8) : Statement (.bvs soffset8) := by
  intro _
  show (0b11010110#8 ++ soffset8) &&& (0b11111111#8 ++ 0#8) = 0b11010110#8 ++ 0#8
  simp only [BitVec.and_append, BitVec.and_zero]
  rfl

theorem bvc (soffset8 : BitVec 8) : Statement (.bvc soffset8) := by
  intro _
  show (0b11010111#8 ++ soffset8) &&& (0b11111111#8 ++ 0#8) = 0b11010111#8 ++ 0#8
  simp only [BitVec.and_append, BitVec.and_zero]
  rfl

theorem bhi (soffset8 : BitVec 8) : Statement (.bhi soffset8) := by
  intro _
  show (0b11011000#8 ++ soffset8) &&& (0b11111111#8 ++ 0#8) = 0b11011000#8 ++ 0#8
  simp only [BitVec.and_append, BitVec.and_zero]
  rfl

theorem bls (soffset8 : BitVec 8) : Statement (.bls soffset8) := by
  intro _
  show (0b11011001#8 ++ soffset8) &&& (0b11111111#8 ++ 0#8) = 0b11011001#8 ++ 0#8
  simp only [BitVec.and_append, BitVec.and_zero]
  rfl

theorem bge (soffset8 : BitVec 8) : Statement (.bge soffset8) := by
  intro _
  show (0b11011010#8 ++ soffset8) &&& (0b11111111#8 ++ 0#8) = 0b11011010#8 ++ 0#8
  simp only [BitVec.and_append, BitVec.and_zero]
  rfl

theorem blt (soffset8 : BitVec 8) : Statement (.blt soffset8) := by
  intro _
  show (0b11011011#8 ++ soffset8) &&& (0b11111111#8 ++ 0#8) = 0b11011011#8 ++ 0#8
  simp only [BitVec.and_append, BitVec.and_zero]
  rfl

theorem bgt (soffset8 : BitVec 8) : Statement (.bgt soffset8) := by
  intro _
  show (0b11011100#8 ++ soffset8) &&& (0b11111111#8 ++ 0#8) = 0b11011100#8 ++ 0#8
  simp only [BitVec.and_append, BitVec.and_zero]
  rfl

theorem ble (soffset8 : BitVec 8) : Statement (.ble soffset8) := by
  intro _
  show (0b11011101#8 ++ soffset8) &&& (0b11111111#8 ++ 0#8) = 0b11011101#8 ++ 0#8
  simp only [BitVec.and_append, BitVec.and_zero]
  rfl

theorem swi (value8 : BitVec 8) : Statement (.swi value8) := by
  intro _
  show (0b11011111#8 ++ value8) &&& (0b11111111#8 ++ 0#8) = 0b11011111#8 ++ 0#8
  simp only [BitVec.and_append, BitVec.and_zero]
  rfl

theorem b (offset11 : BitVec 11) : Statement (.b offset11) := by
  intro _
  show (0b11100#5 ++ offset11) &&& (0b11111#5 ++ 0#11) = 0b11100#5 ++ 0#11
  simp only [BitVec.and_append, BitVec.and_zero]
  rfl

theorem blFirst (offset : BitVec 11) : Statement (.blFirst offset) := by
  intro _
  show (0b11110#5 ++ offset) &&& (0b11111#5 ++ 0#11) = 0b11110#5 ++ 0#11
  simp only [BitVec.and_append, BitVec.and_zero]
  rfl

theorem blSecond (offset : BitVec 11) : Statement (.blSecond offset) := by
  intro _
  show (0b11111#5 ++ offset) &&& (0b11111#5 ++ 0#11) = 0b11111#5 ++ 0#11
  simp only [BitVec.and_append, BitVec.and_zero]
  rfl

theorem undefAddLoLo (instr : Half) : Statement (.undefAddLoLo instr) := fun h => eq_of_beq h

theorem undefCmpLoLo (instr : Half) : Statement (.undefCmpLoLo instr) := fun h => eq_of_beq h

theorem undefMovLoLo (instr : Half) : Statement (.undefMovLoLo instr) := fun h => eq_of_beq h

theorem undefBxH1 (instr : Half) : Statement (.undefBxH1 instr) := fun h => eq_of_beq h

theorem undefBxLow1 (instr : Half) : Statement (.undefBxLow1 instr) := fun h => eq_of_beq h

theorem undefBxLow2 (instr : Half) : Statement (.undefBxLow2 instr) := fun h => eq_of_beq h

theorem undefBxLow3 (instr : Half) : Statement (.undefBxLow3 instr) := fun h => eq_of_beq h

theorem undefBxLow4 (instr : Half) : Statement (.undefBxLow4 instr) := fun h => eq_of_beq h

theorem undefBxLow5 (instr : Half) : Statement (.undefBxLow5 instr) := fun h => eq_of_beq h

theorem undefBxLow6 (instr : Half) : Statement (.undefBxLow6 instr) := fun h => eq_of_beq h

theorem undefBxLow7 (instr : Half) : Statement (.undefBxLow7 instr) := fun h => eq_of_beq h

theorem undefCond14 (instr : Half) : Statement (.undefCond14 instr) := fun h => eq_of_beq h

theorem unassignedB1 (instr : Half) : Statement (.unassignedB1 instr) := fun h => eq_of_beq h

theorem unassignedB2 (instr : Half) : Statement (.unassignedB2 instr) := fun h => eq_of_beq h

theorem unassignedB3 (instr : Half) : Statement (.unassignedB3 instr) := fun h => eq_of_beq h

theorem unassignedB6 (instr : Half) : Statement (.unassignedB6 instr) := fun h => eq_of_beq h

theorem unassignedB7 (instr : Half) : Statement (.unassignedB7 instr) := fun h => eq_of_beq h

theorem unassignedB8 (instr : Half) : Statement (.unassignedB8 instr) := fun h => eq_of_beq h

theorem unassignedB9 (instr : Half) : Statement (.unassignedB9 instr) := fun h => eq_of_beq h

theorem unassignedBA (instr : Half) : Statement (.unassignedBA instr) := fun h => eq_of_beq h

theorem unassignedBB (instr : Half) : Statement (.unassignedBB instr) := fun h => eq_of_beq h

theorem unassignedBE (instr : Half) : Statement (.unassignedBE instr) := fun h => eq_of_beq h

theorem unassignedBF (instr : Half) : Statement (.unassignedBF instr) := fun h => eq_of_beq h

theorem unassignedE8 (instr : Half) : Statement (.unassignedE8 instr) := fun h => eq_of_beq h

end Sys2Proof.Laws.EncodeInRow
end

