-- ==== Sys2Proof/Tests/Slice0.lean ====
section
/-! SUPPORT. The model's own tests: well-formedness, decoding, one worked vector of the spec for each instruction, the
assembler, and for each statement with hypotheses a state that meets them. Expected values are those of spec/. -/

namespace Sys2Proof.Tests

open Sys2Proof.Machine

/-! A small state -/

/-- Registers, flags (N, Z, C, V) and bytes of memory set; everything else as at reset. -/
def start (pc : Nat) (regs : List (Nat × Nat)) (nzcv : BitVec 4) (mem : List (Nat × Nat)) : State :=
  let p : Psr := { State.reset.cpsr with
    n := nzcv.getLsbD 3, z := nzcv.getLsbD 2, c := nzcv.getLsbD 1, v := nzcv.getLsbD 0 }
  let s := ((State.reset.withPc (BitVec.ofNat 32 pc)).withCpsr p).writeRegs
    (regs.map (fun q => (BitVec.ofNat 4 q.1, BitVec.ofNat 32 q.2)))
  mem.foldl (fun s c => s.setByte (BitVec.ofNat 32 c.1) (BitVec.ofNat 8 c.2)) s

/-- The N, Z, C and V flags as a number. -/
def flags (s : State) : BitVec 4 :=
  BitVec.ofBool s.cpsr.n ++ BitVec.ofBool s.cpsr.z ++ BitVec.ofBool s.cpsr.c ++ BitVec.ofBool s.cpsr.v

/-- The halfword, placed at the PC and run, ends in a state with these registers, flags, bytes and next address. -/
def ends (h : Nat) (s : State) (regs : List (Nat × Nat)) (nzcv : BitVec 4) (mem : List (Nat × Nat)) (pc : Nat) : Bool :=
  match step (s.withFetchWord 16 h) with
  | .next t =>
    regs.all (fun q => t.x (BitVec.ofNat 4 q.1) == BitVec.ofNat 32 q.2) &&
      mem.all (fun q => t.byteAt (BitVec.ofNat 32 q.1) == BitVec.ofNat 8 q.2) &&
      flags t == nzcv && t.pc == BitVec.ofNat 32 pc
  | _ => false

/-- The halfword, placed at the PC and run, stops with this fault. -/
def stops (h : Nat) (s : State) (f : Fault) : Bool :=
  match step (s.withFetchWord 16 h) with
  | .fault g => g == f
  | _ => false

/-! Well-formedness: a halfword outside its row is refused, one inside is not -/

theorem test_wellFormed_refuses :
    Instr.wellFormed (.undefAddLoLo 0x4440#16) = false ∧
      Instr.wellFormed (.undefCmpLoLo 0x4540#16) = false ∧
      Instr.wellFormed (.undefMovLoLo 0x4640#16) = false ∧
      Instr.wellFormed (.undefBxH1 0x4700#16) = false ∧
      Instr.wellFormed (.undefBxLow1 0x4702#16) = false ∧
      Instr.wellFormed (.undefBxLow2 0x4703#16) = false ∧
      Instr.wellFormed (.undefBxLow3 0x4704#16) = false ∧
      Instr.wellFormed (.undefBxLow4 0x4705#16) = false ∧
      Instr.wellFormed (.undefBxLow5 0x4706#16) = false ∧
      Instr.wellFormed (.undefBxLow6 0x4707#16) = false ∧
      Instr.wellFormed (.undefBxLow7 0x4700#16) = false ∧
      Instr.wellFormed (.undefCond14 0xdd00#16) = false ∧
      Instr.wellFormed (.unassignedB1 0xb000#16) = false ∧
      Instr.wellFormed (.unassignedB2 0xb000#16) = false ∧
      Instr.wellFormed (.unassignedB3 0xb000#16) = false ∧
      Instr.wellFormed (.unassignedB6 0xb000#16) = false ∧
      Instr.wellFormed (.unassignedB7 0xb000#16) = false ∧
      Instr.wellFormed (.unassignedB8 0xb000#16) = false ∧
      Instr.wellFormed (.unassignedB9 0xb000#16) = false ∧
      Instr.wellFormed (.unassignedBA 0xb000#16) = false ∧
      Instr.wellFormed (.unassignedBB 0xb000#16) = false ∧
      Instr.wellFormed (.unassignedBE 0xb000#16) = false ∧
      Instr.wellFormed (.unassignedBF 0xb000#16) = false ∧
      Instr.wellFormed (.unassignedE8 0xe000#16) = false := by decide

theorem test_wellFormed_admits :
    Instr.wellFormed (.undefAddLoLo 0x4400#16) = true ∧
      Instr.wellFormed (.undefCmpLoLo 0x4500#16) = true ∧
      Instr.wellFormed (.undefMovLoLo 0x4600#16) = true ∧
      Instr.wellFormed (.undefBxH1 0x4780#16) = true ∧
      Instr.wellFormed (.undefBxLow1 0x4701#16) = true ∧
      Instr.wellFormed (.undefBxLow2 0x4702#16) = true ∧
      Instr.wellFormed (.undefBxLow3 0x4703#16) = true ∧
      Instr.wellFormed (.undefBxLow4 0x4704#16) = true ∧
      Instr.wellFormed (.undefBxLow5 0x4705#16) = true ∧
      Instr.wellFormed (.undefBxLow6 0x4706#16) = true ∧
      Instr.wellFormed (.undefBxLow7 0x4707#16) = true ∧
      Instr.wellFormed (.undefCond14 0xde00#16) = true ∧
      Instr.wellFormed (.unassignedB1 0xb100#16) = true ∧
      Instr.wellFormed (.unassignedB2 0xb200#16) = true ∧
      Instr.wellFormed (.unassignedB3 0xb300#16) = true ∧
      Instr.wellFormed (.unassignedB6 0xb600#16) = true ∧
      Instr.wellFormed (.unassignedB7 0xb700#16) = true ∧
      Instr.wellFormed (.unassignedB8 0xb800#16) = true ∧
      Instr.wellFormed (.unassignedB9 0xb900#16) = true ∧
      Instr.wellFormed (.unassignedBA 0xba00#16) = true ∧
      Instr.wellFormed (.unassignedBB 0xbb00#16) = true ∧
      Instr.wellFormed (.unassignedBE 0xbe00#16) = true ∧
      Instr.wellFormed (.unassignedBF 0xbf00#16) = true ∧
      Instr.wellFormed (.unassignedE8 0xe800#16) = true := by decide

/-! Decoding, each word written out field by field from 30_encoding.md R101 to R119, R124, R125 and R134 -/

theorem test_decode_format1 :
    decodeHalf 0b000_00_00111_010_001#16 = .lslImm 1#3 2#3 7#5 ∧
      decodeHalf 0b000_01_11011_101_010#16 = .lsrImm 2#3 5#3 27#5 ∧
      decodeHalf 0b000_10_10000_111_100#16 = .asrImm 4#3 7#3 16#5 := by decide

theorem test_decode_format2 :
    decodeHalf 0b00011_0_0_100_011_000#16 = .addReg 0#3 3#3 4#3 ∧
      decodeHalf 0b00011_0_1_010_001_000#16 = .subReg 0#3 1#3 2#3 ∧
      decodeHalf 0b00011_1_0_111_010_001#16 = .addImm3 1#3 2#3 7#3 ∧
      decodeHalf 0b00011_1_1_110_010_110#16 = .subImm3 6#3 2#3 6#3 := by decide

theorem test_decode_format3 :
    decodeHalf 0b001_00_000_10000000#16 = .movImm8 0#3 128#8 ∧
      decodeHalf 0b001_01_010_00111110#16 = .cmpImm8 2#3 62#8 ∧
      decodeHalf 0b001_10_001_11111111#16 = .addImm8 1#3 255#8 ∧
      decodeHalf 0b001_11_110_10010001#16 = .subImm8 6#3 145#8 := by decide

theorem test_decode_format4 :
    decodeHalf 0b010000_0000_100_011#16 = .andReg 3#3 4#3 ∧
      decodeHalf 0b010000_0001_100_011#16 = .eorReg 3#3 4#3 ∧
      decodeHalf 0b010000_0010_100_011#16 = .lslReg 3#3 4#3 ∧
      decodeHalf 0b010000_0011_100_011#16 = .lsrReg 3#3 4#3 ∧
      decodeHalf 0b010000_0100_100_011#16 = .asrReg 3#3 4#3 ∧
      decodeHalf 0b010000_0101_100_011#16 = .adcReg 3#3 4#3 ∧
      decodeHalf 0b010000_0110_100_011#16 = .sbcReg 3#3 4#3 ∧
      decodeHalf 0b010000_0111_100_011#16 = .rorReg 3#3 4#3 ∧
      decodeHalf 0b010000_1000_100_011#16 = .tstReg 3#3 4#3 ∧
      decodeHalf 0b010000_1001_100_011#16 = .negReg 3#3 4#3 ∧
      decodeHalf 0b010000_1010_100_011#16 = .cmpReg 3#3 4#3 ∧
      decodeHalf 0b010000_1011_100_011#16 = .cmnReg 3#3 4#3 ∧
      decodeHalf 0b010000_1100_100_011#16 = .orrReg 3#3 4#3 ∧
      decodeHalf 0b010000_1101_100_011#16 = .mulReg 3#3 4#3 ∧
      decodeHalf 0b010000_1110_100_011#16 = .bicReg 3#3 4#3 ∧
      decodeHalf 0b010000_1111_100_011#16 = .mvnReg 3#3 4#3 := by decide

theorem test_decode_format5 :
    decodeHalf 0b010001_00_0_1_100_001#16 = .addRdHs 1#3 4#3 ∧
      decodeHalf 0b010001_00_1_0_101_111#16 = .addHdRs 7#3 5#3 ∧
      decodeHalf 0b010001_00_1_1_110_000#16 = .addHdHs 0#3 6#3 ∧
      decodeHalf 0b010001_01_0_1_100_001#16 = .cmpRdHs 1#3 4#3 ∧
      decodeHalf 0b010001_01_1_0_101_111#16 = .cmpHdRs 7#3 5#3 ∧
      decodeHalf 0b010001_01_1_1_110_000#16 = .cmpHdHs 0#3 6#3 ∧
      decodeHalf 0b010001_10_0_1_100_001#16 = .movRdHs 1#3 4#3 ∧
      decodeHalf 0b010001_10_1_0_101_111#16 = .movHdRs 7#3 5#3 ∧
      decodeHalf 0b010001_10_1_1_110_000#16 = .movHdHs 0#3 6#3 ∧
      decodeHalf 0b010001_11_0_0_001_000#16 = .bxRs 1#3 ∧
      decodeHalf 0b010001_11_0_1_110_000#16 = .bxHs 6#3 := by decide

theorem test_decode_format6 :
    decodeHalf 0b01001_011_11010011#16 = .ldrPc 3#3 211#8 := by decide

theorem test_decode_format7 :
    decodeHalf 0b0101_0_0_0_110_010_011#16 = .strReg 3#3 2#3 6#3 ∧
      decodeHalf 0b0101_0_1_0_110_010_011#16 = .strbReg 3#3 2#3 6#3 ∧
      decodeHalf 0b0101_1_0_0_110_010_011#16 = .ldrReg 3#3 2#3 6#3 ∧
      decodeHalf 0b0101_1_1_0_110_010_011#16 = .ldrbReg 3#3 2#3 6#3 := by decide

theorem test_decode_format8 :
    decodeHalf 0b0101_0_0_1_001_111_010#16 = .strhReg 2#3 7#3 1#3 ∧
      decodeHalf 0b0101_0_1_1_001_111_010#16 = .ldsbReg 2#3 7#3 1#3 ∧
      decodeHalf 0b0101_1_0_1_001_111_010#16 = .ldrhReg 2#3 7#3 1#3 ∧
      decodeHalf 0b0101_1_1_1_001_111_010#16 = .ldshReg 2#3 7#3 1#3 := by decide

theorem test_decode_format9 :
    decodeHalf 0b011_0_0_11101_101_010#16 = .strImm 2#3 5#3 29#5 ∧
      decodeHalf 0b011_0_1_11101_101_010#16 = .ldrImm 2#3 5#3 29#5 ∧
      decodeHalf 0b011_1_0_11101_101_010#16 = .strbImm 2#3 5#3 29#5 ∧
      decodeHalf 0b011_1_1_11101_101_010#16 = .ldrbImm 2#3 5#3 29#5 := by decide

theorem test_decode_format10 :
    decodeHalf 0b1000_0_11100_001_110#16 = .strhImm 6#3 1#3 28#5 ∧
      decodeHalf 0b1000_1_11100_001_110#16 = .ldrhImm 6#3 1#3 28#5 := by decide

theorem test_decode_format11 :
    decodeHalf 0b1001_0_100_01111011#16 = .strSp 4#3 123#8 ∧
      decodeHalf 0b1001_1_100_01111011#16 = .ldrSp 4#3 123#8 := by decide

theorem test_decode_format12 :
    decodeHalf 0b1010_0_110_00110101#16 = .addRdPc 6#3 53#8 ∧
      decodeHalf 0b1010_1_110_00110101#16 = .addRdSp 6#3 53#8 := by decide

theorem test_decode_format13 :
    decodeHalf 0b10110000_0_1000011#16 = .addSpImm 67#7 ∧
      decodeHalf 0b10110000_1_1000011#16 = .addSpNegImm 67#7 := by decide

theorem test_decode_format14 :
    decodeHalf 0b1011_0_10_0_00011111#16 = .push 0b00011111#8 ∧
      decodeHalf 0b1011_0_10_1_00011111#16 = .pushLr 0b00011111#8 ∧
      decodeHalf 0b1011_1_10_0_00011111#16 = .pop 0b00011111#8 ∧
      decodeHalf 0b1011_1_10_1_00011111#16 = .popPc 0b00011111#8 := by decide

theorem test_decode_format15 :
    decodeHalf 0b1100_0_000_11111000#16 = .stmia 0#3 0b11111000#8 ∧
      decodeHalf 0b1100_1_000_11111000#16 = .ldmia 0#3 0b11111000#8 := by decide

theorem test_decode_format16 :
    decodeHalf 0b1101_0000_11111110#16 = .beq 254#8 ∧
      decodeHalf 0b1101_0001_11111110#16 = .bne 254#8 ∧
      decodeHalf 0b1101_0010_11111110#16 = .bcs 254#8 ∧
      decodeHalf 0b1101_0011_11111110#16 = .bcc 254#8 ∧
      decodeHalf 0b1101_0100_11111110#16 = .bmi 254#8 ∧
      decodeHalf 0b1101_0101_11111110#16 = .bpl 254#8 ∧
      decodeHalf 0b1101_0110_11111110#16 = .bvs 254#8 ∧
      decodeHalf 0b1101_0111_11111110#16 = .bvc 254#8 ∧
      decodeHalf 0b1101_1000_11111110#16 = .bhi 254#8 ∧
      decodeHalf 0b1101_1001_11111110#16 = .bls 254#8 ∧
      decodeHalf 0b1101_1010_11111110#16 = .bge 254#8 ∧
      decodeHalf 0b1101_1011_11111110#16 = .blt 254#8 ∧
      decodeHalf 0b1101_1100_11111110#16 = .bgt 254#8 ∧
      decodeHalf 0b1101_1101_11111110#16 = .ble 254#8 := by decide

theorem test_decode_format17 :
    decodeHalf 0b11011111_00010010#16 = .swi 18#8 := by decide

theorem test_decode_format18 :
    decodeHalf 0b11100_11111111110#16 = .b 0x7FE#11 := by decide

theorem test_decode_format19 :
    decodeHalf 0b1111_0_11111111110#16 = .blFirst 0x7FE#11 ∧
      decodeHalf 0b1111_1_11111111110#16 = .blSecond 0x7FE#11 := by decide

theorem test_decode_rows_without_instruction :
    decodeHalf 0b010001_00_00_011_101#16 = .undefAddLoLo 0b010001_00_00_011_101#16 ∧
      decodeHalf 0b010001_01_00_011_101#16 = .undefCmpLoLo 0b010001_01_00_011_101#16 ∧
      decodeHalf 0b010001_10_00_011_101#16 = .undefMovLoLo 0b010001_10_00_011_101#16 ∧
      decodeHalf 0b010001_11_1_0_011_101#16 = .undefBxH1 0b010001_11_1_0_011_101#16 ∧
      decodeHalf 0b010001_11_00_011_001#16 = .undefBxLow1 0b010001_11_00_011_001#16 ∧
      decodeHalf 0b010001_11_00_011_010#16 = .undefBxLow2 0b010001_11_00_011_010#16 ∧
      decodeHalf 0b010001_11_00_011_011#16 = .undefBxLow3 0b010001_11_00_011_011#16 ∧
      decodeHalf 0b010001_11_00_011_100#16 = .undefBxLow4 0b010001_11_00_011_100#16 ∧
      decodeHalf 0b010001_11_00_011_101#16 = .undefBxLow5 0b010001_11_00_011_101#16 ∧
      decodeHalf 0b010001_11_00_011_110#16 = .undefBxLow6 0b010001_11_00_011_110#16 ∧
      decodeHalf 0b010001_11_00_011_111#16 = .undefBxLow7 0b010001_11_00_011_111#16 ∧
      decodeHalf 0b1101_1110_01011010#16 = .undefCond14 0b1101_1110_01011010#16 ∧
      decodeHalf 0b1011_0001_01011010#16 = .unassignedB1 0b1011_0001_01011010#16 ∧
      decodeHalf 0b1011_0010_01011010#16 = .unassignedB2 0b1011_0010_01011010#16 ∧
      decodeHalf 0b1011_0011_01011010#16 = .unassignedB3 0b1011_0011_01011010#16 ∧
      decodeHalf 0b1011_0110_01011010#16 = .unassignedB6 0b1011_0110_01011010#16 ∧
      decodeHalf 0b1011_0111_01011010#16 = .unassignedB7 0b1011_0111_01011010#16 ∧
      decodeHalf 0b1011_1000_01011010#16 = .unassignedB8 0b1011_1000_01011010#16 ∧
      decodeHalf 0b1011_1001_01011010#16 = .unassignedB9 0b1011_1001_01011010#16 ∧
      decodeHalf 0b1011_1010_01011010#16 = .unassignedBA 0b1011_1010_01011010#16 ∧
      decodeHalf 0b1011_1011_01011010#16 = .unassignedBB 0b1011_1011_01011010#16 ∧
      decodeHalf 0b1011_1110_01011010#16 = .unassignedBE 0b1011_1110_01011010#16 ∧
      decodeHalf 0b1011_1111_01011010#16 = .unassignedBF 0b1011_1111_01011010#16 ∧
      decodeHalf 0b11101_01101011010#16 = .unassignedE8 0b11101_01101011010#16 := by decide

theorem test_decode_truncated : decode false [0xFE#8] = .error .truncated := by decide

theorem test_decode_byte_orders : decode false [0xFE#8, 0xE7#8] = .ok (.b 0x7FE#11, []) ∧
    decode true [0xE7#8, 0xFE#8] = .ok (.b 0x7FE#11, []) := by decide

theorem test_decodeTableWord : decodeTableWord 16 0x4BD3 = some (.ldrPc 3#3 211#8) := by decide

/-! One vector for each instruction -/

/-- V56 of 95_test_vectors.md. -/
theorem test_lslImm :
    ends 0x07c8 (start 0x8000 [(1, 3)] 0b0000#4 [])
      [(0, 0x80000000)] 0b1010#4 [] 0x8002 = true := by decide

/-- V2 of 95_test_vectors.md. -/
theorem test_lsrImm :
    ends 0x0eea (start 0x8000 [(5, 0xc000000)] 0b0000#4 [])
      [(2, 1)] 0b0010#4 [] 0x8002 = true := by decide

/-- V67 of 95_test_vectors.md. -/
theorem test_asrImm :
    ends 0x17c2 (start 0x8000 [(0, 0xffffff9c)] 0b0000#4 [])
      [(2, 0xffffffff)] 0b1010#4 [] 0x8002 = true := by decide

/-- V3 of 95_test_vectors.md. -/
theorem test_addReg :
    ends 0x1918 (start 0x8000 [(3, 0x7fffffff), (4, 1)] 0b0000#4 [])
      [(0, 0x80000000)] 0b1001#4 [] 0x8002 = true := by decide

/-- V75 of 95_test_vectors.md. -/
theorem test_subReg :
    ends 0x1a88 (start 0x8000 [(1, 0), (2, 1)] 0b0010#4 [])
      [(0, 0xffffffff)] 0b1000#4 [] 0x8002 = true := by decide

/-- V72 of 95_test_vectors.md. -/
theorem test_addImm3 :
    ends 0x1c08 (start 0x8000 [(1, 0x80000000)] 0b0011#4 [])
      [(0, 0x80000000)] 0b1000#4 [] 0x8002 = true := by decide

/-- V4 of 95_test_vectors.md. -/
theorem test_subImm3 :
    ends 0x1f96 (start 0x8000 [(2, 5)] 0b0000#4 [])
      [(6, 0xffffffff)] 0b1000#4 [] 0x8002 = true := by decide

/-- V5 of 95_test_vectors.md. -/
theorem test_movImm8 :
    ends 0x2080 (start 0x8000 [(0, 0xffffffff)] 0b1011#4 [])
      [(0, 0x80)] 0b0011#4 [] 0x8002 = true := by decide

/-- V6 of 95_test_vectors.md. -/
theorem test_cmpImm8 :
    ends 0x2a3e (start 0x8000 [(2, 0x3e)] 0b0000#4 [])
      [] 0b0110#4 [] 0x8002 = true := by decide

/-- V87 of 95_test_vectors.md. -/
theorem test_addImm8 :
    ends 0x31ff (start 0x8000 [(1, 0x7fffff01)] 0b0000#4 [])
      [(1, 0x80000000)] 0b1001#4 [] 0x8002 = true := by decide

/-- V8 of 95_test_vectors.md. -/
theorem test_subImm8 :
    ends 0x3e91 (start 0x8000 [(6, 0x64)] 0b0000#4 [])
      [(6, 0xffffffd3)] 0b1000#4 [] 0x8002 = true := by decide

/-- V93 of 95_test_vectors.md. -/
theorem test_andReg :
    ends 0x4008 (start 0x8000 [(0, 0xffff0000), (1, 0x80000001)] 0b0000#4 [])
      [(0, 0x80000000)] 0b1000#4 [] 0x8002 = true := by decide

/-- V9 of 95_test_vectors.md. -/
theorem test_eorReg :
    ends 0x4063 (start 0x8000 [(3, 0xff00ff00), (4, 0xff00ff0)] 0b0011#4 [])
      [(3, 0xf0f0f0f0)] 0b1011#4 [] 0x8002 = true := by decide

/-- V97 of 95_test_vectors.md. -/
theorem test_lslReg :
    ends 0x4088 (start 0x8000 [(0, 3), (1, 0x1f)] 0b0000#4 [])
      [(0, 0x80000000)] 0b1010#4 [] 0x8002 = true := by decide

/-- V105 of 95_test_vectors.md. -/
theorem test_lsrReg :
    ends 0x40c8 (start 0x8000 [(0, 0x80000001), (1, 1)] 0b0000#4 [])
      [(0, 0x40000000)] 0b0010#4 [] 0x8002 = true := by decide

/-- V109 of 95_test_vectors.md. -/
theorem test_asrReg :
    ends 0x4108 (start 0x8000 [(0, 0x80000004), (1, 3)] 0b0000#4 [])
      [(0, 0xf0000000)] 0b1010#4 [] 0x8002 = true := by decide

/-- V114 of 95_test_vectors.md. -/
theorem test_adcReg :
    ends 0x4148 (start 0x8000 [(0, 0x7fffffff), (1, 0)] 0b0010#4 [])
      [(0, 0x80000000)] 0b1001#4 [] 0x8002 = true := by decide

/-- V118 of 95_test_vectors.md. -/
theorem test_sbcReg :
    ends 0x4188 (start 0x8000 [(0, 0), (1, 0)] 0b0000#4 [])
      [(0, 0xffffffff)] 0b1000#4 [] 0x8002 = true := by decide

/-- V122 of 95_test_vectors.md. -/
theorem test_rorReg :
    ends 0x41c8 (start 0x8000 [(0, 1), (1, 1)] 0b0000#4 [])
      [(0, 0x80000000)] 0b1010#4 [] 0x8002 = true := by decide

/-- V127 of 95_test_vectors.md. -/
theorem test_tstReg :
    ends 0x4208 (start 0x8000 [(0, 0x80000000), (1, 0xffffffff)] 0b0011#4 [])
      [] 0b1011#4 [] 0x8002 = true := by decide

/-- V11 of 95_test_vectors.md. -/
theorem test_negReg :
    ends 0x425d (start 0x8000 [(3, 1)] 0b0000#4 [])
      [(5, 0xffffffff)] 0b1000#4 [] 0x8002 = true := by decide

/-- V12 of 95_test_vectors.md. -/
theorem test_cmpReg :
    ends 0x42b2 (start 0x8000 [(2, 3), (6, 5)] 0b0000#4 [])
      [] 0b1000#4 [] 0x8002 = true := by decide

/-- V135 of 95_test_vectors.md. -/
theorem test_cmnReg :
    ends 0x42c8 (start 0x8000 [(0, 1), (1, 0xffffffff)] 0b0000#4 [])
      [] 0b0110#4 [] 0x8002 = true := by decide

/-- V137 of 95_test_vectors.md. -/
theorem test_orrReg :
    ends 0x4308 (start 0x8000 [(0, 0x80000000), (1, 1)] 0b0011#4 [])
      [(0, 0x80000001)] 0b1011#4 [] 0x8002 = true := by decide

/-- V143 of 95_test_vectors.md. -/
theorem test_bicReg :
    ends 0x4388 (start 0x8000 [(0, 0xffffffff), (1, 0xffff)] 0b0011#4 [])
      [(0, 0xffff0000)] 0b1011#4 [] 0x8002 = true := by decide

/-- V145 of 95_test_vectors.md. -/
theorem test_mvnReg :
    ends 0x43c8 (start 0x8000 [(1, 0)] 0b0011#4 [])
      [(0, 0xffffffff)] 0b1011#4 [] 0x8002 = true := by decide

/-- V150 of 95_test_vectors.md. -/
theorem test_addRdHs :
    ends 0x4478 (start 0x8002 [(0, 0x10)] 0b0000#4 [])
      [(0, 0x8016)] 0b0000#4 [] 0x8004 = true := by decide

/-- V148 of 95_test_vectors.md. -/
theorem test_addHdRs :
    ends 0x4480 (start 0x8000 [(0, 5), (8, 0x100)] 0b0110#4 [])
      [(8, 0x105)] 0b0110#4 [] 0x8002 = true := by decide

/-- V149 of 95_test_vectors.md. -/
theorem test_addHdHs :
    ends 0x44c8 (start 0x8000 [(8, 0x7fffffff), (9, 1)] 0b0000#4 [])
      [(8, 0x80000000)] 0b0000#4 [] 0x8002 = true := by decide

/-- V15 of 95_test_vectors.md. -/
theorem test_cmpRdHs :
    ends 0x4564 (start 0x8000 [(4, 0x10), (0xc, 0x20)] 0b0000#4 [])
      [] 0b1000#4 [] 0x8002 = true := by decide

/-- V156 of 95_test_vectors.md. -/
theorem test_cmpHdRs :
    ends 0x4580 (start 0x8000 [(0, 1), (8, 0x80000000)] 0b0000#4 [])
      [] 0b0011#4 [] 0x8002 = true := by decide

/-- V157 of 95_test_vectors.md. -/
theorem test_cmpHdHs :
    ends 0x45c8 (start 0x8000 [(8, 1), (9, 2)] 0b0000#4 [])
      [] 0b1000#4 [] 0x8002 = true := by decide

/-- V160 of 95_test_vectors.md. -/
theorem test_movRdHs :
    ends 0x4640 (start 0x8000 [(8, 0x80000000)] 0b0100#4 [])
      [(0, 0x80000000)] 0b0100#4 [] 0x8002 = true := by decide

/-- V165 of 95_test_vectors.md. -/
theorem test_movHdRs :
    ends 0x4685 (start 0x8000 [(0, 0x20000)] 0b0000#4 [])
      [(0xd, 0x20000)] 0b0000#4 [] 0x8002 = true := by decide

/-- V16 of 95_test_vectors.md. -/
theorem test_movHdHs :
    ends 0x46f7 (start 0x8000 [(0xe, 0x9001)] 0b0000#4 [])
      [] 0b0000#4 [] 0x9000 = true := by decide

/-- V169 of 95_test_vectors.md. -/
theorem test_bxRs :
    ends 0x4700 (start 0x8000 [(0, 0x9001)] 0b1010#4 [])
      [] 0b1010#4 [] 0x9000 = true := by decide

/-- V18 of 95_test_vectors.md. -/
theorem test_bxHs :
    ends 0x4758 (start 0x8000 [(0xb, 0x8101)] 0b0000#4 [])
      [] 0b0000#4 [] 0x8100 = true := by decide

/-- V19 of 95_test_vectors.md. -/
theorem test_ldrPc :
    ends 0x4bd3 (start 0x8000 [] 0b0000#4 [(0x8350, 0xd), (0x8351, 0xf0), (0x8352, 0xfe), (0x8353, 0xca)])
      [(3, 0xcafef00d)] 0b0000#4 [] 0x8002 = true := by decide

/-- V21 of 95_test_vectors.md. -/
theorem test_strReg :
    ends 0x5193 (start 0x8000 [(2, 0x10000), (3, 0xa1b2c3d4), (6, 8)] 0b0000#4 [])
      [] 0b0000#4 [(0x10008, 0xd4), (0x10009, 0xc3), (0x1000a, 0xb2), (0x1000b, 0xa1)] 0x8002 = true := by decide

/-- V191 of 95_test_vectors.md. -/
theorem test_strbReg :
    ends 0x5488 (start 0x8000 [(0, 0xa1b2c3d4), (1, 0x10000), (2, 3)] 0b0000#4 [])
      [] 0b0000#4 [(0x10003, 0xd4)] 0x8002 = true := by decide

/-- V192 of 95_test_vectors.md. -/
theorem test_ldrReg :
    ends 0x5888 (start 0x8000 [(1, 0x10000), (2, 4)] 0b0000#4 [(0x10004, 0xef), (0x10005, 0xcd), (0x10006, 0xab), (0x10007, 0x89)])
      [(0, 0x89abcdef)] 0b0000#4 [] 0x8002 = true := by decide

/-- V22 of 95_test_vectors.md. -/
theorem test_ldrbReg :
    ends 0x5dc2 (start 0x8000 [(0, 0x10000), (2, 0xffffffff), (7, 3)] 0b0000#4 [(0x10000, 0xc3), (0x10001, 0xb2), (0x10002, 0xa1), (0x10003, 0x80)])
      [(2, 0x80)] 0b0000#4 [] 0x8002 = true := by decide

/-- V23 of 95_test_vectors.md. -/
theorem test_strhReg :
    ends 0x521c (start 0x8000 [(0, 2), (3, 0x10000), (4, 0x1234abcd)] 0b0000#4 [])
      [] 0b0000#4 [(0x10002, 0xcd), (0x10003, 0xab)] 0x8002 = true := by decide

/-- V24 of 95_test_vectors.md. -/
theorem test_ldsbReg :
    ends 0x567a (start 0x8000 [(1, 1), (7, 0x10000)] 0b0000#4 [(0x10001, 0x80)])
      [(2, 0xffffff80)] 0b0000#4 [] 0x8002 = true := by decide

/-- V200 of 95_test_vectors.md. -/
theorem test_ldrhReg :
    ends 0x5a88 (start 0x8000 [(0, 0xffffffff), (1, 0x10000), (2, 2)] 0b0000#4 [(0x10002, 1), (0x10003, 0x80)])
      [(0, 0x8001)] 0b0000#4 [] 0x8002 = true := by decide

/-- V25 of 95_test_vectors.md. -/
theorem test_ldshReg :
    ends 0x5ea3 (start 0x8000 [(2, 2), (4, 0x10000)] 0b0000#4 [(0x10002, 1), (0x10003, 0x80)])
      [(3, 0xffff8001)] 0b0000#4 [] 0x8002 = true := by decide

/-- V207 of 95_test_vectors.md. -/
theorem test_strImm :
    ends 0x6008 (start 0x8000 [(0, 0x1020304), (1, 0x10000)] 0b0000#4 [])
      [] 0b0000#4 [(0x10000, 4), (0x10001, 3), (0x10002, 2), (0x10003, 1)] 0x8002 = true := by decide

/-- V26 of 95_test_vectors.md. -/
theorem test_ldrImm :
    ends 0x6f6a (start 0x8000 [(5, 0x10000)] 0b0000#4 [(0x10074, 0x44), (0x10075, 0x33), (0x10076, 0x22), (0x10077, 0x11)])
      [(2, 0x11223344)] 0b0000#4 [] 0x8002 = true := by decide

/-- V27 of 95_test_vectors.md. -/
theorem test_strbImm :
    ends 0x7341 (start 0x8000 [(0, 0x10000), (1, 0xaabbccdd)] 0b0000#4 [])
      [] 0b0000#4 [(0x1000d, 0xdd)] 0x8002 = true := by decide

/-- V212 of 95_test_vectors.md. -/
theorem test_ldrbImm :
    ends 0x7808 (start 0x8000 [(0, 0xffffffff), (1, 0x10003)] 0b0000#4 [(0x10003, 0x80)])
      [(0, 0x80)] 0b0000#4 [] 0x8002 = true := by decide

/-- V28 of 95_test_vectors.md. -/
theorem test_strhImm :
    ends 0x870e (start 0x8000 [(1, 0x10000), (4, 0x99999999), (6, 0x55667788)] 0b0000#4 [])
      [] 0b0000#4 [(0x10038, 0x88), (0x10039, 0x77)] 0x8002 = true := by decide

/-- V29 of 95_test_vectors.md. -/
theorem test_ldrhImm :
    ends 0x88bc (start 0x8000 [(7, 0x10000)] 0b0000#4 [(0x10004, 0xdc), (0x10005, 0xfe)])
      [(4, 0xfedc)] 0b0000#4 [] 0x8002 = true := by decide

/-- V30 of 95_test_vectors.md. -/
theorem test_strSp :
    ends 0x947b (start 0x8000 [(4, 0xdeadbeef), (0xd, 0x20000)] 0b0000#4 [])
      [] 0b0000#4 [(0x201ec, 0xef), (0x201ed, 0xbe), (0x201ee, 0xad), (0x201ef, 0xde)] 0x8002 = true := by decide

/-- V217 of 95_test_vectors.md. -/
theorem test_ldrSp :
    ends 0x98ff (start 0x8000 [(0xd, 0x20000)] 0b0000#4 [(0x203fc, 0x77), (0x203fd, 0x77), (0x203fe, 0x77), (0x203ff, 0x77)])
      [(0, 0x77777777)] 0b0000#4 [] 0x8002 = true := by decide

/-- V31 of 95_test_vectors.md. -/
theorem test_addRdPc :
    ends 0xa28f (start 0x8000 [] 0b0000#4 [])
      [(2, 0x8240)] 0b0000#4 [] 0x8002 = true := by decide

/-- V33 of 95_test_vectors.md. -/
theorem test_addRdSp :
    ends 0xae35 (start 0x8000 [(0xd, 0x20000)] 0b1111#4 [])
      [(6, 0x200d4)] 0b1111#4 [] 0x8002 = true := by decide

/-- V34 of 95_test_vectors.md. -/
theorem test_addSpImm :
    ends 0xb043 (start 0x8000 [(0xd, 0x20000)] 0b0000#4 [])
      [(0xd, 0x2010c)] 0b0000#4 [] 0x8002 = true := by decide

/-- V228 of 95_test_vectors.md. -/
theorem test_addSpNegImm :
    ends 0xb082 (start 0x8000 [(0xd, 4)] 0b0000#4 [])
      [(0xd, 0xfffffffc)] 0b0000#4 [] 0x8002 = true := by decide

/-- V229 of 95_test_vectors.md. -/
theorem test_push :
    ends 0xb405 (start 0x8000 [(0, 0xffffffff), (2, 0), (0xd, 0x20000)] 0b0000#4 [])
      [(0xd, 0x1fff8)] 0b0000#4 [(0x1fff8, 0xff), (0x1fff9, 0xff), (0x1fffa, 0xff), (0x1fffb, 0xff), (0x1fffc, 0), (0x1fffd, 0), (0x1fffe, 0), (0x1ffff, 0)] 0x8002 = true := by decide

/-- V36 of 95_test_vectors.md. -/
theorem test_pushLr :
    ends 0xb51f (start 0x8000 [(0, 0xa0), (1, 0xa1), (2, 0xa2), (3, 0xa3), (4, 0xa4), (0xd, 0x20000), (0xe, 0x8125)] 0b0000#4 [])
      [(0xd, 0x1ffe8)] 0b0000#4 [(0x1ffe8, 0xa0), (0x1ffe9, 0), (0x1ffea, 0), (0x1ffeb, 0), (0x1ffec, 0xa1), (0x1ffed, 0), (0x1ffee, 0), (0x1ffef, 0), (0x1fff0, 0xa2), (0x1fff1, 0), (0x1fff2, 0), (0x1fff3, 0), (0x1fff4, 0xa3), (0x1fff5, 0), (0x1fff6, 0), (0x1fff7, 0), (0x1fff8, 0xa4), (0x1fff9, 0), (0x1fffa, 0), (0x1fffb, 0), (0x1fffc, 0x25), (0x1fffd, 0x81), (0x1fffe, 0), (0x1ffff, 0)] 0x8002 = true := by decide

/-- V234 of 95_test_vectors.md. -/
theorem test_pop :
    ends 0xbc0c (start 0x8000 [(0xd, 0x1fff8)] 0b0000#4 [(0x1fff8, 0xff), (0x1fff9, 0xff), (0x1fffa, 0xff), (0x1fffb, 0xff), (0x1fffc, 0), (0x1fffd, 0), (0x1fffe, 0), (0x1ffff, 0)])
      [(2, 0xffffffff), (3, 0), (0xd, 0x20000)] 0b0000#4 [] 0x8002 = true := by decide

/-- V37 of 95_test_vectors.md. -/
theorem test_popPc :
    ends 0xbd44 (start 0x8000 [(0xd, 0x1fff4)] 0b0000#4 [(0x1fff4, 0x22), (0x1fff5, 0), (0x1fff6, 0), (0x1fff7, 0), (0x1fff8, 0x66), (0x1fff9, 0), (0x1fffa, 0), (0x1fffb, 0), (0x1fffc, 0x25), (0x1fffd, 0x81), (0x1fffe, 0), (0x1ffff, 0)])
      [(2, 0x22), (6, 0x66), (0xd, 0x20000)] 0b0000#4 [] 0x8124 = true := by decide

/-- V38 of 95_test_vectors.md. -/
theorem test_stmia :
    ends 0xc0f8 (start 0x8000 [(0, 0x10000), (3, 0x33), (4, 0x44), (5, 0x55), (6, 0x66), (7, 0x77)] 0b0000#4 [])
      [(0, 0x10014)] 0b0000#4 [(0x10000, 0x33), (0x10001, 0), (0x10002, 0), (0x10003, 0), (0x10004, 0x44), (0x10005, 0), (0x10006, 0), (0x10007, 0), (0x10008, 0x55), (0x10009, 0), (0x1000a, 0), (0x1000b, 0), (0x1000c, 0x66), (0x1000d, 0), (0x1000e, 0), (0x1000f, 0), (0x10010, 0x77), (0x10011, 0), (0x10012, 0), (0x10013, 0)] 0x8002 = true := by decide

/-- V246 of 95_test_vectors.md. -/
theorem test_ldmia :
    ends 0xc90d (start 0x8000 [(1, 0x10000)] 0b0000#4 [(0x10000, 0xa), (0x10001, 0), (0x10002, 0), (0x10003, 0), (0x10004, 0xb), (0x10005, 0), (0x10006, 0), (0x10007, 0), (0x10008, 0xc), (0x10009, 0), (0x1000a, 0), (0x1000b, 0)])
      [(0, 0xa), (1, 0x1000c), (2, 0xb), (3, 0xc)] 0b0000#4 [] 0x8002 = true := by decide

/-- V251 of 95_test_vectors.md. -/
theorem test_beq :
    ends 0xd000 (start 0x8000 [] 0b0100#4 [])
      [] 0b0100#4 [] 0x8004 = true := by decide

/-- V255 of 95_test_vectors.md. -/
theorem test_bne :
    ends 0xd17f (start 0x8000 [] 0b0000#4 [])
      [] 0b0000#4 [] 0x8102 = true := by decide

/-- V257 of 95_test_vectors.md. -/
theorem test_bcs :
    ends 0xd280 (start 0x10 [] 0b0010#4 [])
      [] 0b0010#4 [] 0xffffff14 = true := by decide

/-- V258 of 95_test_vectors.md. -/
theorem test_bcc :
    ends 0xd37f (start 0xffffff80 [] 0b0000#4 [])
      [] 0b0000#4 [] 0x82 = true := by decide

/-- V260 of 95_test_vectors.md. -/
theorem test_bhi :
    ends 0xd805 (start 0x8000 [] 0b0110#4 [])
      [] 0b0110#4 [] 0x8002 = true := by decide

/-- V259 of 95_test_vectors.md. -/
theorem test_bls :
    ends 0xd905 (start 0x8000 [] 0b0110#4 [])
      [] 0b0110#4 [] 0x800e = true := by decide

/-- V261 of 95_test_vectors.md. -/
theorem test_bge :
    ends 0xda05 (start 0x8000 [] 0b1001#4 [])
      [] 0b1001#4 [] 0x800e = true := by decide

/-- V262 of 95_test_vectors.md. -/
theorem test_blt :
    ends 0xdb05 (start 0x8000 [] 0b1001#4 [])
      [] 0b1001#4 [] 0x8002 = true := by decide

/-- V263 of 95_test_vectors.md. -/
theorem test_bgt :
    ends 0xdc05 (start 0x8000 [] 0b0100#4 [])
      [] 0b0100#4 [] 0x8002 = true := by decide

/-- V264 of 95_test_vectors.md. -/
theorem test_ble :
    ends 0xdd05 (start 0x8000 [] 0b0100#4 [])
      [] 0b0100#4 [] 0x800e = true := by decide

/-- V43 of 95_test_vectors.md. -/
theorem test_b :
    ends 0xe7fe (start 0x8124 [] 0b0000#4 [])
      [] 0b0000#4 [] 0x8124 = true := by decide

/-- V274 of 95_test_vectors.md. -/
theorem test_blFirst :
    ends 0xf000 (start 0x8000 [(0xe, 0xdead)] 0b1111#4 [])
      [(0xe, 0x8004)] 0b1111#4 [] 0x8002 = true := by decide

/-- V278 of 95_test_vectors.md. -/
theorem test_blSecond :
    ends 0xf800 (start 0x8000 [(0xe, 0x9000)] 0b0000#4 [])
      [(0xe, 0x8003)] 0b0000#4 [] 0x9000 = true := by decide

/-- The worked example of R310. -/
theorem test_bmi : ends 0xD4FE (start 0x8000 [] 0b1000#4 []) [] 0b1000#4 [] 0x8000 = true := by decide

/-- The worked example of R311. -/
theorem test_bpl : ends 0xD57F (start 0x8000 [] 0b0000#4 []) [] 0b0000#4 [] 0x8102 = true := by decide

/-- The worked example of R312. -/
theorem test_bvs : ends 0xD680 (start 0x8100 [] 0b0001#4 []) [] 0b0001#4 [] 0x8004 = true := by decide

/-- The worked example of R313. -/
theorem test_bvc : ends 0xD705 (start 0x8000 [] 0b0001#4 []) [] 0b0001#4 [] 0x8002 = true := by decide

/-- Table 5-17: the flags (as N, Z, C, V) under which each condition holds, one that holds and one that does not. -/
theorem test_conditions :
    ([(Cond.eq, 0b0100#4, 0b1011#4), (.ne, 0b1011#4, 0b0100#4), (.cs, 0b0010#4, 0b1101#4), (.cc, 0b1101#4, 0b0010#4),
      (.mi, 0b1000#4, 0b0111#4), (.pl, 0b0111#4, 0b1000#4), (.vs, 0b0001#4, 0b1110#4), (.vc, 0b1110#4, 0b0001#4),
      (.hi, 0b1011#4, 0b0110#4), (.ls, 0b0110#4, 0b1011#4), (.ge, 0b1101#4, 0b1110#4),
      (.lt, 0b0101#4, 0b1001#4), (.gt, 0b1011#4, 0b1111#4), (.le, 0b1101#4, 0b0010#4)]).all (fun q =>
        condHolds q.1 (start 0 [] q.2.1 []).cpsr && !condHolds q.1 (start 0 [] q.2.2 []).cpsr) = true := by decide

/-- V13: the product, N, Z and the kept V; C is free. -/
theorem test_mulReg : (match step ((start 0x8000 [(0, 6), (7, 7)] 0b0001#4 []).withFetchWord 16 0x4378) with
    | .next t => t.x 0#4 == 42#32 && !t.cpsr.n && !t.cpsr.z && t.cpsr.v && t.draws == 1 && t.pc == 0x8002#32
    | _ => false) = true := by decide

/-- V268, from System mode: the banked R14, the saved status, the vector; SP and LR of the mode before are kept. -/
theorem test_swi : (let s := start 0x8002 [] 0b1001#4 []
    let s := (s.withCpsr { s.cpsr with mode := .system, i := false }).writeRegs [(spReg, 0x20000#32), (lrReg, 0x1234#32)]
    match step (s.withFetchWord 16 0xDFFF) with
    | .next t => t.bank .lrSvc == 0x8004#32 && t.spsr.svc == s.cpsr && t.pc == 8#32 && !t.cpsr.t && t.cpsr.i &&
        t.cpsr.mode == .supervisor && flags t == 0b1001#4 && t.bank .spUsr == 0x20000#32 && t.bank .lrUsr == 0x1234#32
    | _ => false) = true := by decide

/-- V170 and V174: BX to ARM state, and BX PC. -/
theorem test_bx_to_arm :
    (match step ((start 0x8000 [(0, 0x9000)] 0b1010#4 []).withFetchWord 16 0x4700) with
    | .next t => !t.cpsr.t && t.pc == 0x9000#32 && flags t == 0b1010#4
    | _ => false) = true ∧
    (match step ((start 0x8000 [] 0b0000#4 []).withFetchWord 16 0x4778) with
    | .next t => !t.cpsr.t && t.pc == 0x8004#32
    | _ => false) = true := by decide

/-- V171 and V175. -/
theorem test_bx_unpredictable :
    stops 0x4700 (start 0x8000 [(0, 0x9002)] 0b0000#4 []) (.unpredictable .bxTargetNotWordAligned) = true ∧
    stops 0x4778 (start 0x8002 [] 0b0000#4 []) (.unpredictable .bxPcNotWordAligned) = true := by decide

/-- V189, V201, V232, V233, V238, V243, V245 and V249. -/
theorem test_transfer_stops :
    stops 0x5088 (start 0x8000 [(0, 1), (1, 0x10000), (2, 2)] 0b0000#4 []) (.misaligned 0x10002#32 .word) = true ∧
    stops 0x5A88 (start 0x8000 [(1, 0x10000), (2, 3)] 0b0000#4 []) (.misaligned 0x10003#32 .half) = true ∧
    stops 0xB401 (start 0x8000 [(0, 1), (13, 0x20002)] 0b0000#4 []) (.misaligned 0x1FFFE#32 .word) = true ∧
    stops 0xB400 (start 0x8000 [(13, 0x20000)] 0b0000#4 []) (.unpredictable .emptyRegisterList) = true ∧
    stops 0xBC00 (start 0x8000 [(13, 0x20000)] 0b0000#4 []) (.unpredictable .emptyRegisterList) = true ∧
    stops 0xC003 (start 0x8000 [(0, 0x10000)] 0b0000#4 []) (.unpredictable .baseRegisterInList) = true ∧
    stops 0xC002 (start 0x8000 [(0, 0x10002)] 0b0000#4 []) (.misaligned 0x10002#32 .word) = true ∧
    stops 0xC900 (start 0x8000 [(1, 0x10000)] 0b0000#4 []) (.unpredictable .emptyRegisterList) = true := by decide

/-- V176 to V182, V265 and V286 to V293, and the rows beside them. -/
theorem test_undefined_encodings : ([0x4400, 0x4500, 0x4600, 0x4780, 0x4701, 0x4702, 0x4703, 0x4704, 0x4705, 0x4706, 0x4707, 0xde00, 0xb100, 0xb200, 0xb300, 0xb600, 0xb700, 0xb800, 0xb900, 0xba00, 0xbb00, 0xbe00, 0xbf00, 0xe800]).all
    (fun h => stops h (start 0x8000 [] 0b0000#4 []) (.undefinedEncoding (BitVec.ofNat 16 h))) = true := by decide

/-- R30: the sequential advance past the end. -/
theorem test_pc_wrap : stops 0x2001 (start 0xFFFFFFFE [] 0b0000#4 []) (.unpredictable .pcWrap) = true := by decide

/-- V187 and V196: big-endian store and load. -/
theorem test_big_endian :
    ends 0x5088 { start 0x8000 [(0, 0xA1B2C3D4), (1, 0x10000), (2, 4)] 0b0000#4 [] with bigEndian := true } []
      0b0000#4 [(0x10004, 0xA1), (0x10005, 0xB2), (0x10006, 0xC3), (0x10007, 0xD4)] 0x8002 = true ∧
    ends 0x5C88 { start 0x8000 [(1, 0x10000), (2, 1)] 0b0000#4 [(0x10000, 0x89), (0x10001, 0xAB), (0x10002, 0xCD),
      (0x10003, 0xEF)] with bigEndian := true } [(0, 0xAB)] 0b0000#4 [] 0x8002 = true := by decide

/-- LDR R0, [R1, R2] from a device answers what the oracle answers and counts a draw (R72). -/
theorem test_device_load : (let s := start 0x8000 [(1, 0x10000), (2, 8)] 0b0000#4 []
    match exec (.ldrReg 0#3 1#3 2#3) { s with regions := [{ Region.everything with device := true }] } with
    | .next t => t.x 0#4 = Config.deviceRead 0 0x10008#32 4 ∧ t.draws = 1
    | _ => False) := ⟨rfl, rfl⟩

/-- POP of two words of a device answers the oracle's next two answers (R70, R72). -/
theorem test_device_pop : (let s := start 0x8000 [(13, 0x10000)] 0b0000#4 []
    match exec (.pop 0x11#8) { s with regions := [{ Region.everything with device := true }] } with
    | .next t => t.x 0#4 = Config.deviceRead 0 0x10000#32 4 ∧ t.x 4#4 = Config.deviceRead 1 0x10004#32 4 ∧ t.draws = 2
    | _ => False) := ⟨rfl, rfl, rfl⟩

/-- R361: a return to THUMB state clears bit 0 of the address; R329: a return to ARM state does not. -/
theorem test_return_address : (let s := (start 0x8000 [] 0b0000#4 []).withBank .lrSvc 0x8003#32
    ({ s with spsr := { s.spsr with svc := s.cpsr } }).returnFromSwi.pc = 0x8002#32 ∧
      s.returnFromSwi.pc = 0x8003#32) := by decide

/-! The assembler: the source's examples E1, E2, E15, E19, E33, E36, E38, E40 and E42 -/

theorem test_assemble_data :
    (assemble 0 (.shift .lsr 2#4 5#4 27)).map (List.map encode) = some [0x0EEA#16] ∧
    (assemble 0 (.addThree 0#4 3#4 4#4)).map (List.map encode) = some [0x1918#16] ∧
    (assemble 0 (.mov 15#4 14#4)).map (List.map encode) = some [0x46F7#16] ∧
    (assemble 0 (.memImm .ldr 3#4 15#4 844)).map (List.map encode) = some [0x4BD3#16] ∧
    (assemble 0 (.addSp (-104))).map (List.map encode) = some [0xB09A#16] ∧
    (assemble 0 (.stmia 0#4 0xF8#8)).map (List.map encode) = some [0xC0F8#16] ∧
    assemble 0 (.memImm .ldr 3#4 15#4 845) = none := by decide

theorem test_assemble_branches :
    (assemble 0x8002#32 (.branchIf .gt ⟨"over", 0x800A#32⟩)).map (List.map encode) = some [0xDC02#16] ∧
    (assemble 0x8124#32 (.branch ⟨"here", 0x8124#32⟩)).map (List.map encode) = some [0xE7FE#16] ∧
    (assemble 0x8000#32 (.branchLink ⟨"faraway", 0x9000#32⟩)).map (List.map encode) = some [0xF000#16, 0xFFFE#16] ∧
    assemble 0x8000#32 (.branchIf .eq ⟨"far", 0x9000#32⟩) = none := by decide

theorem test_asm_text : (Asm.push 0x1F#8 true).text = "PUSH " ++ listText [0#4, 1#4, 2#4, 3#4, 4#4, 14#4] ∧
    (Asm.stmia 0#4 0xF8#8).text = "STMIA R0!, " ++ listText [3#4, 4#4, 5#4, 6#4, 7#4] := by decide

/-! For each statement with hypotheses, a state and operands that meet them together, at boundary values -/

/-- Away from the end of the address space, as far as the PC goes. -/
def base : State := start 0xFFFFFC00 [(1, 0xFFFFFFF8), (2, 4), (3, 0xFFFFFFFF), (13, 0xFFFFFC00), (14, 0x9001)] 0b1010#4
  [(0xFFFFFFFF, 0x80)]

/-- The same with every address a device. -/
def device : State := { base with regions := [{ Region.everything with device := true }] }

/-- The same with no address admitted. -/
def nowhere : State := { base with regions := [] }

/-- The same with the last word of the address space not admitted. -/
def edge : State := { base with regions := [{ Region.everything with size := 0xFFFFFFFC }] }

/-- The same with the last word of the address space a device, the rest ordinary memory. -/
def mixed : State :=
  { base with regions := [{ Region.everything with size := 0xFFFFFFFC },
      { Region.everything with base := 0xFFFFFFFC, size := 4, device := true }] }

/-- The instruction before the last halfword. -/
def nearEnd : State := base.withPc 0xFFFFFFFC#32

/-- The hypotheses of `Loads`. -/
abbrev CanLoad (s : State) (a : Word) (n : Size) : Prop :=
  s.pc ≠ lastHalf ∧ a.toNat % n.bytes = 0 ∧ s.ordinary a n .read = true

/-- The hypotheses of `LoadsFromDevice`. -/
abbrev CanLoadDevice (s : State) (a : Word) (n : Size) : Prop :=
  s.pc ≠ lastHalf ∧ a.toNat % n.bytes = 0 ∧ s.admitted a n .read = true ∧ s.ordinary a n .read = false

/-- The hypotheses of `Stores`. -/
abbrev CanStore (s : State) (a : Word) (n : Size) : Prop :=
  s.pc ≠ lastHalf ∧ Memory.wf s.mem = true ∧ a.toNat % n.bytes = 0 ∧ s.admitted a n .write = true

/-- The hypotheses of `StopsNotAdmitted`. -/
abbrev Unadmitted (s : State) (a : Word) (n : Size) (k : Access) : Prop :=
  a.toNat % n.bytes = 0 ∧ s.admitted a n k = false

theorem witness_DecodeInvertsEncode :
    (Instr.b 0x7FE#11).wellFormed = true ∧ (Instr.undefBxLow7 0x477F#16).wellFormed = true := by decide

theorem witness_RowsPartitionHalfwords :
    0xDEFF#16 &&& (Instr.undefCond14 0#16).row.mask = (Instr.undefCond14 0#16).row.pat := by decide

theorem witness_StepRunsDecodedInstruction :
    (let s := (base.withPc lastHalf).withFetchWord 16 0xE7FE
     s.cpsr.t = true ∧ s.pc.toNat % 2 = 0 ∧ s.ordinary s.pc .half .fetch = true ∧
       decode s.bigEndian [s.byteAt s.pc, s.byteAt (s.pc + 1#32)] = .ok (.b 0x7FE#11, [])) ∧
    (device.cpsr.t = true ∧ device.pc.toNat % 2 = 0 ∧ device.admitted device.pc .half .fetch = true ∧
      device.ordinary device.pc .half .fetch = false) := by decide

theorem witness_StepStopsBeforeDecode :
    (base.withCpsr { base.cpsr with t := false }).cpsr.t = false ∧
    ((base.withPc 0xFFFFFFFF#32).cpsr.t = true ∧ (base.withPc 0xFFFFFFFF#32).pc.toNat % 2 = 1) ∧
    (nowhere.cpsr.t = true ∧ nowhere.pc.toNat % 2 = 0 ∧ nowhere.admitted nowhere.pc .half .fetch = false) := by decide

theorem witness_PlacedWordRuns :
    let s := base.withPc lastHalf
    s.cpsr.t = true ∧ s.pc.toNat % 2 = 0 ∧ s.ordinary s.pc .half .fetch = true ∧ Memory.wf s.mem = true := by decide

theorem witness_ReadAfterWrite : base.mem ≠ [] ∧ Memory.wf base.mem = true := by decide

theorem witness_ShiftByImmediate : nearEnd.pc ≠ lastHalf := by decide
theorem witness_AddAndSubtract : nearEnd.pc ≠ lastHalf := by decide
theorem witness_Compare : nearEnd.pc ≠ lastHalf := by decide
theorem witness_LogicalOperations : nearEnd.pc ≠ lastHalf := by decide
theorem witness_ShiftByRegister : nearEnd.pc ≠ lastHalf ∧ (nearEnd.x (lo 2#3)).toNat % 256 = 4 := by decide
theorem witness_AddSubtractWithCarryAndNegate : nearEnd.pc ≠ lastHalf := by decide
theorem witness_Multiply : nearEnd.pc ≠ lastHalf := by decide

theorem witness_CarryChainAddsDoubleWords : 1#3 ≠ 0#3 ∧ 3#3 ≠ 0#3 ∧
    ∃ t u, exec (.addReg 0#3 0#3 2#3) base = .next t ∧ exec (.adcReg 1#3 3#3) t = .next u :=
  ⟨by decide, by decide, _, _, rfl, rfl⟩

theorem witness_HiSourceToLo : nearEnd.pc ≠ lastHalf ∧ hi 7#3 = pcReg ∧ nearEnd.pc.toNat % 2 = 0 := by decide
theorem witness_HiDestination : nearEnd.pc ≠ lastHalf ∧ hi 0#3 ≠ pcReg ∧ hi 6#3 ≠ pcReg := by decide
theorem witness_PcDestination : hi 7#3 = pcReg ∧ (base.withPc lastHalf).pc.toNat % 2 = 0 := by decide
theorem witness_HiCompare : nearEnd.pc ≠ lastHalf := by decide

theorem witness_BranchExchange :
    (base.x (lo 3#3)).toNat % 2 = 1 ∧ (base.x (hi 6#3)).toNat % 2 = 1 ∧ (base.x (lo 0#3)).toNat % 4 = 0 ∧
    (base.x (hi 5#3)).toNat % 4 = 0 ∧ (base.pc.toNat % 4 = 0 ∧ hi 7#3 = pcReg) ∧
    ((base.writeReg 0#4 0xFFFFFFFE#32).x (lo 0#3)).toNat % 4 = 2 ∧
    (hi 0#3 ≠ pcReg ∧ ((base.writeReg 8#4 2#32).x (hi 0#3)).toNat % 4 = 2) ∧
    2 ≤ (base.withPc lastHalf).pc.toNat % 4 := by decide

theorem witness_LoadWord :
    CanLoad base (BitVec.ofNat 32 ((base.pc + 4#32).toNat / 4 * 4) + BitVec.ofNat 32 (4 * (254#8).toNat)) .word ∧
    CanLoad base (base.x (lo 1#3) + base.x (lo 2#3)) .word ∧
    CanLoad base (base.x (lo 1#3) + BitVec.ofNat 32 (4 * (1#5).toNat)) .word ∧
    CanLoad base (base.x spReg + BitVec.ofNat 32 (4 * (255#8).toNat)) .word := by decide

theorem witness_LoadZeroExtended :
    CanLoad base (base.x (lo 1#3) + base.x (lo 2#3)) .byte ∧ CanLoad base (base.x (lo 1#3) + base.x (lo 2#3)) .half ∧
    CanLoad base (base.x (lo 1#3) + BitVec.ofNat 32 (7#5).toNat) .byte ∧
    CanLoad base (base.x (lo 1#3) + BitVec.ofNat 32 (2 * (3#5).toNat)) .half := by decide

theorem witness_LoadSignExtended :
    CanLoad base (base.x (lo 3#3) + base.x (lo 0#3)) .byte ∧ CanLoad base (base.x (lo 1#3) + base.x (lo 2#3)) .half := by
  decide

theorem witness_LoadFromDevice :
    CanLoadDevice device (addrPc device 254#8) .word ∧ CanLoadDevice device (addrRegister device 1#3 2#3) .word ∧
    CanLoadDevice device (addrImmediate device 1#3 (immWord5 1#5)) .word ∧ CanLoadDevice device (addrSp device 255#8) .word ∧
    CanLoadDevice device (addrRegister device 3#3 0#3) .byte ∧ CanLoadDevice device (addrRegister device 1#3 2#3) .half ∧
    CanLoadDevice device (addrImmediate device 1#3 (immByte5 7#5)) .byte ∧
    CanLoadDevice device (addrImmediate device 1#3 (immHalf5 3#5)) .half := by decide

theorem witness_StoreWord :
    CanStore base (addrRegister base 1#3 2#3) .word ∧ CanStore base (addrImmediate base 1#3 (immWord5 1#5)) .word ∧
    CanStore base (addrSp base 255#8) .word := by decide

theorem witness_StoreNarrow :
    CanStore base (addrRegister base 3#3 0#3) .byte ∧ CanStore base (addrRegister base 1#3 2#3) .half ∧
    CanStore base (addrImmediate base 1#3 (immByte5 7#5)) .byte ∧
    CanStore base (addrImmediate base 1#3 (immHalf5 3#5)) .half := by decide

theorem witness_MisalignedAccessStops :
    let s := (base.writeReg 0#4 0xFFFFFFFD#32).writeReg spReg 2#32
    (addrRegister s 0#3 5#3).toNat % 4 ≠ 0 ∧ (addrRegister s 0#3 5#3).toNat % 2 ≠ 0 ∧
      (addrImmediate s 0#3 (immWord5 31#5)).toNat % 4 ≠ 0 ∧ (addrImmediate s 0#3 (immHalf5 31#5)).toNat % 2 ≠ 0 ∧
      (addrSp s 255#8).toNat % 4 ≠ 0 := by decide

theorem witness_UnadmittedAccessStops :
    Unadmitted nowhere (addrPc nowhere 254#8) .word .read ∧ Unadmitted nowhere (addrRegister nowhere 1#3 2#3) .word .write ∧
    Unadmitted nowhere (addrRegister nowhere 1#3 2#3) .word .read ∧ Unadmitted nowhere (addrRegister nowhere 3#3 0#3) .byte .write ∧
    Unadmitted nowhere (addrRegister nowhere 3#3 0#3) .byte .read ∧ Unadmitted nowhere (addrRegister nowhere 1#3 2#3) .half .write ∧
    Unadmitted nowhere (addrRegister nowhere 1#3 2#3) .half .read ∧
    Unadmitted nowhere (addrImmediate nowhere 1#3 (immWord5 1#5)) .word .write ∧
    Unadmitted nowhere (addrImmediate nowhere 1#3 (immWord5 1#5)) .word .read ∧
    Unadmitted nowhere (addrImmediate nowhere 1#3 (immByte5 7#5)) .byte .write ∧
    Unadmitted nowhere (addrImmediate nowhere 1#3 (immByte5 7#5)) .byte .read ∧
    Unadmitted nowhere (addrImmediate nowhere 1#3 (immHalf5 3#5)) .half .write ∧
    Unadmitted nowhere (addrImmediate nowhere 1#3 (immHalf5 3#5)) .half .read ∧
    Unadmitted nowhere (addrSp nowhere 255#8) .word .write ∧ Unadmitted nowhere (addrSp nowhere 255#8) .word .read := by decide

/-- The multiple transfers of that statement: the last of two words is the first not admitted, or word 0 of one is. -/
theorem witness_UnadmittedAccessStops_multiple :
    let meets (s : State) (start : Word) (n : Nat) (k : Access) (j : Nat) : Bool :=
      decide (j < n) && start.toNat % 4 == 0 && eachWord (fun a => s.admitted a .word k) start j &&
        !s.admitted (start + BitVec.ofNat 32 (4 * j)) .word k
    let low := edge.writeReg spReg 0#32
    let high := edge.writeReg spReg 0xFFFFFFF8#32
    (0x81#8 ≠ 0#8 ∧ (0x81#8).getLsbD (1#3).toNat = false) ∧
    meets low (low.x spReg - BitVec.ofNat 32 (4 * (regList 0x81#8).length)) (regList 0x81#8).length .write 1 = true ∧
    meets low (low.x spReg - BitVec.ofNat 32 (4 * ((regList 0x80#8).length + 1))) ((regList 0x80#8).length + 1) .write 1 = true ∧
    meets high (high.x spReg) (regList 0x81#8).length .read 1 = true ∧
    meets high (high.x spReg) ((regList 0x80#8).length + 1) .read 1 = true ∧
    meets edge (edge.x (lo 1#3)) (regList 0x81#8).length .write 1 = true ∧
    meets edge (edge.x (lo 1#3)) (regList 0x81#8).length .read 1 = true ∧
    meets nowhere (nowhere.x spReg) ((regList 0#8).length + 1) .read 0 = true := by decide

theorem witness_LoadAddress : nearEnd.pc ≠ lastHalf := by decide
theorem witness_AddToStackPointer : nearEnd.pc ≠ lastHalf := by decide

theorem witness_PushRegisters :
    let s := nearEnd.writeReg spReg 0#32
    s.pc ≠ lastHalf ∧ Memory.wf s.mem = true ∧ (s.x spReg).toNat % 4 = 0 ∧ 0xFF#8 ≠ 0#8 ∧
      eachWord (fun a => s.admitted a .word .write) (s.x spReg - 32#32) (regList 0xFF#8).length = true ∧
      eachWord (fun a => s.admitted a .word .write) (s.x spReg - 36#32) (regList 0xFF#8 ++ [lrReg]).length = true := by
  decide

/-- Ordinary memory up to the end of the address space, and a last word that is a device. -/
theorem witness_PopRegisters :
    (let s := nearEnd.writeReg spReg 0xFFFFFFE0#32
     s.pc ≠ lastHalf ∧ 0xFF#8 ≠ 0#8 ∧ (s.x spReg).toNat % 4 = 0 ∧
      eachWord (fun a => s.admitted a .word .read) (s.x spReg) (regList 0xFF#8).length = true) ∧
    (let s := mixed.writeReg spReg 0xFFFFFFF8#32
     s.pc ≠ lastHalf ∧ 0x81#8 ≠ 0#8 ∧ (s.x spReg).toNat % 4 = 0 ∧
      eachWord (fun a => s.admitted a .word .read) (s.x spReg) (regList 0x81#8).length = true ∧
      s.ordinary 0xFFFFFFFC#32 .word .read = false) := by decide

theorem witness_PopPc :
    (let s := base.writeReg spReg 0xFFFFFFDC#32
     (s.x spReg).toNat % 4 = 0 ∧
      eachWord (fun a => s.admitted a .word .read) (s.x spReg) ((regList 0xFF#8).length + 1) = true) ∧
    (let s := mixed.writeReg spReg 0xFFFFFFF8#32
     (s.x spReg).toNat % 4 = 0 ∧
      eachWord (fun a => s.admitted a .word .read) (s.x spReg) ((regList 0x80#8).length + 1) = true) := by decide

theorem witness_StoreMultiple :
    nearEnd.pc ≠ lastHalf ∧ Memory.wf nearEnd.mem = true ∧ 0x81#8 ≠ 0#8 ∧ (0x81#8).getLsbD (1#3).toNat = false ∧
      (nearEnd.x (lo 1#3)).toNat % 4 = 0 ∧
      eachWord (fun a => nearEnd.admitted a .word .write) (nearEnd.x (lo 1#3)) (regList 0x81#8).length = true := by decide

theorem witness_LoadMultiple :
    (nearEnd.pc ≠ lastHalf ∧ 0x81#8 ≠ 0#8 ∧ (0x81#8).getLsbD (1#3).toNat = false ∧
      (nearEnd.x (lo 1#3)).toNat % 4 = 0 ∧
      eachWord (fun a => nearEnd.admitted a .word .read) (nearEnd.x (lo 1#3)) (regList 0x81#8).length = true) ∧
    (mixed.pc ≠ lastHalf ∧ (mixed.x (lo 1#3)).toNat % 4 = 0 ∧
      eachWord (fun a => mixed.admitted a .word .read) (mixed.x (lo 1#3)) (regList 0x81#8).length = true) := by decide

theorem witness_MultipleTransferStops :
    let s := (base.writeReg 0#4 0xFFFFFFFF#32).writeReg spReg 0x20001#32
    (0x80#8).getLsbD (7#3).toNat = true ∧ (0x80#8 ≠ 0#8 ∧ (0x80#8).getLsbD (0#3).toNat = false ∧
      (s.x (lo 0#3)).toNat % 4 ≠ 0) ∧ (s.x spReg).toNat % 4 ≠ 0 := by decide

theorem witness_PopUndoesPush : Memory.wf base.mem = true ∧
    ∃ t w, exec (.pushLr 0x06#8) base = .next t ∧
      eachWord (fun a => t.ordinary a .word .read) (t.x spReg) ((regList 0x06#8).length + 1) = true ∧
      exec (.popPc 0x06#8) t = .next w :=
  ⟨by decide, _, _, rfl, rfl, rfl⟩

/-- For each condition, flags under which it holds and flags under which it does not: `test_conditions`. -/
theorem witness_BranchesOnOneFlag : base.cpsr.z = false ∧ base.cpsr.c = true ∧ base.cpsr.n = true ∧ base.cpsr.v = false ∧
    nearEnd.pc ≠ lastHalf := by decide
theorem witness_BranchesOnSeveralFlags : (base.cpsr.c = true ∧ base.cpsr.z = false) ∧ base.cpsr.n ≠ base.cpsr.v ∧
    nearEnd.pc ≠ lastHalf := by decide

theorem witness_ConditionsAfterCompare : ∃ t, exec (.cmpReg 1#3 2#3) base = .next t := ⟨_, rfl⟩

theorem witness_BranchLinkFirst : nearEnd.pc ≠ lastHalf ∧ nearEnd.pc.toNat % 2 = 0 := by decide
theorem witness_BranchLinkSecond : (base.withPc lastHalf).pc.toNat % 2 = 0 := by decide

/-- Both ends of the reach of BL (R303): `ia1 + 4 - 4194304` and `ia1 + 4 + 4194302`. -/
theorem witness_AssembledCallReachesLabel :
    nearEnd.pc.toNat % 2 = 0 ∧ nearEnd.pc ≠ lastHalf ∧
    assemble nearEnd.pc (.branchLink ⟨"low", 0xFFC00000#32⟩) = some [.blFirst 0x400#11, .blSecond 0#11] ∧
    assemble nearEnd.pc (.branchLink ⟨"high", 0x003FFFFE#32⟩) = some [.blFirst 0x3FF#11, .blSecond 0x7FF#11] := by decide

theorem witness_AssembledBranchReachesLabel :
    assemble nearEnd.pc (.branch ⟨"low", 0xFFFFF800#32⟩) = some [.b 0x400#11] ∧
    (assemble nearEnd.pc (.branchIf .cs ⟨"high", 0x000000FE#32⟩) = some [.bcs 127#8] ∧
      condHolds .cs nearEnd.cpsr = true) ∧
    (nearEnd.pc ≠ lastHalf ∧ assemble nearEnd.pc (.adr (lo 7#3) ⟨"data", 0x000003FC#32⟩) = some [.addRdPc 7#3 255#8]) := by
  decide

theorem witness_SoftwareInterruptReturn : (∃ t, exec (.swi 255#8) base = .next t) ∧ base.pc.toNat % 2 = 0 ∧
    ({ base with spsr := { base.spsr with svc := base.cpsr } } : State).spsr.svc.t = true ∧ Memory.wf base.mem = true :=
  ⟨⟨_, rfl⟩, by decide⟩

theorem witness_UndefinedEncodingExactly : noInstruction 0xDE00#16 = true ∧ noInstruction 0xDD00#16 = false := by decide

/-- An instruction without an access, a store and a load of several words, all at the last halfword. -/
theorem witness_SequentialAdvance : writesPc (.movImm8 7#3 255#8) = false ∧
    (∃ t, exec (.movImm8 7#3 255#8) nearEnd = .next t) ∧
    (let s := base.withPc lastHalf
     let meets (i : Instr) : Bool := !writesPc i && s.pc == lastHalf && !noInstruction (encode i) && i.wellFormed &&
       !invalidList i && (accesses s i).all (fun q => q.1.toNat % q.2.1.bytes == 0 && s.admitted q.1 q.2.1 q.2.2)
     [Instr.movImm8 7#3 255#8, .strbReg 0#3 3#3 0#3, .ldmia 1#3 0x81#8].all meets = true ∧
       accesses s (.ldmia 1#3 0x81#8) = [(0xFFFFFFF8#32, .word, .read), (0xFFFFFFFC#32, .word, .read)] ∧
       condHolds .eq s.cpsr = false) :=
  ⟨rfl, ⟨_, rfl⟩, by decide⟩

theorem witness_StepKeepsInvariant : Inv base ∧ ∃ t, step base = .next t := ⟨by decide, _, rfl⟩
theorem witness_InvariantHoldsAtLaunch : Launch base := by decide

theorem witness_OnlySwiChangesProcessorControl : ∃ t, exec (.bxHs 7#3) base = .next t ∧ ∀ v, Instr.bxHs 7#3 ≠ .swi v :=
  ⟨_, rfl, nofun⟩
theorem witness_ThumbStateLeftOnlyBySwiAndBx : base.cpsr.t = true ∧ ∃ t, exec (.bxHs 7#3) base = .next t := ⟨rfl, _, rfl⟩
theorem witness_OnlyStoresChangeMemory : writesMemory (.mvnReg 0#3 1#3) = false ∧ readsMemory (.mvnReg 0#3 1#3) = false ∧
    (∀ rd rs, Instr.mvnReg 0#3 1#3 ≠ .mulReg rd rs) ∧ ∃ t, exec (.mvnReg 0#3 1#3) base = .next t :=
  ⟨rfl, rfl, nofun, _, rfl⟩
theorem witness_OnlyDataProcessingWritesFlags : writesFlags (.addSpImm 127#7) = false ∧
    ∃ t, exec (.addSpImm 127#7) base = .next t := ⟨rfl, _, rfl⟩
theorem witness_OnlyFormatFiveWritesHiRegisters : writesHiRegister (.pushLr 0xFF#8) = false ∧
    ∃ t, exec (.pushLr 0xFF#8) base = .next t := ⟨rfl, _, rfl⟩

end Sys2Proof.Tests
end

section
/-! The fetch that stops a step before decode, R15 as an operand and as a destination, and what the flags of a difference
say of its operands (00_scope.md R6, R13; 20_memory.md R67; 41_alu_hireg_bx.md R199, R200; 44_branch_swi.md R290). -/

namespace Sys2Proof.Machine

/-! Where a step stops before decode -/

/-- A read at an address that is no multiple of its size stops before the address map is asked. -/
theorem memRead_of_misaligned (s : State) (a : Word) (n : Size) (k : Access) (ha : a.toNat % n.bytes ≠ 0) :
    memRead s a n k = .error (.misaligned a n) := if_pos ha

/-- The fetch answers the fault of its memory read. -/
theorem fetch_of_memRead_error (s : State) (f : Fault) (h : memRead s s.pc .half .fetch = .error f) :
    fetch s = .error f := by
  rw [fetch, h]

theorem step_of_armState (s : State) (ht : s.cpsr.t = false) : step s = .refused .armState := by
  rw [step, ht]
  rfl

/-- In THUMB state a fetch fault is the outcome of the step (R327, D26). -/
theorem step_of_fetch_error (s : State) (f : Fault) (ht : s.cpsr.t = true) (h : fetch s = .error f) :
    step s = .fault f := by
  rw [step, if_pos ht, h]

/-- Settles O6: the fetch is a halfword read at the PC, and what that read raises is the outcome of the step. -/
theorem stepStopsBeforeDecode : Obligations.StepStopsBeforeDecode := by
  intro s
  refine ⟨step_of_armState s, fun ht hodd => ?_, fun ht heven hadm => ?_⟩
  · have hmis : s.pc.toNat % Size.half.bytes ≠ 0 := by
      rw [Size.bytes, hodd]
      decide
    exact step_of_fetch_error s _ ht (fetch_of_memRead_error s _ (memRead_of_misaligned s s.pc .half .fetch hmis))
  · exact step_of_fetch_error s _ ht (fetch_of_memRead_error s _ (memRead_of_unadmitted s s.pc .half .fetch heven hadm))

/-! R15 in format 5 -/

/-- Clearing bit 0 is rounding down to an even number. -/
theorem clearBit0_eq_ofNat (v : Word) : v &&& 0xFFFFFFFE#32 = BitVec.ofNat 32 (v.toNat / 2 * 2) := by
  rw [← clearBit0_toNat, BitVec.ofNat_toNat, BitVec.setWidth_eq]

/-- Clearing bit 0 keeps an even number. -/
theorem clearBit0_of_even (v : Word) (h : v.toNat % 2 = 0) : v &&& 0xFFFFFFFE#32 = v := by
  apply BitVec.eq_of_toNat_eq
  rw [clearBit0_toNat]
  omega

/-- At an even address R15 reads as the address plus 4 (R27, R200). -/
theorem State.x_pcReg_of_even (s : State) (h : s.pc.toNat % 2 = 0) : s.x pcReg = s.pc + 4#32 := by
  have hahead : (s.pc + 4#32).toNat % 2 = 0 := by bv_omega
  rw [State.x_pcReg, clearBit0_of_even _ hahead]

/-- Format 5 with R15 as destination goes to the even address at or below the value (R199, D15; log 17). -/
theorem State.assign_pcReg_even (s : State) (v : Word) :
    s.assign pcReg v = .next (s.withPc (BitVec.ofNat 32 (v.toNat / 2 * 2))) := by
  rw [State.assign_pcReg, clearBit0_eq_ofNat]

theorem exec_addHdRs (hd : HiReg) (rs : LoReg) (s : State) :
    exec (.addHdRs hd rs) s = s.assign (hi hd) (s.x (hi hd) + s.x (lo rs)) := rfl

theorem exec_addHdHs (hd hs : HiReg) (s : State) :
    exec (.addHdHs hd hs) s = s.assign (hi hd) (s.x (hi hd) + s.x (hi hs)) := rfl

theorem exec_movHdRs (hd : HiReg) (rs : LoReg) (s : State) :
    exec (.movHdRs hd rs) s = s.assign (hi hd) (s.x (lo rs)) := rfl

theorem exec_movHdHs (hd hs : HiReg) (s : State) :
    exec (.movHdHs hd hs) s = s.assign (hi hd) (s.x (hi hs)) := rfl

/-- Settles O19: each of the four forms assigns to R15, which ADD also reads as the address plus 4. -/
theorem pcDestination : Obligations.PcDestination := by
  intro s hd hs rs hpc heven
  have hread : s.x pcReg = s.pc + 4#32 := s.x_pcReg_of_even heven
  refine ⟨?_, ?_, ?_, ?_⟩
  · rw [exec_addHdRs, hpc, hread, State.assign_pcReg_even]
  · rw [exec_addHdHs, hpc, hread, State.assign_pcReg_even]
  · rw [exec_movHdRs, hpc, State.assign_pcReg_even]
  · rw [exec_movHdHs, hpc, State.assign_pcReg_even]

/-! The flags of a difference -/

/-- N and Z of `SetNZ` describe the result (R14). -/
theorem Psr.flagsNZ_setNZ (p : Psr) (r : Word) : FlagsNZ r (p.setNZ r) := by
  constructor
  · rw [Psr.setNZ_n, show r.getLsbD 31 = r.msb from rfl, BitVec.msb_eq_toInt, decide_eq_true_iff]
  · rw [Psr.setNZ_z, decide_eq_true_iff, BitVec.toNat_eq, BitVec.toNat_ofNat]

/-- N and Z of `SetNZCV` describe the result (R14). -/
theorem Psr.flagsNZ_setNZCV (p : Psr) (r : AddResult) : FlagsNZ r.result (p.setNZCV r) := p.flagsNZ_setNZ r.result

/-- The adder given the complement of `b` subtracts `b`, with the carry in as the absence of a borrow (R13). -/
theorem isDifference_addWithCarry_not (p : Psr) (a b : Word) (cin : Bool) :
    IsDifference a b (!cin) (addWithCarry a (~~~b) cin).result (p.setNZCV (addWithCarry a (~~~b) cin)) := by
  have hnat : (~~~b).toNat = 2 ^ 32 - 1 - b.toNat := BitVec.toNat_not
  have hint : (~~~b).toInt = -1 - b.toInt := by
    rw [BitVec.toInt_eq_toNat_cond, BitVec.toInt_eq_toNat_cond, hnat]
    split <;> split <;> omega
  have hborrow : (!cin).toNat + cin.toNat = 1 := by cases cin <;> rfl
  have := b.isLt
  refine ⟨?_, p.flagsNZ_setNZCV _, ?_, ?_⟩
  · rw [addWithCarry, BitVec.toNat_ofNat, hnat]
    omega
  · rw [Psr.setNZCV_c, addWithCarry, decide_eq_true_iff, hnat]
    omega
  · have hsum : a.toInt + (-1 - b.toInt) + cin.toNat = a.toInt - b.toInt - (!cin).toNat := by omega
    rw [Psr.setNZCV_v, addWithCarry, decide_eq_true_iff, hint, hsum]

/-- `subtract` is the difference without a borrow (R13). -/
theorem isDifference_subtract (p : Psr) (a b : Word) :
    IsDifference a b false (subtract a b).result (p.setNZCV (subtract a b)) :=
  isDifference_addWithCarry_not p a b true

/-- Z after a subtraction says that the operands are equal. -/
theorem IsDifference.z_iff {a b r : Word} {q : Psr} (h : IsDifference a b false r q) : q.z = true ↔ a = b := by
  obtain ⟨hr, ⟨-, hz⟩, -, -⟩ := h
  rw [hz, BitVec.toNat_eq]
  simp only [Bool.toNat_false] at hr
  have := a.isLt
  have := b.isLt
  omega

/-- C after a subtraction says that the first operand is at least the second, unsigned. -/
theorem IsDifference.c_iff {a b r : Word} {q : Psr} (h : IsDifference a b false r q) :
    q.c = true ↔ b.toNat ≤ a.toNat := by
  obtain ⟨-, -, hc, -⟩ := h
  exact hc

/-- The difference of two words is the exact signed difference, or that wrapped once. -/
theorem IsDifference.toInt_wraps {a b r : Word} {q : Psr} (h : IsDifference a b false r q) :
    r.toInt = a.toInt - b.toInt ∨ r.toInt = a.toInt - b.toInt - 2 ^ 32 ∨ r.toInt = a.toInt - b.toInt + 2 ^ 32 := by
  obtain ⟨hr, -, -, -⟩ := h
  have ha := a.toInt_eq_toNat_cond
  have hb := b.toInt_eq_toNat_cond
  have hrInt := r.toInt_eq_toNat_cond
  have := a.isLt
  have := b.isLt
  simp only [Bool.toNat_false] at hr
  split at ha <;> split at hb <;> split at hrInt <;> omega

/-- N agrees with V after a subtraction exactly when the first operand is at least the second, signed: without overflow N is
the sign of the exact difference, and with it N is the opposite of that sign. -/
theorem IsDifference.n_eq_v_iff {a b r : Word} {q : Psr} (h : IsDifference a b false r q) :
    q.n = q.v ↔ b.toInt ≤ a.toInt := by
  have hwrap := h.toInt_wraps
  obtain ⟨-, ⟨hn, -⟩, -, hv⟩ := h
  have hlt : r.toInt < 2 ^ 31 := r.toInt_lt
  have hle : -2 ^ 31 ≤ r.toInt := r.le_toInt
  have halt : a.toInt < 2 ^ 31 := a.toInt_lt
  have hale : -2 ^ 31 ≤ a.toInt := a.le_toInt
  have hblt : b.toInt < 2 ^ 31 := b.toInt_lt
  have hble : -2 ^ 31 ≤ b.toInt := b.le_toInt
  simp only [Bool.toNat_false] at hv
  rw [Bool.eq_iff_iff, hn, hv]
  rcases hwrap with hexact | hdown | hup <;> omega

/-! The conditions as propositions about the flags (R290) -/

theorem condHolds_eq (p : Psr) : condHolds .eq p = true ↔ p.z = true := Iff.rfl

theorem condHolds_ne (p : Psr) : condHolds .ne p = true ↔ ¬ p.z = true := by simp [condHolds]

theorem condHolds_cs (p : Psr) : condHolds .cs p = true ↔ p.c = true := Iff.rfl

theorem condHolds_cc (p : Psr) : condHolds .cc p = true ↔ ¬ p.c = true := by simp [condHolds]

theorem condHolds_hi (p : Psr) : condHolds .hi p = true ↔ p.c = true ∧ ¬ p.z = true := by simp [condHolds]

theorem condHolds_ls (p : Psr) : condHolds .ls p = true ↔ ¬ p.c = true ∨ p.z = true := by simp [condHolds]

theorem condHolds_ge (p : Psr) : condHolds .ge p = true ↔ p.n = p.v := beq_iff_eq

theorem condHolds_lt (p : Psr) : condHolds .lt p = true ↔ ¬ p.n = p.v := bne_iff_ne

theorem condHolds_gt (p : Psr) : condHolds .gt p = true ↔ ¬ p.z = true ∧ p.n = p.v := by simp [condHolds]

theorem condHolds_le (p : Psr) : condHolds .le p = true ↔ p.z = true ∨ ¬ p.n = p.v := by simp [condHolds]

/-! After a compare -/

/-- After CMP the flags are those of the difference of the operands (R180). -/
theorem isDifference_of_cmpReg {s t : State} {rd rs : LoReg} (h : exec (.cmpReg rd rs) s = .next t) :
    IsDifference (s.x (lo rd)) (s.x (lo rs)) false (subtract (s.x (lo rd)) (s.x (lo rs))).result t.cpsr := by
  obtain ⟨-, rfl⟩ := State.advance_next _ _ h
  exact isDifference_subtract s.cpsr _ _

/-- Settles O42: Z, C and N against V say equality, the unsigned and the signed order, and each condition is made of them. -/
theorem conditionsAfterCompare : Obligations.ConditionsAfterCompare := by
  intro s t rd rs h a b
  have hd : IsDifference a b false (subtract a b).result t.cpsr := isDifference_of_cmpReg h
  have hz : t.cpsr.z = true ↔ a = b := hd.z_iff
  have hc : t.cpsr.c = true ↔ b.toNat ≤ a.toNat := hd.c_iff
  have hnv : t.cpsr.n = t.cpsr.v ↔ b.toInt ≤ a.toInt := hd.n_eq_v_iff
  refine ⟨?eq, ?ne, ?cs, ?cc, ?hi, ?ls, ?ge, ?lt, ?gt, ?le⟩
  case eq => rw [condHolds_eq, hz]
  case ne => rw [condHolds_ne, hz]
  case cs => rw [condHolds_cs, hc]
  case cc => rw [condHolds_cc, hc, Nat.not_le]
  case hi => rw [condHolds_hi, hc, hz, ← BitVec.toNat_inj]; omega
  case ls => rw [condHolds_ls, hc, hz, ← BitVec.toNat_inj]; omega
  case ge => rw [condHolds_ge, hnv]
  case lt => rw [condHolds_lt, hnv, Int.not_le]
  case gt => rw [condHolds_gt, hnv, hz, ← BitVec.toInt_inj]; omega
  case le => rw [condHolds_le, hnv, hz, ← BitVec.toInt_inj]; omega

end Sys2Proof.Machine
end

section
/-! What a completed instruction leaves alone, said once for all instructions: every shape of completion is a chain of the
state's operations, each of which stays within one frame, and the statements about the whole machine are read off that
frame (10_state.md R21, R26, R29, R32, R34, R36; 60_exceptions.md R326, R327, R331). -/

namespace Sys2Proof.Machine

/-! Bit 0 of an address -/

theorem getLsbD_zero_add (a b : Word) : (a + b).getLsbD 0 = (a.getLsbD 0 ^^ b.getLsbD 0) := by
  rw [BitVec.getLsbD_add (by decide), BitVec.carry_zero, Bool.xor_false]

@[simp] theorem getLsbD_zero_clearBit0 (v : Word) : (v &&& 0xFFFFFFFE#32).getLsbD 0 = false := by
  rw [BitVec.getLsbD_and, show (0xFFFFFFFE#32 : Word).getLsbD 0 = false from rfl, Bool.and_false]

@[simp] theorem getLsbD_zero_branchOffset8 (o : BitVec 8) : (branchOffset8 o).getLsbD 0 = false := by
  simp [branchOffset8]

@[simp] theorem getLsbD_zero_branchOffset11 (o : BitVec 11) : (branchOffset11 o).getLsbD 0 = false := by
  simp [branchOffset11]

/-- The next halfword stands at an even address when this one does. -/
theorem even_next {a : Word} (h : a.getLsbD 0 = false) : (a + 2#32).getLsbD 0 = false := by
  rw [getLsbD_zero_add, h]
  rfl

/-- The address a branch counts from is even when the branch stands at an even one. -/
theorem State.even_pcAhead {s : State} (h : s.pc.getLsbD 0 = false) : s.pcAhead.getLsbD 0 = false := by
  rw [State.pcAhead, getLsbD_zero_add, h]
  rfl

/-- The SWI vector is an address ARM state can start at (R321). -/
theorem swiVector_aligned : Config.swiVector.getLsbD 0 = false ∧ Config.swiVector.getLsbD 1 = false := by decide

/-! The frame of an instruction -/

/-- A register that the instruction may write: any, for ADD and MOV with a Hi destination; for every other one a Lo
register, SP, LR or R15 (R21). -/
def MayWrite (i : Instr) (r : Reg) : Prop := writesHiRegister i = true ∨ r.toNat < 8 ∨ 13 ≤ r.toNat

theorem mayWrite_lo (i : Instr) (f : LoReg) : MayWrite i (lo f) := .inr (.inl (by revert f; decide))

theorem mayWrite_spReg (i : Instr) : MayWrite i spReg := .inr (.inr (by decide))

theorem mayWrite_lrReg (i : Instr) : MayWrite i lrReg := .inr (.inr (by decide))

theorem mayWrite_of_mem_regList (i : Instr) (l : BitVec 8) : ∀ r ∈ regList l, MayWrite i r :=
  fun r hr => .inr (.inl (regList_lt l r hr))

/-- From `s` to `t`, what every instruction but BX and SWI keeps: memory stays canonical, the PC even, the registers no
number the instruction may write names, the saved status, the platform and the control bits as they are, and the flags too
unless the instruction writes them. -/
structure WithinFrame (i : Instr) (s t : State) : Prop where
  regs : ∀ p, (∀ r, MayWrite i r → phys s.cpsr.mode r ≠ some p) → t.bank p = s.bank p
  wf : Memory.wf s.mem = true → Memory.wf t.mem = true
  even : s.pc.getLsbD 0 = false → t.pc.getLsbD 0 = false
  system : KeepsSystem s t
  control : KeepsControl s.cpsr t.cpsr
  flags : writesFlags i = false → t.cpsr = s.cpsr

theorem KeepsControl.trans {p q r : Psr} (h : KeepsControl p q) (h' : KeepsControl q r) : KeepsControl p r := by
  obtain ⟨hres, hi, hf, ht, hm⟩ := h
  obtain ⟨hres', hi', hf', ht', hm'⟩ := h'
  exact ⟨hres'.trans hres, hi'.trans hi, hf'.trans hf, ht'.trans ht, hm'.trans hm⟩

namespace WithinFrame

variable {i : Instr} {s u : State}

theorem refl (i : Instr) (s : State) : WithinFrame i s s :=
  ⟨fun _ _ => rfl, id, id, ⟨rfl, rfl, rfl⟩, KeepsControl.refl _, fun _ => rfl⟩

theorem mode_eq (h : WithinFrame i s u) : u.cpsr.mode = s.cpsr.mode := by
  obtain ⟨-, -, -, -, hm⟩ := h.control
  exact hm

theorem thumb_eq (h : WithinFrame i s u) : u.cpsr.t = s.cpsr.t := by
  obtain ⟨-, -, -, ht, -⟩ := h.control
  exact ht

theorem withDraws (h : WithinFrame i s u) (d : Nat) : WithinFrame i s { u with draws := d } :=
  ⟨h.regs, h.wf, h.even, h.system, h.control, h.flags⟩

theorem withPc (h : WithinFrame i s u) {a : Word} (ha : s.pc.getLsbD 0 = false → a.getLsbD 0 = false) :
    WithinFrame i s (u.withPc a) :=
  ⟨h.regs, h.wf, ha, h.system, h.control, h.flags⟩

theorem withMem (h : WithinFrame i s u) {m : List Host.Cell} (hm : Memory.wf u.mem = true → Memory.wf m = true) :
    WithinFrame i s (u.withMem m) :=
  ⟨h.regs, hm ∘ h.wf, h.even, h.system, h.control, h.flags⟩

theorem withCpsr (h : WithinFrame i s u) {p : Psr} (hf : writesFlags i = true) (hp : KeepsControl u.cpsr p) :
    WithinFrame i s (u.withCpsr p) :=
  ⟨h.regs, h.wf, h.even, h.system, h.control.trans hp, fun hn => absurd (hf.symm.trans hn) (by decide)⟩

theorem writeReg (h : WithinFrame i s u) {r : Reg} (hr : MayWrite i r) (v : Word) : WithinFrame i s (u.writeReg r v) where
  regs p hp := by
    have hne : phys u.cpsr.mode r ≠ some p := h.mode_eq ▸ hp r hr
    rw [State.bank_writeReg, if_neg hne, h.regs p hp]
  wf := by simpa using h.wf
  even := by simpa using h.even
  system := by simpa [KeepsSystem] using h.system
  control := by simpa using h.control
  flags := by simpa using h.flags

theorem writeRegs {vs : List (Reg × Word)} (h : WithinFrame i s u) (hr : ∀ r ∈ vs.map Prod.fst, MayWrite i r) :
    WithinFrame i s (u.writeRegs vs) := by
  induction vs generalizing u with
  | nil => exact h
  | cons c rest ih =>
    obtain ⟨r, v⟩ := c
    rw [List.map_cons, List.forall_mem_cons] at hr
    exact ih (h.writeReg hr.1 v) hr.2

theorem setValue (h : WithinFrame i s u) (a : Word) (n : Size) (v : Word) : WithinFrame i s (u.setValue a n v) := by
  rw [State.setValue_mem_only]
  exact h.withMem (State.wf_setValue u a n v)

/-- The words of a multiple store. -/
theorem writeWords {t : State} {a : Word} {vs : List Word} (h : WithinFrame i s u) (hw : writeWords u a vs = .ok t) :
    WithinFrame i s t := by
  obtain ⟨hmem, hwf⟩ := writeWords_state u t a vs hw
  rw [hmem]
  exact h.withMem hwf

/-- The words of a multiple load, and the registers they go to. -/
theorem readWords {t : State} {a : Word} {regs : List Reg} {vs : List (Reg × Word)} (h : WithinFrame i s u)
    (hw : readWords u a regs = .ok (vs, t)) (hr : ∀ r ∈ regs, MayWrite i r) : WithinFrame i s (t.writeRegs vs) := by
  obtain ⟨⟨d, rfl⟩, hregs⟩ := readWords_state u t a regs vs hw
  exact (h.withDraws d).writeRegs (hregs ▸ hr)

end WithinFrame

/-! The ways an instruction runs -/

/-- Each of these accesses is aligned and admitted. -/
abbrev Granted (s : State) (qs : List (Word × Size × Access)) : Prop :=
  ∀ q ∈ qs, q.1.toNat % q.2.1.bytes = 0 ∧ s.admitted q.1 q.2.1 q.2.2 = true

/-- The grounds on which an instruction stops short of its completion: it is none, its list is invalid, an access is
refused, or it writes the PC itself (BX has grounds of its own, R214, R216). -/
inductive MayStop (i : Instr) (s : State) : Prop
  | undefined (h : i.wellFormed = true → noInstruction (encode i) = true)
  | list (h : invalidList i = true)
  | access (h : ¬ Granted s (accesses s i))
  | writesPc (h : writesPc i = true)

/-- The instruction is BX of a register that holds `v` (R213). -/
inductive BxOf (s : State) : Instr → Word → Prop
  | lo (r : LoReg) : BxOf s (.bxRs r) (s.x (lo r))
  | hi (r : HiReg) : BxOf s (.bxHs r) (s.x (hi r))

/-- The outcomes an instruction can have: its work and the advance to the next halfword, a stop, a jump, the exchange of
BX, or the exception entry of SWI. -/
inductive Runs (i : Instr) (s : State) : Out → Prop
  | advances {u : State} (hf : WithinFrame i s u) (hpc : u.pc = s.pc) : Runs i s u.advance
  | stops {f : Fault} (h : MayStop i s) : Runs i s (.fault f)
  | jumps {t : State} (hw : writesPc i = true) (hf : WithinFrame i s t) : Runs i s (.next t)
  | exchanges {v : Word} (h : BxOf s i v) : Runs i s (s.branchExchange v)
  | traps {v : BitVec 8} (h : i = .swi v) : Runs i s (.next s.enterSwi)

/-! Which accesses are granted -/

/-- A granted transfer of words has every word admitted. -/
theorem eachWord_of_granted {s : State} {k : Access} {a : Word} {n : Nat} (h : Granted s (wordAccesses k a n)) :
    eachWord (fun b => s.admitted b .word k) a n = true := by
  induction n generalizing a with
  | zero => rfl
  | succ n ih =>
    obtain ⟨⟨-, hd⟩, hrest⟩ := List.forall_mem_cons.1 h
    rw [eachWord, hd, ih hrest]
    rfl

/-- A granted multiple store answers. -/
theorem writeWords_of_granted {s : State} {a : Word} {vs : List Word} (h : Granted s (wordAccesses .write a vs.length)) :
    ∃ t, writeWords s a vs = .ok t := by
  cases vs with
  | nil => exact ⟨s, rfl⟩
  | cons v rest =>
    obtain ⟨ha, -⟩ := (List.forall_mem_cons.1 h).1
    exact writeWords_of_admitted s a (v :: rest) ha (eachWord_of_granted h)

/-- A granted multiple load answers. -/
theorem readWords_of_granted {s : State} {a : Word} {regs : List Reg}
    (h : Granted s (wordAccesses .read a regs.length)) : ∃ vs t, readWords s a regs = .ok (vs, t) := by
  cases regs with
  | nil => exact ⟨[], s, rfl⟩
  | cons r rest =>
    obtain ⟨ha, -⟩ := (List.forall_mem_cons.1 h).1
    obtain ⟨vs, e, hr, -⟩ := readWords_of_admitted s a (r :: rest) ha (eachWord_of_granted h)
    exact ⟨vs, _, hr⟩

/-! One rule for each shape of a meaning -/

namespace Runs

variable {i : Instr} {s u : State}

/-- A data operation that writes a Lo register and flags (formats 1 to 4); MUL does so after a draw. -/
theorem result (hu : WithinFrame i s u) (hpc : u.pc = s.pc) (hf : writesFlags i = true) {rd : LoReg} {v : Word} {p : Psr}
    (hp : KeepsControl u.cpsr p) : Runs i s (u.result rd v p) :=
  .advances ((hu.writeReg (mayWrite_lo i rd) v).withCpsr hf (by simpa using hp)) (by simpa using hpc)

theorem logical (hf : writesFlags i = true) {rd : LoReg} {r : Word} : Runs i s (s.logical rd r) :=
  result (.refl i s) rfl hf (Psr.keepsControl_setNZ _ _)

theorem shifted (hf : writesFlags i = true) {rd : LoReg} {r : Word × Bool} : Runs i s (s.shifted rd r) :=
  result (.refl i s) rfl hf (Psr.keepsControl_setNZC _ _ _)

theorem drawn_shifted (hf : writesFlags i = true) {rd : LoReg} {r : Word × Bool} : Runs i s (s.drawn.shifted rd r) :=
  have hu : WithinFrame i s s.drawn := (WithinFrame.refl i s).withDraws (s.draws + 1)
  result hu rfl hf (Psr.keepsControl_setNZC _ _ _)

theorem added (hf : writesFlags i = true) {rd : LoReg} {r : AddResult} : Runs i s (s.added rd r) :=
  result (.refl i s) rfl hf (Psr.keepsControl_setNZCV _ _)

theorem flagged (hf : writesFlags i = true) {p : Psr} (hp : KeepsControl s.cpsr p) : Runs i s (s.flagged p) :=
  .advances ((WithinFrame.refl i s).withCpsr hf hp) rfl

theorem written {r : Reg} (hr : MayWrite i r) {v : Word} : Runs i s (s.writeReg r v).advance :=
  .advances ((WithinFrame.refl i s).writeReg hr v) (State.writeReg_pc s r v)

/-- Format 5 with a Hi destination: the PC is the one destination that makes it a jump (R199). -/
theorem assigned (hw : writesHiRegister i = true) {r : Reg} (hpc : writesPc i = decide (r = pcReg)) {v : Word} :
    Runs i s (s.assign r v) := by
  by_cases hr : r = pcReg
  · rw [hr, State.assign_pcReg]
    exact .jumps (hpc.trans (decide_eq_true hr)) ((WithinFrame.refl i s).withPc fun _ => getLsbD_zero_clearBit0 v)
  · rw [State.assign, if_neg hr]
    exact written (.inl hw)

theorem loaded {rd : LoReg} {a : Word} {n : Size} {e : Word → Word} (hacc : accesses s i = [(a, n, .read)]) :
    Runs i s (loadInto s (lo rd) a n e) := by
  unfold loadInto
  split
  next f hm =>
    refine .stops (.access fun hg => ?_)
    obtain ⟨ha, hd⟩ := hg (a, n, .read) (by rw [hacc]; exact List.mem_singleton_self _)
    obtain ⟨v, d, hok⟩ := memRead_of_admitted s a n .read ha hd
    rw [hm] at hok
    cases hok
  next v u hm =>
    obtain ⟨-, -, ⟨-, rfl⟩ | ⟨-, rfl⟩⟩ := memRead_cases _ _ _ _ _ _ hm
    · exact written (mayWrite_lo i rd)
    · exact .advances (((WithinFrame.refl i s).withDraws _).writeReg (mayWrite_lo i rd) _) (State.writeReg_pc _ _ _)

theorem stored {a : Word} {n : Size} {v : Word} (hacc : accesses s i = [(a, n, .write)]) :
    Runs i s (storeFrom s a n v) := by
  unfold storeFrom
  split
  next f hm =>
    refine .stops (.access fun hg => ?_)
    obtain ⟨ha, hd⟩ := hg (a, n, .write) (by rw [hacc]; exact List.mem_singleton_self _)
    rw [memWrite_of_admitted s a n v ha hd] at hm
    cases hm
  next u hm =>
    obtain ⟨-, -, rfl⟩ := memWrite_cases _ _ _ _ _ hm
    exact .advances ((WithinFrame.refl i s).setValue a n v) (by rw [State.setValue_mem_only, State.withMem_pc])

theorem storedMultiple {base : Reg} {start newBase : Word} {regs : List Reg} (hb : MayWrite i base)
    (hacc : accesses s i = wordAccesses .write start regs.length) : Runs i s (storeMultiple s base start newBase regs) := by
  unfold storeMultiple
  split
  next f hm =>
    refine .stops (.access fun hg => ?_)
    rw [hacc, ← regs.length_map s.x] at hg
    obtain ⟨t, hok⟩ := writeWords_of_granted hg
    rw [hm] at hok
    cases hok
  next u hm =>
    refine .advances (((WithinFrame.refl i s).writeWords hm).writeReg hb newBase) ?_
    rw [State.writeReg_pc, (writeWords_state _ _ _ _ hm).1, State.withMem_pc]

theorem loadedMultiple {base : Reg} {start newBase : Word} {regs : List Reg} (hb : MayWrite i base)
    (hr : ∀ r ∈ regs, MayWrite i r) (hacc : accesses s i = wordAccesses .read start regs.length) :
    Runs i s (loadMultiple s base start newBase regs) := by
  unfold loadMultiple
  split
  next f hm =>
    refine .stops (.access fun hg => ?_)
    rw [hacc] at hg
    obtain ⟨vs, t, hok⟩ := readWords_of_granted hg
    rw [hm] at hok
    cases hok
  next vs u hm =>
    refine .advances (((WithinFrame.refl i s).readWords hm hr).writeReg hb newBase) ?_
    obtain ⟨⟨d, rfl⟩, -⟩ := readWords_state _ _ _ _ _ hm
    rw [State.writeReg_pc, State.writeRegs_regs_only]

/-- The checks of R282 stand before the transfer. -/
theorem checked {c : Prop} [Decidable c] {f : Fault} {o : Out} (hc : c → invalidList i = true) (ho : Runs i s o) :
    Runs i s (if c then .fault f else o) := by
  split
  next h => exact .stops (.list (hc h))
  next => exact ho

/-- POP with the PC: the loaded word's bit 0 is discarded (R273). -/
theorem popped (l : BitVec 8) (s : State) : Runs (.popPc l) s (execPopPc l s) := by
  unfold execPopPc
  dsimp only
  split
  next f hm => exact .stops (.writesPc rfl)
  next vs u hm =>
    have hr : ∀ r ∈ regList l ++ [pcReg], MayWrite (.popPc l) r :=
      List.forall_mem_append.2 ⟨mayWrite_of_mem_regList _ l, List.forall_mem_singleton.2 (.inr (.inr (by decide)))⟩
    have hframe := ((WithinFrame.refl (.popPc l) s).readWords hm hr).writeReg (mayWrite_spReg _)
      (s.x spReg + extent (regList l ++ [pcReg]))
    exact .jumps rfl (hframe.withPc fun _ => getLsbD_zero_clearBit0 _)

/-- A conditional branch: taken it jumps by an even offset, not taken it advances (R291). -/
theorem branched (hw : writesPc i = true) {c : Cond} {o : BitVec 8} : Runs i s (s.branchIf c o) := by
  unfold State.branchIf
  split
  next =>
    refine .jumps hw ((WithinFrame.refl i s).withPc fun h => ?_)
    rw [getLsbD_zero_add, State.even_pcAhead h, getLsbD_zero_branchOffset8]
    rfl
  next => exact .advances (.refl i s) rfl

theorem branchedAlways (o : BitVec 11) (s : State) : Runs (.b o) s (execB o s) := by
  refine .jumps rfl ((WithinFrame.refl _ s).withPc fun h => ?_)
  rw [getLsbD_zero_add, State.even_pcAhead h, getLsbD_zero_branchOffset11]
  rfl

theorem linked (o : BitVec 11) (s : State) : Runs (.blSecond o) s (execBlSecond o s) :=
  .jumps rfl (((WithinFrame.refl _ s).writeReg (mayWrite_lrReg _) _).withPc fun _ => getLsbD_zero_clearBit0 _)

theorem exchangedHi (r : HiReg) (s : State) : Runs (.bxHs r) s (execBxHs r s) := by
  unfold execBxHs
  split
  next => exact .stops (.writesPc rfl)
  next => exact .exchanges (.hi r)

end Runs

/-! The rows that give no instruction -/

theorem eq_of_inRow {m p h : Half} (hrow : inRow m p h = true) : h &&& m = p := eq_of_beq hrow

/-- The undefined and unassigned rows that `noInstruction` lists with the mask of the row itself (R124, R125). -/
theorem noInstruction_of_row {m p h : Half} (hm : (m, p) ∈ [(0xFFC0#16, 0x4400#16), (0xFFC0#16, 0x4500#16),
    (0xFFC0#16, 0x4600#16), (0xFF80#16, 0x4780#16), (0xFF00#16, 0xDE00#16), (0xF800#16, 0xE800#16)])
    (hrow : inRow m p h = true) : noInstruction h = true := by
  simp only [List.mem_cons, List.not_mem_nil, or_false, Prod.mk.injEq] at hm
  rcases hm with ⟨rfl, rfl⟩ | ⟨rfl, rfl⟩ | ⟨rfl, rfl⟩ | ⟨rfl, rfl⟩ | ⟨rfl, rfl⟩ | ⟨rfl, rfl⟩ <;> simp [noInstruction, hrow]

/-- BX with low bits set (R134): the row's mask is that of the format 5 row and of the low bits together. -/
theorem noInstruction_of_bxLow {p h : Half} (hp : p &&& 0xFF80#16 = 0x4700#16) (hlow : p &&& 0x0007#16 ≠ 0#16)
    (hrow : inRow 0xFF87#16 p h = true) : noInstruction h = true := by
  have hh : h &&& 0xFF87#16 = p := eq_of_inRow hrow
  have hfmt : h &&& 0xFF80#16 = 0x4700#16 := by
    rw [← hp, ← hh, BitVec.and_assoc]
    rfl
  have hset : h &&& 0x0007#16 ≠ 0#16 := by
    rw [← hh, BitVec.and_assoc] at hlow
    exact hlow
  have hbx : (inRow 0xFF80#16 0x4700#16 h && h &&& 0x0007#16 != 0#16) = true := by
    rw [inRow, hfmt, bne_iff_ne.2 hset]
    rfl
  simp [noInstruction, hbx]

/-- The unassigned rows of 256 halfwords (R125). -/
theorem noInstruction_of_unassigned {p h : Half} (hp : p ∈ [0xB100#16, 0xB200#16, 0xB300#16, 0xB600#16, 0xB700#16,
    0xB800#16, 0xB900#16, 0xBA00#16, 0xBB00#16, 0xBE00#16, 0xBF00#16]) (hrow : inRow 0xFF00#16 p h = true) :
    noInstruction h = true := by
  rw [noInstruction, eq_of_inRow hrow, List.contains_iff_mem.2 hp, Bool.or_true]

/-- Every instruction runs in one of the five ways; the case split over the 107 rows is done here once. -/
theorem exec_runs (i : Instr) (s : State) : Runs i s (exec i s) := by
  cases i with
  | lslImm | lsrImm | asrImm | lslReg | lsrReg | asrReg | rorReg => exact .shifted rfl
  | addReg | subReg | addImm3 | subImm3 | addImm8 | subImm8 | adcReg | sbcReg | negReg => exact .added rfl
  | movImm8 | andReg | eorReg | orrReg | bicReg | mvnReg => exact .logical rfl
  | mulReg => exact .drawn_shifted rfl
  | tstReg => exact .flagged rfl (Psr.keepsControl_setNZ _ _)
  | cmpImm8 | cmpReg | cmnReg | cmpRdHs | cmpHdRs | cmpHdHs => exact .flagged rfl (Psr.keepsControl_setNZCV _ _)
  | addRdHs | movRdHs | addRdPc | addRdSp => exact .written (mayWrite_lo _ _)
  | addSpImm | addSpNegImm => exact .written (mayWrite_spReg _)
  | blFirst => exact .written (mayWrite_lrReg _)
  | addHdRs | addHdHs | movHdRs | movHdHs => exact .assigned rfl rfl
  | ldrPc | ldrReg | ldrbReg | ldsbReg | ldrhReg | ldshReg | ldrImm | ldrbImm | ldrhImm | ldrSp => exact .loaded rfl
  | strReg | strbReg | strhReg | strImm | strbImm | strhImm | strSp => exact .stored rfl
  | push l => exact .checked beq_iff_eq.2 (.storedMultiple (mayWrite_spReg _) rfl)
  | pushLr l =>
    refine .storedMultiple (mayWrite_spReg _) ?_
    rw [List.length_append]
    rfl
  | pop l => exact .checked beq_iff_eq.2 (.loadedMultiple (mayWrite_spReg _) (mayWrite_of_mem_regList _ l) rfl)
  | popPc l => exact .popped l s
  | stmia rb l =>
    refine .checked (fun h => ?_) (.checked (fun h => ?_) (.storedMultiple (mayWrite_lo _ rb) rfl))
    · rw [invalidList, h]; rfl
    · rw [invalidList, h, Bool.or_true]
  | ldmia rb l =>
    refine .checked (fun h => ?_) (.checked (fun h => ?_)
      (.loadedMultiple (mayWrite_lo _ rb) (mayWrite_of_mem_regList _ l) rfl))
    · rw [invalidList, h]; rfl
    · rw [invalidList, h, Bool.or_true]
  | beq | bne | bcs | bcc | bmi | bpl | bvs | bvc | bhi | bls | bge | blt | bgt | ble => exact .branched rfl
  | b o => exact .branchedAlways o s
  | blSecond o => exact .linked o s
  | bxRs r => exact .exchanges (.lo r)
  | bxHs r => exact .exchangedHi r s
  | swi v => exact .traps rfl
  | undefAddLoLo | undefCmpLoLo | undefMovLoLo | undefBxH1 | undefCond14 | unassignedE8 =>
    exact .stops (.undefined (noInstruction_of_row (by decide)))
  | undefBxLow1 | undefBxLow2 | undefBxLow3 | undefBxLow4 | undefBxLow5 | undefBxLow6 | undefBxLow7 =>
    exact .stops (.undefined (noInstruction_of_bxLow (by decide) (by decide)))
  | unassignedB1 | unassignedB2 | unassignedB3 | unassignedB6 | unassignedB7 | unassignedB8 | unassignedB9 | unassignedBA
  | unassignedBB | unassignedBE | unassignedBF => exact .stops (.undefined (noInstruction_of_unassigned (by decide)))

/-! What a completed instruction did -/

/-- The state a BX completes in: T is bit 0 of the register, nothing else changes but the PC, which is even, and a multiple
of 4 in ARM state (R214, R361). -/
theorem State.branchExchange_next_eq {s t : State} {v : Word} (h : s.branchExchange v = .next t) :
    ∃ a : Word, t = (s.withCpsr { s.cpsr with t := v.getLsbD 0 }).withPc a ∧ a.getLsbD 0 = false ∧
      (v.getLsbD 0 = false → a.getLsbD 1 = false) := by
  obtain ⟨h0, rfl⟩ | ⟨h0, h1, rfl⟩ := s.branchExchange_next t v h <;> rw [h0]
  · exact ⟨_, rfl, getLsbD_zero_clearBit0 v, nofun⟩
  · exact ⟨v, rfl, h0, fun _ => h1⟩

/-- What a completed instruction did: BX and SWI apart, it stayed within its frame. -/
theorem exec_next_cases {i : Instr} {s t : State} (h : exec i s = .next t) :
    WithinFrame i s t ∨ (∃ v, BxOf s i v ∧ s.branchExchange v = .next t) ∨ ((∃ v, i = .swi v) ∧ t = s.enterSwi) := by
  have hruns := exec_runs i s
  generalize exec i s = o at hruns h
  cases hruns with
  | @advances u hf hpc =>
    obtain ⟨-, rfl⟩ := u.advance_next t h
    exact .inl (hf.withPc fun heven => even_next (hpc ▸ heven))
  | stops => cases h
  | jumps _ hf =>
    injection h with h
    exact .inl (h ▸ hf)
  | exchanges hbx => exact .inr (.inl ⟨_, hbx, h⟩)
  | @traps v hi =>
    injection h with h
    exact .inr (.inr ⟨⟨v, hi⟩, h.symm⟩)

/-- An instruction that does not write the PC advances from where it stood, unless it has grounds to stop. -/
theorem exec_sequential {i : Instr} (s : State) (hw : writesPc i = false) :
    (∃ u : State, exec i s = u.advance ∧ u.pc = s.pc) ∨ ((∃ f, exec i s = .fault f) ∧ MayStop i s) := by
  have hruns := exec_runs i s
  generalize exec i s = o at hruns ⊢
  cases hruns with
  | advances _ hpc => exact .inl ⟨_, rfl, hpc⟩
  | stops hstop => exact .inr ⟨⟨_, rfl⟩, hstop⟩
  | jumps hjump => exact absurd (hw.symm.trans hjump) (by decide)
  | exchanges hbx => cases hbx <;> cases hw
  | traps hi =>
    rw [hi] at hw
    cases hw

/-- The machine does not advance past the end of the address space (R30, D4; log 9). -/
theorem State.advance_at_lastHalf {s : State} (h : s.pc = lastHalf) : s.advance = .fault (.unpredictable .pcWrap) := if_pos h

/-! The statements -/

/-- A fetch changes nothing the invariant speaks of. -/
theorem fetch_keeps_inv {s t : State} {h : Half} (hf : fetch s = .ok (h, t)) (hi : Inv s) : Inv t ∧ t.cpsr = s.cpsr := by
  obtain ⟨-, -, rfl | rfl⟩ := fetch_ok s t h hf
  · exact ⟨hi, rfl⟩
  · exact ⟨hi, rfl⟩

/-- An instruction that completes from THUMB state keeps the invariant: within its frame T stays set, BX and SWI enter ARM
state at a multiple of 4. -/
theorem exec_keeps_inv {i : Instr} {s t : State} (hi : Inv s) (ht : s.cpsr.t = true) (h : exec i s = .next t) : Inv t := by
  obtain ⟨hmem, heven, -⟩ := hi
  obtain hframe | ⟨v, -, hx⟩ | ⟨-, rfl⟩ := exec_next_cases h
  · exact ⟨hframe.wf hmem, hframe.even heven, fun hf => absurd (hframe.thumb_eq.symm.trans hf) (by simp [ht])⟩
  · obtain ⟨a, rfl, h0, h1⟩ := State.branchExchange_next_eq hx
    exact ⟨hmem, h0, h1⟩
  · obtain ⟨h0, h1⟩ := swiVector_aligned
    exact ⟨hmem, h0, fun _ => h1⟩

/-- If a step completes: it was in THUMB state, the fetch answered, and the decoded instruction completed (R67). -/
theorem step_next {s t : State} (h : step s = .next t) :
    s.cpsr.t = true ∧ ∃ half u, fetch s = .ok (half, u) ∧ exec (decodeHalf half) u = .next t := by
  unfold step at h
  split at h
  next ht =>
    split at h
    · cases h
    next half u hf => exact ⟨ht, half, u, hf, h⟩
  next => cases h

/-- Settles O53: a step is a fetch, which keeps the invariant, and an instruction in THUMB state, which keeps it too. -/
theorem stepKeepsInvariant : Obligations.StepKeepsInvariant := by
  intro s t hi h
  obtain ⟨ht, half, u, hf, hexec⟩ := step_next h
  obtain ⟨hu, hcpsr⟩ := fetch_keeps_inv hf hi
  exact exec_keeps_inv hu (hcpsr ▸ ht) hexec

/-- A conditional branch is the shared branch on its condition (R291). -/
theorem exec_assembleBranchIf (c : Cond) (o : BitVec 8) (s : State) : exec (assembleBranchIf c o) s = s.branchIf c o := by
  cases c <;> rfl

/-- Settles O52: such an instruction ends in the advance, which stops at the last halfword; and there nothing stops it
before, for each of its grounds to stop is excluded. -/
theorem sequentialAdvance : Obligations.SequentialAdvance := by
  intro s
  refine ⟨fun i hw => ⟨fun t h => ?_, fun hlast hdef hwf hlist hacc => ?_⟩, fun c o hc hlast => ?_⟩
  · obtain ⟨u, hu, hpc⟩ | ⟨⟨f, hf⟩, -⟩ := exec_sequential s hw
    · obtain ⟨hne, rfl⟩ := u.advance_next t (hu.symm.trans h)
      rw [State.withPc_pc, ← hpc]
      exact ⟨hne, rfl⟩
    · cases hf.symm.trans h
  · obtain ⟨u, hu, hpc⟩ | ⟨-, hstop⟩ := exec_sequential s hw
    · rw [hu, State.advance_at_lastHalf (hpc.trans hlast)]
    · cases hstop with
      | undefined h => exact absurd (hdef.symm.trans (h hwf)) (by decide)
      | list h => exact absurd (hlist.symm.trans h) (by decide)
      | access h => exact absurd hacc h
      | writesPc h => exact absurd (hw.symm.trans h) (by decide)
  · rw [exec_assembleBranchIf, State.branchIf, hc, if_neg Bool.false_ne_true, State.advance_at_lastHalf hlast]

/-- Settles O56: within the frame of an instruction and in BX the control bits, the saved status and every register no
number names are kept; the byte order and the map in SWI too. -/
theorem onlySwiChangesProcessorControl : Obligations.OnlySwiChangesProcessorControl := by
  intro i s t h
  obtain hframe | ⟨v, -, hx⟩ | ⟨hswi, rfl⟩ := exec_next_cases h
  · obtain ⟨hspsr, hbe, hregions⟩ := hframe.system
    obtain ⟨hres, hi, hf, -, hmode⟩ := hframe.control
    exact ⟨hbe, hregions, fun _ => ⟨hmode, hi, hf, hres, hspsr, fun p hp => hframe.regs p fun r _ => hp r⟩⟩
  · obtain ⟨a, rfl, -⟩ := State.branchExchange_next_eq hx
    exact ⟨rfl, rfl, fun _ => ⟨rfl, rfl, rfl, rfl, rfl, fun _ _ => rfl⟩⟩
  · obtain ⟨v, hv⟩ := hswi
    exact ⟨rfl, rfl, fun hne => absurd hv (hne v)⟩

/-- BX of a Hi register that completes passed the check of R216. -/
theorem exec_bxHs_next {r : HiReg} {s t : State} (h : exec (.bxHs r) s = .next t) :
    s.branchExchange (s.x (hi r)) = .next t := by
  rw [show exec (.bxHs r) s = execBxHs r s from rfl, execBxHs] at h
  split at h
  · cases h
  · exact h

/-- After BX T is bit 0 of the register (R213). -/
theorem thumb_of_bx {i : Instr} {s t : State} {v : Word} (hbx : BxOf s i v) (h : exec i s = .next t) :
    t.cpsr.t = v.getLsbD 0 := by
  have hx : s.branchExchange v = .next t := by
    cases hbx with
    | lo r => exact h
    | hi r => exact exec_bxHs_next h
  obtain ⟨a, rfl, -⟩ := State.branchExchange_next_eq hx
  rfl

/-- Settles O57: within its frame an instruction keeps T; SWI clears it, and BX sets it to bit 0 of the register. -/
theorem thumbStateLeftOnlyBySwiAndBx : Obligations.ThumbStateLeftOnlyBySwiAndBx := by
  intro i s t ht h
  constructor
  · intro hleft
    obtain hframe | ⟨v, hbx, -⟩ | ⟨hswi, -⟩ := exec_next_cases h
    · exact absurd (hframe.thumb_eq.trans ht) (by simp [hleft])
    · have h0 : v.getLsbD 0 = false := (thumb_of_bx hbx h).symm.trans hleft
      cases hbx with
      | lo r => exact .inr (.inl ⟨r, rfl, h0⟩)
      | hi r => exact .inr (.inr ⟨r, rfl, h0⟩)
    · exact .inl hswi
  · rintro (⟨v, rfl⟩ | ⟨r, rfl, h0⟩ | ⟨r, rfl, h0⟩)
    · injection h with h
      rw [← h, State.enterSwi_cpsr]
    · exact (thumb_of_bx (.lo r) h).trans h0
    · exact (thumb_of_bx (.hi r) h).trans h0

/-- Settles O59: the frame of an instruction that writes no flag keeps the whole status register, BX writes T alone, and
the exception entry of SWI keeps the flags. -/
theorem onlyDataProcessingWritesFlags : Obligations.OnlyDataProcessingWritesFlags := by
  intro i s t hflags h
  obtain hframe | ⟨v, -, hx⟩ | ⟨-, rfl⟩ := exec_next_cases h
  · rw [hframe.flags hflags]
    exact ⟨rfl, rfl, rfl, rfl⟩
  · obtain ⟨a, rfl, -⟩ := State.branchExchange_next_eq hx
    exact ⟨rfl, rfl, rfl, rfl⟩
  · exact ⟨rfl, rfl, rfl, rfl⟩

/-- R8 to R12 and FIQ mode's copies of them have no number below 8 or above 12 in any mode (R21, R331). -/
theorem phys_ne_hiRegister (m : Mode) : ∀ p ∈ [PhysReg.r8, .r9, .r10, .r11, .r12, .r8Fiq, .r9Fiq, .r10Fiq, .r11Fiq, .r12Fiq],
    ∀ r : Reg, r.toNat < 8 ∨ 13 ≤ r.toNat → phys m r ≠ some p := by
  cases m <;> decide

/-- Settles O60: but for ADD and MOV with a Hi destination, no number an instruction may write names one of them. -/
theorem onlyFormatFiveWritesHiRegisters : Obligations.OnlyFormatFiveWritesHiRegisters := by
  intro i s t hno h p hp
  obtain hframe | ⟨v, -, hx⟩ | ⟨-, rfl⟩ := exec_next_cases h
  · refine hframe.regs p fun r hr => phys_ne_hiRegister _ p hp r (hr.resolve_left ?_)
    rw [hno]
    decide
  · obtain ⟨a, rfl, -⟩ := State.branchExchange_next_eq hx
    rfl
  · have hne : PhysReg.lrSvc ≠ p := by
      rintro rfl
      exact absurd hp (by decide)
    exact (State.bank_withBank s _ p _).trans (if_neg hne)

/-- Settles O54: each condition is one of the launch conditions, and no launch state is in ARM state. -/
theorem invariantHoldsAtLaunch : Obligations.InvariantHoldsAtLaunch := by
  have hlaunch : ∀ s, Launch s → Inv s := fun s ⟨ht, heven, hmem⟩ =>
    ⟨hmem, heven, fun harm => absurd (ht.symm.trans harm) (by decide)⟩
  have hreset : Launch State.reset := ⟨rfl, rfl, rfl⟩
  exact ⟨hlaunch _ hreset, hreset, hlaunch⟩

theorem State.reset_bank (p : PhysReg) : State.reset.bank p = 0#32 := Vector.getElem_replicate p.index.isLt

/-- At reset every byte of the address space is ordinary memory, for every kind of access (log 5). -/
theorem State.reset_ordinary_byte (a : Word) (k : Access) : State.reset.ordinary a .byte k = true := by
  have hlast : a.toNat + 1 ≤ 4294967296 := a.isLt
  have hadm : Region.everything.admits a .byte k = true := by
    cases k <;> simp [Region.admits, Region.everything, Size.bytes, hlast]
  have hfor : State.reset.regionFor a .byte k = some Region.everything := List.find?_cons_of_pos hadm
  rw [State.ordinary, hfor]
  rfl

/-- Settles O55: the fields of the reset state, its registers and its one region of ordinary memory. -/
theorem resetState : Obligations.ResetState := by
  refine ⟨rfl, rfl, State.reset_bank, rfl, rfl, rfl, rfl, rfl, ?_, rfl, fun a k => ⟨rfl, State.reset_ordinary_byte a k⟩⟩
  decide

end Sys2Proof.Machine
end

section
/-! Memory as stores, loads and fetches see it: the bytes a store leaves, what the fetch of a step answers, where a refused
access stops an instruction, and that nothing but the stores reaches memory (20_memory.md R62 to R72; 60_exceptions.md
R327). -/

namespace Sys2Proof.Machine

/-! The bytes of a stored value -/

/-- Stored bytes read back: byte `k` at the address `k` above the first. -/
theorem State.byteAt_setBytes {s : State} {a : Word} {bs : List Byte} {k : Nat} (hw : Memory.wf s.mem = true)
    (hlen : bs.length ≤ 2 ^ 32) (hk : k < bs.length) : (s.setBytes a bs).byteAt (a + BitVec.ofNat 32 k) = bs[k] := by
  induction bs generalizing s a k with
  | nil => exact absurd hk (Nat.not_lt_zero k)
  | cons b rest ih =>
    rw [List.length_cons] at hlen hk
    cases k with
    | zero =>
      have hnext : ∀ j, j < rest.length → a ≠ a + 1#32 + BitVec.ofNat 32 j := fun j hj heq => by
        have := congrArg BitVec.toNat heq
        simp only [BitVec.toNat_add, BitVec.toNat_ofNat] at this
        omega
      rw [BitVec.add_zero, State.setBytes, State.byteAt_setBytes_other _ _ _ _ hnext, State.byteAt_setByte_self s a b hw]
      rfl
    | succ k =>
      have haddr : a + BitVec.ofNat 32 (k + 1) = a + 1#32 + BitVec.ofNat 32 k := by
        rw [Nat.add_comm k 1, BitVec.ofNat_add, BitVec.add_assoc]
      rw [haddr]
      exact ih (State.wf_setByte s a b hw) (by omega) (by omega)

/-- Byte `k` of a value in address order: from the top down in big-endian order, else from the bottom up (R63). -/
theorem bytesOf_getElem (be : Bool) (n : Size) (v : Word) (k : Nat) (hk : k < (bytesOf be n v).length) :
    (bytesOf be n v)[k] = v.extractLsb' (8 * if be then n.bytes - 1 - k else k) 8 := by
  have hk' : k < n.bytes := bytesOf_length be n v ▸ hk
  cases n <;> rw [Size.bytes] at hk' <;> cases be <;> interval_cases k <;> rfl

/-- Byte `k` of memory after a store of a value. -/
theorem State.byteAt_setValue {s : State} (a : Word) {n : Size} (v : Word) {k : Nat} (hw : Memory.wf s.mem = true)
    (hk : k < n.bytes) : (s.setValue a n v).byteAt (a + BitVec.ofNat 32 k) =
      v.extractLsb' (8 * if s.bigEndian then n.bytes - 1 - k else k) 8 := by
  have hlen : n.bytes ≤ 2 ^ 32 := by cases n <;> decide
  rw [← bytesOf_length s.bigEndian n v] at hk hlen
  rw [State.setValue, State.byteAt_setBytes hw hlen hk, bytesOf_getElem]

/-- Two neighbouring bytes of a word are sixteen of its bits. -/
theorem bytes_append_half (v : Word) (q : Nat) : v.extractLsb' (q + 8) 8 ++ v.extractLsb' q 8 = v.extractLsb' q 16 :=
  BitVec.extractLsb'_append_extractLsb'_eq_extractLsb' rfl

/-- Four neighbouring bytes of a word are thirty-two of its bits. -/
theorem bytes_append_word (v : Word) (q : Nat) : v.extractLsb' (q + 24) 8 ++ v.extractLsb' (q + 16) 8 ++
    v.extractLsb' (q + 8) 8 ++ v.extractLsb' q 8 = v.extractLsb' q 32 := by
  have hupper : v.extractLsb' (q + 16) 16 ++ v.extractLsb' (q + 8) 8 = v.extractLsb' (q + 8) 24 :=
    BitVec.extractLsb'_append_extractLsb'_eq_extractLsb' rfl
  rw [bytes_append_half v (q + 16), hupper]
  exact BitVec.extractLsb'_append_extractLsb'_eq_extractLsb' rfl

/-- The value at an address, when the bytes there are those of the word `v` from its byte `p` on. -/
theorem State.valueAt_of_bytes {s : State} {a : Word} {n : Size} {v : Word} {p : Nat}
    (h : ∀ k, k < n.bytes → s.byteAt (a + BitVec.ofNat 32 k) =
      v.extractLsb' (8 * (p + if s.bigEndian then n.bytes - 1 - k else k)) 8) :
    s.valueAt a n = (v.extractLsb' (8 * p) (8 * n.bytes)).setWidth 32 := by
  have h0 := h 0
  rw [BitVec.add_zero] at h0
  cases n with
  | byte =>
    cases hbe : s.bigEndian <;> simpa [State.valueAt, Size.bytes, hbe] using congrArg (BitVec.setWidth 32) (h0 (by decide))
  | half =>
    have h1 := h 1 (by decide)
    cases hbe : s.bigEndian <;> simp [State.valueAt, h0 (by decide), h1, hbe, Size.bytes, Nat.mul_add, bytes_append_half]
  | word =>
    have h1 := h 1 (by decide)
    have h2 := h 2 (by decide)
    have h3 := h 3 (by decide)
    cases hbe : s.bigEndian <;> simp [State.valueAt, h0 (by decide), h1, h2, h3, hbe, Size.bytes, Nat.mul_add, bytes_append_word]

@[simp] theorem State.setValue_bigEndian (s : State) (a : Word) (n : Size) (v : Word) :
    (s.setValue a n v).bigEndian = s.bigEndian := by
  rw [State.setValue_mem_only, State.withMem_bigEndian]

/-- A read of `m` bytes that lies inside a stored value, `j` bytes above its address, answers the bits that the byte order
puts there; with `m = n` it answers the whole value (R63, R64, R65). -/
theorem State.valueAt_setValue_inside {s : State} (a : Word) {n m : Size} (v : Word) {j : Nat}
    (hw : Memory.wf s.mem = true) (hj : j + m.bytes ≤ n.bytes) :
    ((s.setValue a n v).valueAt (a + BitVec.ofNat 32 j) m).toNat =
      v.toNat / 2 ^ (8 * if s.bigEndian then n.bytes - j - m.bytes else j) % 2 ^ (8 * m.bytes) := by
  have hbytes : ∀ k, k < m.bytes → (s.setValue a n v).byteAt (a + BitVec.ofNat 32 j + BitVec.ofNat 32 k) =
      v.extractLsb' (8 * ((if s.bigEndian then n.bytes - j - m.bytes else j) +
        if (s.setValue a n v).bigEndian then m.bytes - 1 - k else k)) 8 := fun k hk => by
    rw [BitVec.add_assoc, ← BitVec.ofNat_add, State.byteAt_setValue a v hw (by omega), State.setValue_bigEndian]
    congr 2
    split <;> omega
  have hfits : 2 ^ (8 * m.bytes) ≤ 2 ^ 32 := by cases m <;> decide
  rw [State.valueAt_of_bytes hbytes, BitVec.toNat_setWidth, BitVec.extractLsb'_toNat, Nat.shiftRight_eq_div_pow]
  exact Nat.mod_eq_of_lt ((Nat.mod_lt _ (Nat.two_pow_pos _)).trans_le hfits)

/-- A stored value reads back. -/
theorem State.valueAt_setValue_self {s : State} (a : Word) (n : Size) (v : Word) (hw : Memory.wf s.mem = true) :
    ((s.setValue a n v).valueAt a n).toNat = v.toNat % 2 ^ (8 * n.bytes) := by
  have hinside := State.valueAt_setValue_inside a (n := n) (m := n) (j := 0) v hw (by omega)
  simpa using hinside

/-- Settles O8: reads inside the stored value, the frame of a store, and that it keeps memory canonical. -/
theorem readAfterWrite : Obligations.ReadAfterWrite := by
  intro s a n v hw
  refine ⟨State.valueAt_setValue_self a n v hw, State.keepsMemoryBut_setValue s a n v, State.wf_setValue s a n v hw, ?_, ?_⟩
  · have hlow := State.valueAt_setValue_inside a (n := .word) (m := .byte) (j := 0) v hw (by decide)
    rw [BitVec.add_zero] at hlow
    rw [hlow]
    have := v.isLt
    cases s.bigEndian <;> simp [Size.bytes]
    omega
  · have hhigh := State.valueAt_setValue_inside a (n := .word) (m := .half) (j := 2) v hw (by decide)
    rw [hhigh]
    have := v.isLt
    cases s.bigEndian <;> simp [Size.bytes]
    omega

/-! Fetch and step -/

/-- Which region an access goes to does not depend on memory's contents. -/
theorem State.ordinary_withMem (s : State) (m : List Host.Cell) (a : Word) (n : Size) (k : Access) :
    (s.withMem m).ordinary a n k = s.ordinary a n k := rfl

/-- A step in THUMB state whose fetch answers runs the decoded halfword in the state the fetch left (R67). -/
theorem step_of_fetch_ok {s u : State} {h : Half} (ht : s.cpsr.t = true) (hf : fetch s = .ok (h, u)) :
    step s = exec (decodeHalf h) u := by
  rw [step, if_pos ht, hf]

/-- The fetch answers the low halfword of what its memory read answers. -/
theorem fetch_of_memRead_ok {s u : State} {v : Word} (h : memRead s s.pc .half .fetch = .ok (v, u)) :
    fetch s = .ok (v.setWidth 16, u) := by
  rw [fetch, h]

/-- The fetch from ordinary memory answers the two bytes there in the byte order in force and changes nothing. -/
theorem fetch_of_ordinary {s : State} (heven : s.pc.toNat % 2 = 0) (ho : s.ordinary s.pc .half .fetch = true) :
    fetch s = .ok ((s.valueAt s.pc .half).setWidth 16, s) :=
  fetch_of_memRead_ok (memRead_of_ordinary s s.pc .half .fetch heven ho)

/-- The halfword at an address is that of its two bytes in the byte order in force (R63). -/
theorem State.valueAt_half_eq_halfOfBytes (s : State) (a : Word) :
    (s.valueAt a .half).setWidth 16 = halfOfBytes s.bigEndian (s.byteAt a) (s.byteAt (a + 1#32)) := by
  cases hbe : s.bigEndian <;> simp [State.valueAt, halfOfBytes, hbe]

/-- The fetch from a device answers the low halfword of the oracle's answer and counts one draw (R72; log 6). -/
theorem fetch_of_device {s : State} (heven : s.pc.toNat % 2 = 0) (hadm : s.admitted s.pc .half .fetch = true)
    (ho : s.ordinary s.pc .half .fetch = false) :
    fetch s = .ok ((Config.deviceRead s.draws s.pc 2).extractLsb' 0 16, s.drawn) := by
  rw [fetch_of_memRead_ok (memRead_of_device s s.pc .half .fetch heven hadm ho)]
  simp [Size.trunc, Size.bytes]

/-- Settles O5: the fetch answers the halfword at the PC, from memory or from the device, and the step runs its instruction. -/
theorem stepRunsDecodedInstruction : Obligations.StepRunsDecodedInstruction := by
  intro s i ht heven
  refine ⟨fun ho hdec => ?_, fun hadm ho hdec => ?_⟩
  · have hi : decodeHalf (halfOfBytes s.bigEndian (s.byteAt s.pc) (s.byteAt (s.pc + 1#32))) = i := by
      simpa [decode] using hdec
    rw [step_of_fetch_ok ht (fetch_of_ordinary heven ho), State.valueAt_half_eq_halfOfBytes, hi]
  · rw [step_of_fetch_ok ht (fetch_of_device heven hadm ho), hdec]

/-- Placing an instruction changes memory only. -/
theorem State.withFetchWord_mem_only (s : State) (nbits w : Nat) :
    s.withFetchWord nbits w = s.withMem (s.withFetchWord nbits w).mem :=
  State.setValue_mem_only ..

/-- A placed halfword is the one the next fetch answers, in either byte order. -/
theorem fetch_withFetchWord {s : State} (w : Nat) (heven : s.pc.toNat % 2 = 0)
    (ho : s.ordinary s.pc .half .fetch = true) (hw : Memory.wf s.mem = true) :
    fetch (s.withFetchWord 16 w) = .ok (BitVec.ofNat 16 w, s.withFetchWord 16 w) := by
  have hpc : (s.withFetchWord 16 w).pc = s.pc := by rw [State.withFetchWord_mem_only, State.withMem_pc]
  have hord : (s.withFetchWord 16 w).ordinary s.pc .half .fetch = true := by
    rw [State.withFetchWord_mem_only, State.ordinary_withMem, ho]
  have hval : ((s.withFetchWord 16 w).valueAt s.pc .half).setWidth 16 = BitVec.ofNat 16 w := by
    apply BitVec.eq_of_toNat_eq
    rw [BitVec.toNat_setWidth, State.withFetchWord, State.valueAt_setValue_self _ _ _ hw]
    simp [Size.bytes]
  rw [← hpc] at heven hord hval
  rw [fetch_of_ordinary heven hord, hval]

/-- Settles O7: the next fetch answers the placed halfword; the frame is that of the store. -/
theorem placedWordRuns : Obligations.PlacedWordRuns := by
  intro s w ht heven ho hw
  have ht' : (s.withFetchWord 16 w).cpsr.t = true := by rw [State.withFetchWord_mem_only, State.withMem_cpsr, ht]
  exact ⟨step_of_fetch_ok ht' (fetch_withFetchWord w heven ho hw), s.withFetchWord_mem_only 16 w,
    s.keepsMemoryBut_setValue s.pc .half _⟩

/-! Loads from a device -/

/-- The low bytes of a value as a number (R64, R65). -/
theorem Size.trunc_toNat (n : Size) (v : Word) : (n.trunc v).toNat = v.toNat % 2 ^ (8 * n.bytes) := by
  cases n with
  | word => exact (Nat.mod_eq_of_lt v.isLt).symm
  | byte | half => simp [Size.trunc, Size.bytes]; omega

/-- The sign extension of a loaded byte is the signed value of the low byte (R69). -/
theorem signExtend8_trunc_toInt (v : Word) : (signExtend8 (Size.byte.trunc v)).toInt = (v.setWidth 8 : BitVec 8).toInt := by
  have hlow : (Size.byte.trunc v).extractLsb' 0 8 = v.setWidth 8 :=
    BitVec.eq_of_toNat_eq (by simp [Size.trunc])
  rw [signExtend8, hlow, BitVec.toInt_signExtend_of_le (by decide)]

/-- The sign extension of a loaded halfword is the signed value of the low halfword (R69). -/
theorem signExtend16_trunc_toInt (v : Word) :
    (signExtend16 (Size.half.trunc v)).toInt = (v.setWidth 16 : BitVec 16).toInt := by
  have hlow : (Size.half.trunc v).extractLsb' 0 16 = v.setWidth 16 :=
    BitVec.eq_of_toNat_eq (by simp [Size.trunc])
  rw [signExtend16, hlow, BitVec.toInt_signExtend_of_le (by decide)]

/-- A single load from a device region completes: the register holds what the load's extension makes of the oracle's
answer, one draw is counted, and nothing else changes but the PC (R64, R72). -/
theorem loadsFromDevice_of_loadInto {i : Instr} {s : State} {rd : LoReg} {a : Word} {n : Size} {e : Word → Word}
    {P : Word → Word → Prop} (hi : exec i s = loadInto s (lo rd) a n e) (hP : ∀ d, P d (e (n.trunc d))) :
    LoadsFromDevice i s rd a n P := by
  intro hpc ha hadm ho
  obtain ⟨t, ht, hx, hcpsr, hnext, hdraws, hleaves⟩ := State.writeReg_advance_completes s.drawn (lo rd)
    (e (n.trunc (Config.deviceRead s.draws a n.bytes))) (lo_ne_pcReg rd) hpc
  refine ⟨t, ?_, hx ▸ hP _, hnext, hdraws, hcpsr, hleaves⟩
  rw [hi, loadInto, memRead_of_device s a n .read ha hadm ho]
  exact ht

/-- Settles O25: each load is the shared single load with its own extension. -/
theorem loadFromDevice : Obligations.LoadFromDevice := by
  intro s rd rb ro o w whole byte half signedByte signedHalf
  have hwhole : ∀ d, whole d (id (Size.word.trunc d)) := fun d => rfl
  have hbyte : ∀ d, byte d (zeroExtend (Size.byte.trunc d)) := Size.byte.trunc_toNat
  have hhalf : ∀ d, half d (zeroExtend (Size.half.trunc d)) := Size.half.trunc_toNat
  refine ⟨?ldrPc, ?ldrReg, ?ldrImm, ?ldrSp, ?ldrbReg, ?ldrhReg, ?ldrbImm, ?ldrhImm, ?ldsbReg, ?ldshReg⟩
  case ldrPc | ldrReg | ldrImm | ldrSp => exact loadsFromDevice_of_loadInto rfl hwhole
  case ldrbReg | ldrbImm => exact loadsFromDevice_of_loadInto rfl hbyte
  case ldrhReg | ldrhImm => exact loadsFromDevice_of_loadInto rfl hhalf
  case ldsbReg => exact loadsFromDevice_of_loadInto rfl signExtend8_trunc_toInt
  case ldshReg => exact loadsFromDevice_of_loadInto rfl signExtend16_trunc_toInt

/-! Accesses that stop -/

/-- A store at an address that is no multiple of its size stops before the address map is asked. -/
theorem memWrite_of_misaligned {s : State} {a : Word} {n : Size} {v : Word} (ha : a.toNat % n.bytes ≠ 0) :
    memWrite s a n v = .error (.misaligned a n) := if_pos ha

/-- An aligned store that no region admits stops. -/
theorem memWrite_of_unadmitted {s : State} {a : Word} {n : Size} {v : Word} (ha : a.toNat % n.bytes = 0)
    (hd : s.admitted a n .write = false) : memWrite s a n v = .error (.memFault a n .write) := by
  rw [memWrite, if_neg (not_not.2 ha), hd, if_neg Bool.false_ne_true]

section

/-! An instruction that is one of the shared accesses stops where that access does (R64, R65, R327) -/

variable {i : Instr} {s : State} {a start newBase v : Word} {n : Size} {rd base : Reg} {e : Word → Word} {regs : List Reg}

theorem stopsMisaligned_of_loadInto (hi : exec i s = loadInto s rd a n e) : StopsMisaligned i s a n := fun ha => by
  rw [hi, loadInto, memRead_of_misaligned s a n .read ha]

theorem stopsMisaligned_of_storeFrom (hi : exec i s = storeFrom s a n v) : StopsMisaligned i s a n := fun ha => by
  rw [hi, storeFrom, memWrite_of_misaligned ha]

theorem stopsNotAdmitted_of_loadInto (hi : exec i s = loadInto s rd a n e) : StopsNotAdmitted i s a n .read :=
  fun ha hd => by rw [hi, loadInto, memRead_of_unadmitted s a n .read ha hd]

theorem stopsNotAdmitted_of_storeFrom (hi : exec i s = storeFrom s a n v) : StopsNotAdmitted i s a n .write :=
  fun ha hd => by rw [hi, storeFrom, memWrite_of_unadmitted ha hd]

theorem stopsAtUnadmittedWord_of_storeMultiple (hi : exec i s = storeMultiple s base start newBase regs) :
    StopsAtUnadmittedWord i s start regs.length .write := fun j hj ha hbefore hd => by
  rw [← regs.length_map s.x] at hj
  rw [hi, storeMultiple, writeWords_of_unadmitted s start (regs.map s.x) j hj ha hbefore hd]

theorem stopsAtUnadmittedWord_of_loadMultiple (hi : exec i s = loadMultiple s base start newBase regs) :
    StopsAtUnadmittedWord i s start regs.length .read := fun j hj ha hbefore hd => by
  rw [hi, loadMultiple, readWords_of_unadmitted s start regs j hj ha hbefore hd]

end

/-- The address of the PC-relative load is a multiple of 4 (R220). -/
theorem addrPc_aligned (s : State) (w : BitVec 8) : (addrPc s w).toNat % 4 = 0 := by
  rw [addrPc, State.pcWordAligned, immWord8_eq, BitVec.toNat_add, clearBits10_toNat, BitVec.toNat_ofNat]
  omega

/-- Settles O28: each is the shared single load or store, which checks alignment first. -/
theorem misalignedAccessStops : Obligations.MisalignedAccessStops := by
  intro s rd rb ro o w
  refine ⟨?strReg, ?ldrReg, ?strhReg, ?ldrhReg, ?ldshReg, ?strImm, ?ldrImm, ?strhImm, ?ldrhImm, ?strSp, ?ldrSp,
    addrPc_aligned s w⟩
  case ldrReg | ldrhReg | ldshReg | ldrImm | ldrhImm | ldrSp => exact stopsMisaligned_of_loadInto rfl
  case strReg | strhReg | strImm | strhImm | strSp => exact stopsMisaligned_of_storeFrom rfl

/-! The multiple transfers with a valid list (R282) -/

theorem exec_push {l : BitVec 8} (s : State) (hl : l ≠ 0#8) : exec (.push l) s = pushRegisters s (regList l) := if_neg hl

theorem exec_pop {l : BitVec 8} (s : State) (hl : l ≠ 0#8) : exec (.pop l) s =
    loadMultiple s spReg (s.x spReg) (s.x spReg + extent (regList l)) (regList l) := if_neg hl

theorem exec_stmia {rb : LoReg} {l : BitVec 8} (s : State) (hl : l ≠ 0#8) (hb : l.getLsbD rb.toNat = false) :
    exec (.stmia rb l) s =
      storeMultiple s (lo rb) (s.x (lo rb)) (s.x (lo rb) + extent (regList l)) (regList l) :=
  (if_neg hl).trans (if_neg (Bool.eq_false_iff.1 hb))

theorem exec_ldmia {rb : LoReg} {l : BitVec 8} (s : State) (hl : l ≠ 0#8) (hb : l.getLsbD rb.toNat = false) :
    exec (.ldmia rb l) s =
      loadMultiple s (lo rb) (s.x (lo rb)) (s.x (lo rb) + extent (regList l)) (regList l) :=
  (if_neg hl).trans (if_neg (Bool.eq_false_iff.1 hb))

/-- PUSH with LR stops at its first unadmitted word; LR is one word more than the list (R271). -/
theorem stopsAtUnadmittedWord_pushLr (s : State) (l : BitVec 8) :
    StopsAtUnadmittedWord (.pushLr l) s (s.x spReg - BitVec.ofNat 32 (4 * ((regList l).length + 1)))
      ((regList l).length + 1) .write := by
  have hlen : (regList l ++ [lrReg]).length = (regList l).length + 1 := List.length_append
  rw [← hlen]
  exact stopsAtUnadmittedWord_of_storeMultiple rfl

/-- POP with the PC stops at its first unadmitted word; the PC is one word more than the list (R273). -/
theorem stopsAtUnadmittedWord_popPc (s : State) (l : BitVec 8) :
    StopsAtUnadmittedWord (.popPc l) s (s.x spReg) ((regList l).length + 1) .read := by
  intro j hj ha hbefore hd
  have hlen : (regList l ++ [pcReg]).length = (regList l).length + 1 := List.length_append
  rw [← hlen] at hj
  rw [show exec (.popPc l) s = execPopPc l s from rfl, execPopPc]
  simp only [readWords_of_unadmitted s (s.x spReg) _ j hj ha hbefore hd]

/-- Settles O29: the single accesses are the shared load and store, the multiple ones with a valid list the shared
transfers, which stop at their first refused word. -/
theorem unadmittedAccessStops : Obligations.UnadmittedAccessStops := by
  intro s rd rb ro o w l regs sp
  refine ⟨?ldrPc, ?strReg, ?strbReg, ?ldrReg, ?ldrbReg, ?strhReg, ?ldsbReg, ?ldrhReg, ?ldshReg, ?strImm, ?ldrImm, ?strbImm,
    ?ldrbImm, ?strhImm, ?ldrhImm, ?strSp, ?ldrSp, ?pushPop, ?pushLr, ?popPc, ?multiple⟩
  case ldrPc | ldrReg | ldrbReg | ldsbReg | ldrhReg | ldshReg | ldrImm | ldrbImm | ldrhImm | ldrSp =>
    exact stopsNotAdmitted_of_loadInto rfl
  case strReg | strbReg | strhReg | strImm | strbImm | strhImm | strSp => exact stopsNotAdmitted_of_storeFrom rfl
  case pushPop =>
    exact fun hl => ⟨stopsAtUnadmittedWord_of_storeMultiple (exec_push s hl),
      stopsAtUnadmittedWord_of_loadMultiple (exec_pop s hl)⟩
  case pushLr => exact stopsAtUnadmittedWord_pushLr s l
  case popPc => exact stopsAtUnadmittedWord_popPc s l
  case multiple =>
    exact fun hl hb => ⟨stopsAtUnadmittedWord_of_storeMultiple (exec_stmia s hl hb),
      stopsAtUnadmittedWord_of_loadMultiple (exec_ldmia s hl hb)⟩

/-! What reaches memory and what draws -/

/-- Every completion of `o` from `s` leaves memory alone unless `i` is a store, and draws nothing unless `i` is a load or
MUL (R62, R68; logs 6, 16). -/
def Accounts (i : Instr) (s : State) (o : Out) : Prop :=
  ∀ t, o = .next t → (writesMemory i = false → t.mem = s.mem) ∧
    (readsMemory i = false → (∀ rd rs, i ≠ .mulReg rd rs) → t.draws = s.draws)

namespace Accounts

variable {i : Instr} {s : State}

theorem stops {f : Fault} : Accounts i s (.fault f) := fun _ h => by cases h

theorem next {t : State} (hm : t.mem = s.mem) (hd : t.draws = s.draws) : Accounts i s (.next t) := by
  rintro _ ⟨⟩
  exact ⟨fun _ => hm, fun _ _ => hd⟩

/-- Work that leaves memory and the count of draws alone, and the advance. -/
theorem advances {u : State} (hm : u.mem = s.mem) (hd : u.draws = s.draws) : Accounts i s u.advance := by
  intro t h
  obtain ⟨-, rfl⟩ := u.advance_next t h
  exact ⟨fun _ => hm, fun _ _ => hd⟩

theorem written {r : Reg} {v : Word} : Accounts i s (s.writeReg r v).advance := advances (by simp) (by simp)

theorem result {rd : LoReg} {v : Word} {p : Psr} : Accounts i s (s.result rd v p) := advances (by simp) (by simp)

/-- MUL, the one data operation that draws (R183; log 16). -/
theorem multiplied (rd rs : LoReg) (s : State) : Accounts (.mulReg rd rs) s (execMulReg rd rs s) := by
  intro t h
  obtain ⟨-, rfl⟩ := State.advance_next _ t h
  exact ⟨fun _ => by simp, fun _ hne => absurd rfl (hne rd rs)⟩

theorem assigned {r : Reg} {v : Word} : Accounts i s (s.assign r v) := by
  unfold State.assign
  split
  next => exact next rfl rfl
  next => exact written

theorem branched {c : Cond} {o : BitVec 8} : Accounts i s (s.branchIf c o) := by
  unfold State.branchIf
  split
  next => exact next rfl rfl
  next => exact advances rfl rfl

theorem exchanged {v : Word} : Accounts i s (s.branchExchange v) := by
  intro t h
  obtain ⟨a, rfl, -⟩ := State.branchExchange_next_eq h
  exact ⟨fun _ => rfl, fun _ _ => rfl⟩

/-- A check stands before the work (R216, R282). -/
theorem checked {c : Prop} [Decidable c] {f : Fault} {o : Out} (ho : Accounts i s o) :
    Accounts i s (if c then .fault f else o) := by
  split
  next => exact stops
  next => exact ho

/-- A load: memory is left alone. -/
theorem of_load (hr : readsMemory i = true) {o : Out} (h : ∀ t, o = .next t → t.mem = s.mem) : Accounts i s o :=
  fun t ht => ⟨fun _ => h t ht, fun hno => absurd (hr.symm.trans hno) (by decide)⟩

/-- A store: nothing is drawn. -/
theorem of_store (hw : writesMemory i = true) {o : Out} (h : ∀ t, o = .next t → t.draws = s.draws) : Accounts i s o :=
  fun t ht => ⟨fun hno => absurd (hw.symm.trans hno) (by decide), fun _ _ => h t ht⟩

theorem loaded (hr : readsMemory i = true) {rd : Reg} {a : Word} {n : Size} {e : Word → Word} :
    Accounts i s (loadInto s rd a n e) := of_load hr fun t h => by
  obtain ⟨v, u, hm, -, rfl⟩ := loadInto_next s t rd a n e h
  obtain ⟨-, -, ⟨-, rfl⟩ | ⟨-, rfl⟩⟩ := memRead_cases s u a n .read v hm <;> simp

theorem loadedMultiple (hr : readsMemory i = true) {base : Reg} {start newBase : Word} {regs : List Reg} :
    Accounts i s (loadMultiple s base start newBase regs) := of_load hr fun t h => by
  obtain ⟨vs, u, hread, -, rfl⟩ := loadMultiple_next s t base start newBase regs h
  obtain ⟨⟨d, rfl⟩, -⟩ := readWords_state s u start regs vs hread
  rw [State.withPc_mem, State.writeReg_mem, State.writeRegs_regs_only]

theorem popped (l : BitVec 8) (s : State) : Accounts (.popPc l) s (execPopPc l s) := of_load rfl fun t h => by
  unfold execPopPc at h
  dsimp only at h
  split at h
  next => cases h
  next vs u hread =>
    injection h with h
    obtain ⟨⟨d, rfl⟩, -⟩ := readWords_state s u _ _ vs hread
    rw [← h, State.withPc_mem, State.writeReg_mem, State.writeRegs_regs_only]

theorem stored (hw : writesMemory i = true) {a : Word} {n : Size} {v : Word} : Accounts i s (storeFrom s a n v) :=
  of_store hw fun t h => by
    obtain ⟨-, -, rfl⟩ := storeFrom_next s t a n v h
    rw [State.setValue_mem_only]
    rfl

theorem storedMultiple (hw : writesMemory i = true) {base : Reg} {start newBase : Word} {regs : List Reg} :
    Accounts i s (storeMultiple s base start newBase regs) := of_store hw fun t h => by
  obtain ⟨u, hwrite, -, rfl⟩ := storeMultiple_next s t base start newBase regs h
  obtain ⟨hmem, -⟩ := writeWords_state s u start _ hwrite
  rw [State.withPc_draws, State.writeReg_draws, hmem, State.withMem_draws]

end Accounts

/-- Every instruction accounts for the bytes it stores and the values it draws; each row by the shape of its meaning. -/
theorem exec_accounts (i : Instr) (s : State) : Accounts i s (exec i s) := by
  cases i with
  | lslImm | lsrImm | asrImm | addReg | subReg | addImm3 | subImm3 | movImm8 | addImm8 | subImm8 | andReg | eorReg | lslReg
  | lsrReg | asrReg | adcReg | sbcReg | rorReg | negReg | orrReg | bicReg | mvnReg => exact .result
  | mulReg rd rs => exact .multiplied rd rs s
  | cmpImm8 | tstReg | cmpReg | cmnReg | cmpRdHs | cmpHdRs | cmpHdHs => exact .advances rfl rfl
  | addRdHs | movRdHs | addRdPc | addRdSp | addSpImm | addSpNegImm | blFirst => exact .written
  | addHdRs | addHdHs | movHdRs | movHdHs => exact .assigned
  | ldrPc | ldrReg | ldrbReg | ldsbReg | ldrhReg | ldshReg | ldrImm | ldrbImm | ldrhImm | ldrSp => exact .loaded rfl
  | strReg | strbReg | strhReg | strImm | strbImm | strhImm | strSp => exact .stored rfl
  | push => exact .checked (.storedMultiple rfl)
  | pushLr => exact .storedMultiple rfl
  | stmia => exact .checked (.checked (.storedMultiple rfl))
  | pop => exact .checked (.loadedMultiple rfl)
  | popPc l => exact .popped l s
  | ldmia => exact .checked (.checked (.loadedMultiple rfl))
  | beq | bne | bcs | bcc | bmi | bpl | bvs | bvc | bhi | bls | bge | blt | bgt | ble => exact .branched
  | b => exact .next rfl rfl
  | blSecond => exact .next (by simp) (by simp)
  | bxRs => exact .exchanged
  | bxHs => exact .checked .exchanged
  | swi => exact .next rfl rfl
  | undefAddLoLo | undefCmpLoLo | undefMovLoLo | undefBxH1 | undefBxLow1 | undefBxLow2 | undefBxLow3 | undefBxLow4
  | undefBxLow5 | undefBxLow6 | undefBxLow7 | undefCond14 | unassignedB1 | unassignedB2 | unassignedB3 | unassignedB6
  | unassignedB7 | unassignedB8 | unassignedB9 | unassignedBA | unassignedBB | unassignedBE | unassignedBF
  | unassignedE8 => exact .stops

/-- Settles O58: equal memories read the same at every byte. -/
theorem onlyStoresChangeMemory : Obligations.OnlyStoresChangeMemory := by
  intro i s t h
  obtain ⟨hmem, hdraws⟩ := exec_accounts i s t h
  exact ⟨fun hno a => by rw [State.byteAt, State.byteAt, hmem hno], hdraws⟩

end Sys2Proof.Machine
end

section
/-! The decoder and the encoder undo each other, and the rows of the opcode map part the halfwords (30_encoding.md R101 to
R120, R127, R128). -/

namespace Sys2Proof

/-! Fields of a halfword -/

theorem field_eq_iff {h : Half} {lo w : Nat} {v : BitVec w} : field h lo w = v ↔ h.toNat / 2 ^ lo % 2 ^ w = v.toNat := by
  rw [BitVec.toNat_eq, BitVec.extractLsb'_toNat, Nat.shiftRight_eq_div_pow]

/-- Two neighbouring fields are one. -/
theorem field_append {h : Half} {lo v w : Nat} {x : BitVec w} {y : BitVec v} (hx : field h (lo + v) w = x)
    (hy : field h lo v = y) : field h lo (w + v) = x ++ y := by
  rw [← hx, ← hy]
  exact (BitVec.extractLsb'_append_extractLsb'_eq_extractLsb' rfl).symm

/-- The upper part of a field. -/
theorem field_high {h : Half} {lo v w : Nat} {x : BitVec w} {y : BitVec v} (hxy : field h lo (w + v) = x ++ y) :
    field h (lo + v) w = x := by
  have happ : field h (lo + v) w ++ field h lo v = x ++ y := (field_append rfl rfl).symm.trans hxy
  rw [← BitVec.extractLsb'_append_eq_left (a := field h (lo + v) w), happ, BitVec.extractLsb'_append_eq_left]

/-- An appended word as a number. -/
theorem toNat_append_eq {m n : Nat} (x : BitVec m) (y : BitVec n) : (x ++ y).toNat = x.toNat * 2 ^ n + y.toNat := by
  rw [BitVec.toNat_append, ← Nat.shiftLeft_add_eq_or_of_lt y.isLt, Nat.shiftLeft_eq]

/-! The layouts of R101 to R119, each by the widths of its fields from bit 15 down -/

section Layouts

variable {h : Half}

theorem layout_5_11 {op : BitVec 5} {a : BitVec 11} : op ++ a = h ↔ field h 11 5 = op ∧ field h 0 11 = a := by
  rw [field_eq_iff, field_eq_iff, BitVec.toNat_eq]
  simp only [toNat_append_eq]
  omega

theorem layout_8_8 {op a : BitVec 8} : op ++ a = h ↔ field h 8 8 = op ∧ field h 0 8 = a := by
  rw [field_eq_iff, field_eq_iff, BitVec.toNat_eq]
  simp only [toNat_append_eq]
  omega

theorem layout_9_7 {op : BitVec 9} {a : BitVec 7} : op ++ a = h ↔ field h 7 9 = op ∧ field h 0 7 = a := by
  rw [field_eq_iff, field_eq_iff, BitVec.toNat_eq]
  simp only [toNat_append_eq]
  omega

theorem layout_5_3_8 {op : BitVec 5} {a : BitVec 3} {b : BitVec 8} :
    op ++ a ++ b = h ↔ field h 11 5 = op ∧ field h 8 3 = a ∧ field h 0 8 = b := by
  rw [field_eq_iff, field_eq_iff, field_eq_iff, BitVec.toNat_eq]
  simp only [toNat_append_eq]
  omega

theorem layout_10_3_3 {op : BitVec 10} {a b : BitVec 3} :
    op ++ a ++ b = h ↔ field h 6 10 = op ∧ field h 3 3 = a ∧ field h 0 3 = b := by
  rw [field_eq_iff, field_eq_iff, field_eq_iff, BitVec.toNat_eq]
  simp only [toNat_append_eq]
  omega

theorem layout_5_5_3_3 {op a : BitVec 5} {b c : BitVec 3} :
    op ++ a ++ b ++ c = h ↔ field h 11 5 = op ∧ field h 6 5 = a ∧ field h 3 3 = b ∧ field h 0 3 = c := by
  rw [field_eq_iff, field_eq_iff, field_eq_iff, field_eq_iff, BitVec.toNat_eq]
  simp only [toNat_append_eq]
  omega

theorem layout_7_3_3_3 {op : BitVec 7} {a b c : BitVec 3} :
    op ++ a ++ b ++ c = h ↔ field h 9 7 = op ∧ field h 6 3 = a ∧ field h 3 3 = b ∧ field h 0 3 = c := by
  rw [field_eq_iff, field_eq_iff, field_eq_iff, field_eq_iff, BitVec.toNat_eq]
  simp only [toNat_append_eq]
  omega

end Layouts

/-! Fields and rows -/

/-- A field of a halfword of a row: where the mask covers the field, it is the pattern's. -/
theorem field_of_row {h m p : Half} {lo w : Nat} {v : BitVec w} (hrow : h &&& m = p)
    (hmask : field m lo w = BitVec.allOnes w) (hpat : field p lo w = v) : field h lo w = v := by
  have hand : field (h &&& m) lo w = field h lo w &&& field m lo w := BitVec.extractLsb'_and
  rw [← hpat, ← hrow, hand, hmask, BitVec.and_allOnes]

/-- The row of the halfwords with one given field. -/
theorem row_of_field {h : Half} {lo w : Nat} {v : BitVec w} (hv : field h lo w = v) :
    h &&& ((BitVec.allOnes w).setWidth 16 <<< lo) = v.setWidth 16 <<< lo := by
  apply BitVec.eq_of_getLsbD_eq
  intro i hi
  rw [← hv]
  by_cases hlo : i < lo
  · simp [hlo]
  · simp [hlo, hi, show lo + (i - lo) = i by omega, Bool.and_comm]

/-- The row of the halfwords with one given field, as `Instr.wellFormed` names a row. -/
theorem inRow_of_field {h : Half} {lo w : Nat} {v : BitVec w} (hv : field h lo w = v) :
    inRow ((BitVec.allOnes w).setWidth 16 <<< lo) (v.setWidth 16 <<< lo) h = true :=
  beq_iff_eq.2 (row_of_field hv)

/-- The sixteen values of a 4-bit field, named by their bits. -/
theorem bitVec4_cases {P : BitVec 4 → Prop} (x : BitVec 4)
    (b0000 : P 0b0000#4) (b0001 : P 0b0001#4) (b0010 : P 0b0010#4) (b0011 : P 0b0011#4)
    (b0100 : P 0b0100#4) (b0101 : P 0b0101#4) (b0110 : P 0b0110#4) (b0111 : P 0b0111#4)
    (b1000 : P 0b1000#4) (b1001 : P 0b1001#4) (b1010 : P 0b1010#4) (b1011 : P 0b1011#4)
    (b1100 : P 0b1100#4) (b1101 : P 0b1101#4) (b1110 : P 0b1110#4) (b1111 : P 0b1111#4) : P x := by
  fin_cases x <;> assumption

/-! Every halfword is written as what it decodes to -/

/-- The halfword `h` is the encoding of the well-formed instruction `i`. -/
def WrittenAs (h : Half) (i : Instr) : Prop := i.wellFormed = true ∧ encode i = h

/-! One lemma for each format: the tested bits and the operand fields, put together in the format's layout, are the halfword;
a row without an instruction carries the halfword, which must lie in it. -/

section Written

variable {h : Half}

theorem writtenAs_decodeFormat1 (hop : field h 13 3 = 0b000#3) (hne : field h 11 5 ≠ 0b00011#5) :
    WrittenAs h (decodeFormat1 h) := by
  have hne : field h 11 2 ≠ 3#2 := fun hx => hne (field_append hop hx)
  unfold decodeFormat1
  generalize hx : field h 11 2 = x at hne ⊢
  fin_cases x
  iterate 3 exact ⟨rfl, layout_5_5_3_3.2 ⟨field_append hop hx, rfl, rfl, rfl⟩⟩
  exact absurd rfl hne

theorem writtenAs_decodeFormat2 (hop : field h 11 5 = 0b00011#5) : WrittenAs h (decodeFormat2 h) := by
  unfold decodeFormat2
  generalize hx : field h 9 2 = x
  fin_cases x <;> exact ⟨rfl, layout_7_3_3_3.2 ⟨field_append hop hx, rfl, rfl, rfl⟩⟩

theorem writtenAs_decodeFormat3 (hop : field h 13 3 = 0b001#3) : WrittenAs h (decodeFormat3 h) := by
  unfold decodeFormat3
  generalize hx : field h 11 2 = x
  fin_cases x <;> exact ⟨rfl, layout_5_3_8.2 ⟨field_append hop hx, rfl, rfl⟩⟩

theorem writtenAs_decodeFormat4 (hop : field h 10 6 = 0b010000#6) : WrittenAs h (decodeFormat4 h) := by
  unfold decodeFormat4
  generalize hx : field h 6 4 = x
  fin_cases x <;> exact ⟨rfl, layout_10_3_3.2 ⟨field_append hop hx, rfl, rfl⟩⟩

/-- The rows of BX with H1 = 0 and low bits `low` (R134) have a mask of two fields. -/
theorem inRow_bxLow {low : BitVec 3} (hop : field h 7 9 = 0b010001110#9) (hlow : field h 0 3 = low) :
    inRow 0xFF87#16 (0x4700#16 ||| low.setWidth 16) h = true := by
  have hsplit : (0xFF87#16 : Half) = 0xFF80#16 ||| 0x0007#16 := rfl
  rw [inRow, beq_iff_eq, hsplit, BitVec.and_or_distrib_left, show h &&& 0xFF80#16 = 0x4700#16 from row_of_field hop,
    show h &&& 0x0007#16 = low.setWidth 16 <<< 0 from row_of_field hlow, BitVec.shiftLeft_zero]

theorem writtenAs_decodeBx (hop : field h 7 9 = 0b010001110#9) : WrittenAs h (decodeBx h) := by
  unfold decodeBx
  generalize hlow : field h 0 3 = low
  fin_cases low
  · generalize hx : field h 6 1 = x
    fin_cases x <;> exact ⟨rfl, layout_10_3_3.2 ⟨field_append hop hx, rfl, hlow⟩⟩
  all_goals
    have hrow := inRow_bxLow hop hlow
    exact ⟨hrow, rfl⟩

theorem writtenAs_undefBxH1 (hop : field h 7 9 = 0b010001111#9) : WrittenAs h (.undefBxH1 h) :=
  have hrow := inRow_of_field hop
  ⟨hrow, rfl⟩

theorem writtenAs_decodeFormat5 (hop : field h 10 6 = 0b010001#6) : WrittenAs h (decodeFormat5 h) := by
  unfold decodeFormat5
  generalize hx : field h 6 4 = x
  have hword : field h 6 10 = 0b010001#6 ++ x := field_append hop hx
  have hrow := inRow_of_field hword
  cases x using bitVec4_cases with
  | b0000 | b0100 | b1000 => exact ⟨hrow, rfl⟩
  | b1100 => exact writtenAs_decodeBx (field_high (y := 0b0#1) hword)
  | b1101 => exact writtenAs_decodeBx (field_high (y := 0b1#1) hword)
  | b1110 => exact writtenAs_undefBxH1 (field_high (y := 0b0#1) hword)
  | b1111 => exact writtenAs_undefBxH1 (field_high (y := 0b1#1) hword)
  | _ => exact ⟨rfl, layout_10_3_3.2 ⟨hword, rfl, rfl⟩⟩

theorem writtenAs_format6 (hop : field h 11 5 = 0b01001#5) : WrittenAs h (.ldrPc (field h 8 3) (field h 0 8)) :=
  ⟨rfl, layout_5_3_8.2 ⟨hop, rfl, rfl⟩⟩

theorem writtenAs_formats7And8 (hop : field h 12 4 = 0b0101#4) :
    WrittenAs h (if field h 9 1 = 0b0#1 then decodeFormat7 h else decodeFormat8 h) := by
  unfold decodeFormat7 decodeFormat8
  generalize hx : field h 10 2 = x
  generalize hb : field h 9 1 = b
  fin_cases x <;> fin_cases b <;> exact ⟨rfl, layout_7_3_3_3.2 ⟨field_append (field_append hop hx) hb, rfl, rfl, rfl⟩⟩

theorem writtenAs_decodeFormat9 (hop : field h 13 3 = 0b011#3) : WrittenAs h (decodeFormat9 h) := by
  unfold decodeFormat9
  generalize hx : field h 11 2 = x
  fin_cases x <;> exact ⟨rfl, layout_5_5_3_3.2 ⟨field_append hop hx, rfl, rfl, rfl⟩⟩

theorem writtenAs_decodeFormat10 (hop : field h 12 4 = 0b1000#4) : WrittenAs h (decodeFormat10 h) := by
  unfold decodeFormat10
  generalize hx : field h 11 1 = x
  fin_cases x <;> exact ⟨rfl, layout_5_5_3_3.2 ⟨field_append hop hx, rfl, rfl, rfl⟩⟩

theorem writtenAs_decodeFormat11 (hop : field h 12 4 = 0b1001#4) : WrittenAs h (decodeFormat11 h) := by
  unfold decodeFormat11
  generalize hx : field h 11 1 = x
  fin_cases x <;> exact ⟨rfl, layout_5_3_8.2 ⟨field_append hop hx, rfl, rfl⟩⟩

theorem writtenAs_decodeFormat12 (hop : field h 12 4 = 0b1010#4) : WrittenAs h (decodeFormat12 h) := by
  unfold decodeFormat12
  generalize hx : field h 11 1 = x
  fin_cases x <;> exact ⟨rfl, layout_5_3_8.2 ⟨field_append hop hx, rfl, rfl⟩⟩

theorem writtenAs_decodeFormats13And14 (hop : field h 12 4 = 0b1011#4) : WrittenAs h (decodeFormats13And14 h) := by
  unfold decodeFormats13And14
  generalize hx : field h 8 4 = x
  have hword : field h 8 8 = 0b1011#4 ++ x := field_append hop hx
  have hrow := inRow_of_field hword
  cases x using bitVec4_cases with
  | b0000 =>
    generalize hs : field h 7 1 = s
    fin_cases s <;> exact ⟨rfl, layout_9_7.2 ⟨field_append hword hs, rfl⟩⟩
  | b0100 | b0101 | b1100 | b1101 => exact ⟨rfl, layout_8_8.2 ⟨hword, rfl⟩⟩
  | _ => exact ⟨hrow, rfl⟩

theorem writtenAs_decodeFormat15 (hop : field h 12 4 = 0b1100#4) : WrittenAs h (decodeFormat15 h) := by
  unfold decodeFormat15
  generalize hx : field h 11 1 = x
  fin_cases x <;> exact ⟨rfl, layout_5_3_8.2 ⟨field_append hop hx, rfl, rfl⟩⟩

theorem writtenAs_decodeFormats16And17 (hop : field h 12 4 = 0b1101#4) : WrittenAs h (decodeFormats16And17 h) := by
  unfold decodeFormats16And17
  generalize hx : field h 8 4 = x
  have hword : field h 8 8 = 0b1101#4 ++ x := field_append hop hx
  have hrow := inRow_of_field hword
  cases x using bitVec4_cases with
  | b1110 => exact ⟨hrow, rfl⟩
  | _ => exact ⟨rfl, layout_8_8.2 ⟨hword, rfl⟩⟩

theorem writtenAs_format18 (hop : field h 11 5 = 0b11100#5) : WrittenAs h (.b (field h 0 11)) :=
  ⟨rfl, layout_5_11.2 ⟨hop, rfl⟩⟩

theorem writtenAs_unassignedE8 (hop : field h 11 5 = 0b11101#5) : WrittenAs h (.unassignedE8 h) :=
  have hrow := inRow_of_field hop
  ⟨hrow, rfl⟩

theorem writtenAs_decodeFormat19 (hop : field h 12 4 = 0b1111#4) : WrittenAs h (decodeFormat19 h) := by
  unfold decodeFormat19
  generalize hx : field h 11 1 = x
  fin_cases x <;> exact ⟨rfl, layout_5_11.2 ⟨field_append hop hx, rfl⟩⟩

end Written

/-- The decoder's chain of tests, taken apart one test at a time. -/
theorem WrittenAs.ite {h : Half} {c : Prop} [Decidable c] {i j : Instr} (hi : c → WrittenAs h i) (hj : ¬ c → WrittenAs h j) :
    WrittenAs h (if c then i else j) := by
  split
  next hc => exact hi hc
  next hc => exact hj hc

/-- Each halfword is the encoding of what it decodes to: one case for each test of R120. -/
theorem writtenAs_decodeHalf (h : Half) : WrittenAs h (decodeHalf h) := by
  unfold decodeHalf
  refine .ite writtenAs_decodeFormat2 fun hne2 => .ite (writtenAs_decodeFormat1 · hne2) fun hne1 =>
    .ite writtenAs_decodeFormat3 fun hne3 => .ite writtenAs_decodeFormat4 fun hne4 =>
    .ite writtenAs_decodeFormat5 fun hne5 => .ite writtenAs_format6 fun hne6 =>
    .ite writtenAs_formats7And8 fun hne7 => .ite writtenAs_decodeFormat9 fun hne9 =>
    .ite writtenAs_decodeFormat10 fun hne10 => .ite writtenAs_decodeFormat11 fun hne11 =>
    .ite writtenAs_decodeFormat12 fun hne12 => .ite writtenAs_decodeFormats13And14 fun hne13 =>
    .ite writtenAs_decodeFormat15 fun hne15 => .ite writtenAs_decodeFormats16And17 fun hne16 =>
    .ite writtenAs_format18 fun hne18 => .ite writtenAs_unassignedE8 fun hneE8 => writtenAs_decodeFormat19 ?_
  simp only [field_eq_iff, BitVec.reduceToNat] at *
  omega

/-! Which format a halfword has: the tests of R120 that come before its own fail -/

section Formats

variable {h : Half}

theorem decodeHalf_format2 (hop : field h 11 5 = 0b00011#5) : decodeHalf h = decodeFormat2 h := by
  rw [decodeHalf, if_pos hop]

theorem decodeHalf_format1 (hop : field h 13 3 = 0b000#3) (hne : field h 11 5 ≠ 0b00011#5) :
    decodeHalf h = decodeFormat1 h := by
  rw [decodeHalf, if_neg hne, if_pos hop]

theorem decodeHalf_format3 (hop : field h 13 3 = 0b001#3) : decodeHalf h = decodeFormat3 h := by
  simp only [decodeHalf, field_eq_iff, BitVec.reduceToNat] at hop ⊢
  iterate 2 rw [if_neg (by omega)]
  rw [if_pos hop]

theorem decodeHalf_format4 (hop : field h 10 6 = 0b010000#6) : decodeHalf h = decodeFormat4 h := by
  simp only [decodeHalf, field_eq_iff, BitVec.reduceToNat] at hop ⊢
  iterate 3 rw [if_neg (by omega)]
  rw [if_pos hop]

theorem decodeHalf_format5 (hop : field h 10 6 = 0b010001#6) : decodeHalf h = decodeFormat5 h := by
  simp only [decodeHalf, field_eq_iff, BitVec.reduceToNat] at hop ⊢
  iterate 4 rw [if_neg (by omega)]
  rw [if_pos hop]

theorem decodeHalf_format6 (hop : field h 11 5 = 0b01001#5) : decodeHalf h = .ldrPc (field h 8 3) (field h 0 8) := by
  simp only [decodeHalf, field_eq_iff, BitVec.reduceToNat] at hop ⊢
  iterate 5 rw [if_neg (by omega)]
  rw [if_pos hop]

theorem decodeHalf_formats7And8 (hop : field h 12 4 = 0b0101#4) :
    decodeHalf h = if field h 9 1 = 0b0#1 then decodeFormat7 h else decodeFormat8 h := by
  simp only [decodeHalf, field_eq_iff, BitVec.reduceToNat] at hop ⊢
  iterate 6 rw [if_neg (by omega)]
  rw [if_pos hop]

theorem decodeHalf_format7 (hop : field h 12 4 = 0b0101#4) (hx : field h 9 1 = 0b0#1) : decodeHalf h = decodeFormat7 h := by
  rw [decodeHalf_formats7And8 hop, if_pos hx]

theorem decodeHalf_format8 (hop : field h 12 4 = 0b0101#4) (hx : field h 9 1 = 0b1#1) : decodeHalf h = decodeFormat8 h := by
  rw [decodeHalf_formats7And8 hop, if_neg (ne_of_eq_of_ne hx (by decide))]

theorem decodeHalf_format9 (hop : field h 13 3 = 0b011#3) : decodeHalf h = decodeFormat9 h := by
  simp only [decodeHalf, field_eq_iff, BitVec.reduceToNat] at hop ⊢
  iterate 7 rw [if_neg (by omega)]
  rw [if_pos hop]

theorem decodeHalf_format10 (hop : field h 12 4 = 0b1000#4) : decodeHalf h = decodeFormat10 h := by
  simp only [decodeHalf, field_eq_iff, BitVec.reduceToNat] at hop ⊢
  iterate 8 rw [if_neg (by omega)]
  rw [if_pos hop]

theorem decodeHalf_format11 (hop : field h 12 4 = 0b1001#4) : decodeHalf h = decodeFormat11 h := by
  simp only [decodeHalf, field_eq_iff, BitVec.reduceToNat] at hop ⊢
  iterate 9 rw [if_neg (by omega)]
  rw [if_pos hop]

theorem decodeHalf_format12 (hop : field h 12 4 = 0b1010#4) : decodeHalf h = decodeFormat12 h := by
  simp only [decodeHalf, field_eq_iff, BitVec.reduceToNat] at hop ⊢
  iterate 10 rw [if_neg (by omega)]
  rw [if_pos hop]

theorem decodeHalf_formats13And14 (hop : field h 12 4 = 0b1011#4) : decodeHalf h = decodeFormats13And14 h := by
  simp only [decodeHalf, field_eq_iff, BitVec.reduceToNat] at hop ⊢
  iterate 11 rw [if_neg (by omega)]
  rw [if_pos hop]

theorem decodeHalf_format15 (hop : field h 12 4 = 0b1100#4) : decodeHalf h = decodeFormat15 h := by
  simp only [decodeHalf, field_eq_iff, BitVec.reduceToNat] at hop ⊢
  iterate 12 rw [if_neg (by omega)]
  rw [if_pos hop]

theorem decodeHalf_formats16And17 (hop : field h 12 4 = 0b1101#4) : decodeHalf h = decodeFormats16And17 h := by
  simp only [decodeHalf, field_eq_iff, BitVec.reduceToNat] at hop ⊢
  iterate 13 rw [if_neg (by omega)]
  rw [if_pos hop]

theorem decodeHalf_format18 (hop : field h 11 5 = 0b11100#5) : decodeHalf h = .b (field h 0 11) := by
  simp only [decodeHalf, field_eq_iff, BitVec.reduceToNat] at hop ⊢
  iterate 14 rw [if_neg (by omega)]
  rw [if_pos hop]

theorem decodeHalf_unassignedE8 (hop : field h 11 5 = 0b11101#5) : decodeHalf h = .unassignedE8 h := by
  simp only [decodeHalf, field_eq_iff, BitVec.reduceToNat] at hop ⊢
  iterate 15 rw [if_neg (by omega)]
  rw [if_pos hop]

theorem decodeHalf_format19 (hop : field h 12 4 = 0b1111#4) : decodeHalf h = decodeFormat19 h := by
  simp only [decodeHalf, field_eq_iff, BitVec.reduceToNat] at hop ⊢
  iterate 16 rw [if_neg (by omega)]

theorem decodeFormat5_bx (hop : field h 7 9 = 0b010001110#9) : decodeFormat5 h = decodeBx h := by
  have h3 : field h 7 3 = 0b110#3 := by
    simp only [field_eq_iff, BitVec.reduceToNat] at hop ⊢
    omega
  unfold decodeFormat5
  generalize hH2 : field h 6 1 = b
  rw [show field h 6 4 = 0b110#3 ++ b from field_append h3 hH2]
  fin_cases b <;> rfl

theorem decodeFormat5_bxH1 (hop : field h 7 9 = 0b010001111#9) : decodeFormat5 h = .undefBxH1 h := by
  have h3 : field h 7 3 = 0b111#3 := by
    simp only [field_eq_iff, BitVec.reduceToNat] at hop ⊢
    omega
  unfold decodeFormat5
  generalize hH2 : field h 6 1 = b
  rw [show field h 6 4 = 0b111#3 ++ b from field_append h3 hH2]
  fin_cases b <;> rfl

end Formats

/-! Every halfword of a row decodes to an instruction of that row -/

section

open Sys2Proof.Laws.EncodeInRow

/-- The halfword of a well-formed instruction lies in the instruction's row. -/
theorem encode_inRow (i : Instr) : Statement i := by
  cases i
  exacts [
    lslImm _ _ _, lsrImm _ _ _, asrImm _ _ _, addReg _ _ _, subReg _ _ _, addImm3 _ _ _, subImm3 _ _ _, movImm8 _ _,
    cmpImm8 _ _, addImm8 _ _, subImm8 _ _, andReg _ _, eorReg _ _, lslReg _ _, lsrReg _ _, asrReg _ _, adcReg _ _,
    sbcReg _ _, rorReg _ _, tstReg _ _, negReg _ _, cmpReg _ _, cmnReg _ _, orrReg _ _, mulReg _ _, bicReg _ _,
    mvnReg _ _, addRdHs _ _, addHdRs _ _, addHdHs _ _, cmpRdHs _ _, cmpHdRs _ _, cmpHdHs _ _, movRdHs _ _, movHdRs _ _,
    movHdHs _ _, bxRs _, bxHs _, ldrPc _ _, strReg _ _ _, strbReg _ _ _, ldrReg _ _ _, ldrbReg _ _ _, strhReg _ _ _,
    ldsbReg _ _ _, ldrhReg _ _ _, ldshReg _ _ _, strImm _ _ _, ldrImm _ _ _, strbImm _ _ _, ldrbImm _ _ _,
    strhImm _ _ _, ldrhImm _ _ _, strSp _ _, ldrSp _ _, addRdPc _ _, addRdSp _ _, addSpImm _, addSpNegImm _, push _,
    pushLr _, pop _, popPc _, stmia _ _, ldmia _ _, beq _, bne _, bcs _, bcc _, bmi _, bpl _, bvs _, bvc _, bhi _,
    bls _, bge _, blt _, bgt _, ble _, swi _, b _, blFirst _, blSecond _, undefAddLoLo _, undefCmpLoLo _,
    undefMovLoLo _, undefBxH1 _, undefBxLow1 _, undefBxLow2 _, undefBxLow3 _, undefBxLow4 _, undefBxLow5 _,
    undefBxLow6 _, undefBxLow7 _, undefCond14 _, unassignedB1 _, unassignedB2 _, unassignedB3 _, unassignedB6 _,
    unassignedB7 _, unassignedB8 _, unassignedB9 _, unassignedBA _, unassignedBB _, unassignedBE _, unassignedBF _,
    unassignedE8 _]

end

/-- The decoder's answer `j` for the halfword `h`, held against an instruction `i` in whose row `h` lies: it has that row,
and it is `i` if `h` is the encoding of `i`. -/
def Answers (h : Half) (i j : Instr) : Prop := j.row = i.row ∧ (encode i = h → j = i)

/-- A halfword of the row of `i` decodes to an instruction of that row, with the operands the halfword has: one case for
each format. -/
theorem answers_decodeHalf {h : Half} {i : Instr} (hrow : h &&& i.row.mask = i.row.pat) : Answers h i (decodeHalf h) := by
  cases i <;> rw [Instr.row] at hrow
  case lslImm | lsrImm | asrImm =>
    have hop := field_of_row (lo := 11) (w := 5) hrow rfl rfl
    have hx := field_of_row (lo := 11) (w := 2) hrow rfl rfl
    rw [decodeHalf_format1 (field_of_row hrow rfl rfl) (ne_of_eq_of_ne hop (by decide)), decodeFormat1, hx]
    exact ⟨rfl, fun henc => by obtain ⟨-, rfl, rfl, rfl⟩ := layout_5_5_3_3.1 henc; rfl⟩
  case addReg | subReg | addImm3 | subImm3 =>
    have hx := field_of_row (lo := 9) (w := 2) hrow rfl rfl
    rw [decodeHalf_format2 (field_of_row hrow rfl rfl), decodeFormat2, hx]
    exact ⟨rfl, fun henc => by obtain ⟨-, rfl, rfl, rfl⟩ := layout_7_3_3_3.1 henc; rfl⟩
  case movImm8 | cmpImm8 | addImm8 | subImm8 =>
    have hx := field_of_row (lo := 11) (w := 2) hrow rfl rfl
    rw [decodeHalf_format3 (field_of_row hrow rfl rfl), decodeFormat3, hx]
    exact ⟨rfl, fun henc => by obtain ⟨-, rfl, rfl⟩ := layout_5_3_8.1 henc; rfl⟩
  case andReg | eorReg | lslReg | lsrReg | asrReg | adcReg | sbcReg | rorReg | tstReg | negReg | cmpReg | cmnReg
      | orrReg | mulReg | bicReg | mvnReg =>
    have hx := field_of_row (lo := 6) (w := 4) hrow rfl rfl
    rw [decodeHalf_format4 (field_of_row hrow rfl rfl), decodeFormat4, hx]
    exact ⟨rfl, fun henc => by obtain ⟨-, rfl, rfl⟩ := layout_10_3_3.1 henc; rfl⟩
  case addRdHs | addHdRs | addHdHs | cmpRdHs | cmpHdRs | cmpHdHs | movRdHs | movHdRs | movHdHs =>
    have hx := field_of_row (lo := 6) (w := 4) hrow rfl rfl
    rw [decodeHalf_format5 (field_of_row hrow rfl rfl), decodeFormat5, hx]
    exact ⟨rfl, fun henc => by obtain ⟨-, rfl, rfl⟩ := layout_10_3_3.1 henc; rfl⟩
  case undefAddLoLo | undefCmpLoLo | undefMovLoLo =>
    have hx := field_of_row (lo := 6) (w := 4) hrow rfl rfl
    rw [decodeHalf_format5 (field_of_row hrow rfl rfl), decodeFormat5, hx]
    exact ⟨rfl, by rintro rfl; rfl⟩
  case undefBxH1 =>
    rw [decodeHalf_format5 (field_of_row hrow rfl rfl), decodeFormat5_bxH1 (field_of_row hrow rfl rfl)]
    exact ⟨rfl, by rintro rfl; rfl⟩
  case bxRs | bxHs =>
    have hlow := field_of_row (lo := 0) (w := 3) hrow rfl rfl
    have hH2 := field_of_row (lo := 6) (w := 1) hrow rfl rfl
    rw [decodeHalf_format5 (field_of_row hrow rfl rfl), decodeFormat5_bx (field_of_row hrow rfl rfl), decodeBx, hlow, hH2]
    exact ⟨rfl, fun henc => by obtain ⟨-, rfl, -⟩ := layout_10_3_3.1 henc; rfl⟩
  case undefBxLow1 | undefBxLow2 | undefBxLow3 | undefBxLow4 | undefBxLow5 | undefBxLow6 | undefBxLow7 =>
    have hlow := field_of_row (lo := 0) (w := 3) hrow rfl rfl
    rw [decodeHalf_format5 (field_of_row hrow rfl rfl), decodeFormat5_bx (field_of_row hrow rfl rfl), decodeBx, hlow]
    exact ⟨rfl, by rintro rfl; rfl⟩
  case ldrPc =>
    rw [decodeHalf_format6 (field_of_row hrow rfl rfl)]
    exact ⟨rfl, fun henc => by obtain ⟨-, rfl, rfl⟩ := layout_5_3_8.1 henc; rfl⟩
  case strReg | strbReg | ldrReg | ldrbReg =>
    have hx := field_of_row (lo := 10) (w := 2) hrow rfl rfl
    rw [decodeHalf_format7 (field_of_row hrow rfl rfl) (field_of_row hrow rfl rfl), decodeFormat7, hx]
    exact ⟨rfl, fun henc => by obtain ⟨-, rfl, rfl, rfl⟩ := layout_7_3_3_3.1 henc; rfl⟩
  case strhReg | ldsbReg | ldrhReg | ldshReg =>
    have hx := field_of_row (lo := 10) (w := 2) hrow rfl rfl
    rw [decodeHalf_format8 (field_of_row hrow rfl rfl) (field_of_row hrow rfl rfl), decodeFormat8, hx]
    exact ⟨rfl, fun henc => by obtain ⟨-, rfl, rfl, rfl⟩ := layout_7_3_3_3.1 henc; rfl⟩
  case strImm | ldrImm | strbImm | ldrbImm =>
    have hx := field_of_row (lo := 11) (w := 2) hrow rfl rfl
    rw [decodeHalf_format9 (field_of_row hrow rfl rfl), decodeFormat9, hx]
    exact ⟨rfl, fun henc => by obtain ⟨-, rfl, rfl, rfl⟩ := layout_5_5_3_3.1 henc; rfl⟩
  case strhImm | ldrhImm =>
    have hx := field_of_row (lo := 11) (w := 1) hrow rfl rfl
    rw [decodeHalf_format10 (field_of_row hrow rfl rfl), decodeFormat10, hx]
    exact ⟨rfl, fun henc => by obtain ⟨-, rfl, rfl, rfl⟩ := layout_5_5_3_3.1 henc; rfl⟩
  case strSp | ldrSp =>
    have hx := field_of_row (lo := 11) (w := 1) hrow rfl rfl
    rw [decodeHalf_format11 (field_of_row hrow rfl rfl), decodeFormat11, hx]
    exact ⟨rfl, fun henc => by obtain ⟨-, rfl, rfl⟩ := layout_5_3_8.1 henc; rfl⟩
  case addRdPc | addRdSp =>
    have hx := field_of_row (lo := 11) (w := 1) hrow rfl rfl
    rw [decodeHalf_format12 (field_of_row hrow rfl rfl), decodeFormat12, hx]
    exact ⟨rfl, fun henc => by obtain ⟨-, rfl, rfl⟩ := layout_5_3_8.1 henc; rfl⟩
  case addSpImm | addSpNegImm =>
    have hx := field_of_row (lo := 8) (w := 4) hrow rfl rfl
    have hsign := field_of_row (lo := 7) (w := 1) hrow rfl rfl
    rw [decodeHalf_formats13And14 (field_of_row hrow rfl rfl), decodeFormats13And14, hx, hsign]
    exact ⟨rfl, fun henc => by obtain ⟨-, rfl⟩ := layout_9_7.1 henc; rfl⟩
  case push | pushLr | pop | popPc =>
    have hx := field_of_row (lo := 8) (w := 4) hrow rfl rfl
    rw [decodeHalf_formats13And14 (field_of_row hrow rfl rfl), decodeFormats13And14, hx]
    exact ⟨rfl, fun henc => by obtain ⟨-, rfl⟩ := layout_8_8.1 henc; rfl⟩
  case unassignedB1 | unassignedB2 | unassignedB3 | unassignedB6 | unassignedB7 | unassignedB8 | unassignedB9
      | unassignedBA | unassignedBB | unassignedBE | unassignedBF =>
    have hx := field_of_row (lo := 8) (w := 4) hrow rfl rfl
    rw [decodeHalf_formats13And14 (field_of_row hrow rfl rfl), decodeFormats13And14, hx]
    exact ⟨rfl, by rintro rfl; rfl⟩
  case stmia | ldmia =>
    have hx := field_of_row (lo := 11) (w := 1) hrow rfl rfl
    rw [decodeHalf_format15 (field_of_row hrow rfl rfl), decodeFormat15, hx]
    exact ⟨rfl, fun henc => by obtain ⟨-, rfl, rfl⟩ := layout_5_3_8.1 henc; rfl⟩
  case beq | bne | bcs | bcc | bmi | bpl | bvs | bvc | bhi | bls | bge | blt | bgt | ble | swi =>
    have hx := field_of_row (lo := 8) (w := 4) hrow rfl rfl
    rw [decodeHalf_formats16And17 (field_of_row hrow rfl rfl), decodeFormats16And17, hx]
    exact ⟨rfl, fun henc => by obtain ⟨-, rfl⟩ := layout_8_8.1 henc; rfl⟩
  case undefCond14 =>
    have hx := field_of_row (lo := 8) (w := 4) hrow rfl rfl
    rw [decodeHalf_formats16And17 (field_of_row hrow rfl rfl), decodeFormats16And17, hx]
    exact ⟨rfl, by rintro rfl; rfl⟩
  case b =>
    rw [decodeHalf_format18 (field_of_row hrow rfl rfl)]
    exact ⟨rfl, fun henc => by obtain ⟨-, rfl⟩ := layout_5_11.1 henc; rfl⟩
  case unassignedE8 =>
    rw [decodeHalf_unassignedE8 (field_of_row hrow rfl rfl)]
    exact ⟨rfl, by rintro rfl; rfl⟩
  case blFirst | blSecond =>
    have hx := field_of_row (lo := 11) (w := 1) hrow rfl rfl
    rw [decodeHalf_format19 (field_of_row hrow rfl rfl), decodeFormat19, hx]
    exact ⟨rfl, fun henc => by obtain ⟨-, rfl⟩ := layout_5_11.1 henc; rfl⟩

/-- Encoding a well-formed instruction and decoding the halfword gives the instruction back. -/
theorem decodeHalf_encode {i : Instr} (hwf : i.wellFormed = true) : decodeHalf (encode i) = i :=
  (answers_decodeHalf (encode_inRow i hwf)).2 rfl

/-- A halfword is put together again from its bytes, in either byte order. -/
theorem decode_bytesOfHalf (be : Bool) (h : Half) (rest : List Byte) :
    decode be (bytesOfHalf be h ++ rest) = .ok (decodeHalf h, rest) := by
  have hbytes : h.extractLsb' 8 8 ++ h.extractLsb' 0 8 = h := layout_8_8.2 ⟨rfl, rfl⟩
  cases be <;> simp [bytesOfHalf, decode, halfOfBytes, hbytes]

/-- Settles O1: the bytes are those of the encoding, which decodes to the instruction. -/
theorem decodeInvertsEncode : Obligations.DecodeInvertsEncode := by
  intro i be rest hwf
  rw [encodeBytes, decode_bytesOfHalf, decodeHalf_encode hwf]

/-- Settles O2: the instruction a halfword decodes to is built from all its bits. -/
theorem encodeInvertsDecode : Obligations.EncodeInvertsDecode := writtenAs_decodeHalf

/-- Settles O3: a halfword lies in the row of the instruction it is written as, and each row it lies in is that of the
instruction it decodes to. -/
theorem rowsPartitionHalfwords : Obligations.RowsPartitionHalfwords := by
  intro h
  obtain ⟨hwf, henc⟩ := writtenAs_decodeHalf h
  refine ⟨?_, fun i hrow => ?_⟩
  · have hrow := encode_inRow (decodeHalf h) hwf
    rwa [henc] at hrow
  · obtain ⟨hsame, -⟩ := answers_decodeHalf hrow
    exact hsame.symm

end Sys2Proof
end

section
/-! Which halfwords stop with `UndefinedEncoding`, register lists, and what the assembler writes for a branch or `ADR`
(30_encoding.md R121 to R134; 44_branch_swi.md R291, R301). -/

namespace Sys2Proof.Machine

/-! The instructions that stop with `UndefinedEncoding` -/

/-- The halfword that a row without an instruction carries (R124, R125, R134). -/
def undefinedHalf : Instr → Option Half
  | .undefAddLoLo h | .undefCmpLoLo h | .undefMovLoLo h | .undefBxH1 h => some h
  | .undefBxLow1 h | .undefBxLow2 h | .undefBxLow3 h | .undefBxLow4 h => some h
  | .undefBxLow5 h | .undefBxLow6 h | .undefBxLow7 h | .undefCond14 h => some h
  | .unassignedB1 h | .unassignedB2 h | .unassignedB3 h | .unassignedB6 h | .unassignedB7 h | .unassignedB8 h => some h
  | .unassignedB9 h | .unassignedBA h | .unassignedBB h | .unassignedBE h | .unassignedBF h | .unassignedE8 h => some h
  | _ => none

theorem exec_of_undefinedHalf {i : Instr} {h : Half} (s : State) (hi : undefinedHalf i = some h) :
    exec i s = .fault (.undefinedEncoding h) := by
  cases i <;> cases hi <;> rfl

theorem encode_of_undefinedHalf {i : Instr} {h : Half} (hi : undefinedHalf i = some h) : encode i = h := by
  cases i <;> cases hi <;> rfl

/-- Settles O50: each of the rows carries its halfword. -/
theorem rowsWithoutInstructionStop : Obligations.RowsWithoutInstructionStop := by
  intro s h
  have stops {i : Instr} (hi : undefinedHalf i = some h) : exec i s = .fault (.undefinedEncoding h) :=
    exec_of_undefinedHalf s hi
  exact ⟨stops rfl, stops rfl, stops rfl, stops rfl, stops rfl, stops rfl, stops rfl, stops rfl, stops rfl, stops rfl,
    stops rfl, stops rfl, stops rfl, stops rfl, stops rfl, stops rfl, stops rfl, stops rfl, stops rfl, stops rfl,
    stops rfl, stops rfl, stops rfl, stops rfl⟩

/-- The outcome is not `UndefinedEncoding`. -/
def IsDefined (o : Out) : Prop := ∀ g, o ≠ .fault (.undefinedEncoding g)

namespace IsDefined

theorem next (t : State) : IsDefined (.next t) := nofun

theorem unpredictable (r : Reason) : IsDefined (.fault (.unpredictable r)) := nofun

theorem ite {c : Prop} [Decidable c] {o o' : Out} (ho : IsDefined o) (ho' : IsDefined o') :
    IsDefined (if c then o else o') := by
  split
  next => exact ho
  next => exact ho'

theorem advance (s : State) : IsDefined s.advance := .ite (.unpredictable _) (.next _)

theorem assign (s : State) (r : Reg) (v : Word) : IsDefined (s.assign r v) := .ite (.next _) (.advance _)

theorem branchIf (s : State) (c : Cond) (o : BitVec 8) : IsDefined (s.branchIf c o) := .ite (.next _) (.advance _)

theorem branchExchange (s : State) (v : Word) : IsDefined (s.branchExchange v) :=
  .ite (.next _) (.ite (.unpredictable _) (.next _))

/-! A refused access stops with `Misaligned` or `MemFault` -/

theorem of_memRead {s : State} {a : Word} {n : Size} {k : Access} {f : Fault} (h : memRead s a n k = .error f) :
    IsDefined (.fault f) := by
  unfold memRead at h
  split at h
  · cases h
    exact nofun
  · split at h
    · cases h
      exact nofun
    · split at h <;> cases h

theorem of_memWrite {s : State} {a : Word} {n : Size} {v : Word} {f : Fault} (h : memWrite s a n v = .error f) :
    IsDefined (.fault f) := by
  unfold memWrite at h
  split at h
  · cases h
    exact nofun
  · split at h
    · cases h
    · cases h
      exact nofun

theorem of_readWords {s : State} {a : Word} {regs : List Reg} {f : Fault} (h : readWords s a regs = .error f) :
    IsDefined (.fault f) := by
  induction regs generalizing s a with
  | nil => cases h
  | cons r rest ih =>
    unfold readWords at h
    split at h
    next f' hm =>
      cases h
      exact .of_memRead hm
    next v u hm =>
      split at h
      next f' hrest =>
        cases h
        exact ih hrest
      next => cases h

theorem of_writeWords {s : State} {a : Word} {vs : List Word} {f : Fault} (h : writeWords s a vs = .error f) :
    IsDefined (.fault f) := by
  induction vs generalizing s a with
  | nil => cases h
  | cons v rest ih =>
    unfold writeWords at h
    split at h
    next f' hm =>
      cases h
      exact .of_memWrite hm
    next u hm => exact ih h

theorem loadInto (s : State) (rd : Reg) (a : Word) (n : Size) (e : Word → Word) :
    IsDefined (Machine.loadInto s rd a n e) := by
  unfold Machine.loadInto
  split
  next f hm => exact .of_memRead hm
  next => exact .advance _

theorem storeFrom (s : State) (a : Word) (n : Size) (v : Word) : IsDefined (Machine.storeFrom s a n v) := by
  unfold Machine.storeFrom
  split
  next f hm => exact .of_memWrite hm
  next => exact .advance _

theorem storeMultiple (s : State) (base : Reg) (start newBase : Word) (regs : List Reg) :
    IsDefined (Machine.storeMultiple s base start newBase regs) := by
  unfold Machine.storeMultiple
  split
  next f hm => exact .of_writeWords hm
  next => exact .advance _

theorem loadMultiple (s : State) (base : Reg) (start newBase : Word) (regs : List Reg) :
    IsDefined (Machine.loadMultiple s base start newBase regs) := by
  unfold Machine.loadMultiple
  split
  next f hm => exact .of_readWords hm
  next => exact .advance _

theorem popPc (l : BitVec 8) (s : State) : IsDefined (execPopPc l s) := by
  unfold execPopPc
  dsimp only
  split
  next f hm => exact .of_readWords hm
  next => exact .next _

end IsDefined

/-- No instruction stops with `UndefinedEncoding`, but for the rows that give none. -/
theorem exec_isDefined {i : Instr} (s : State) (hi : undefinedHalf i = none) : IsDefined (exec i s) := by
  cases i with
  | lslImm | lsrImm | asrImm | lslReg | lsrReg | asrReg | rorReg | mulReg | addReg | subReg | addImm3 | subImm3 | addImm8
  | subImm8 | adcReg | sbcReg | negReg | movImm8 | andReg | eorReg | orrReg | bicReg | mvnReg | tstReg | cmpImm8 | cmpReg
  | cmnReg | cmpRdHs | cmpHdRs | cmpHdHs | addRdHs | movRdHs | addRdPc | addRdSp | addSpImm | addSpNegImm | blFirst =>
    exact .advance _
  | addHdRs | addHdHs | movHdRs | movHdHs => exact .assign _ _ _
  | ldrPc | ldrReg | ldrbReg | ldsbReg | ldrhReg | ldshReg | ldrImm | ldrbImm | ldrhImm | ldrSp => exact .loadInto _ _ _ _ _
  | strReg | strbReg | strhReg | strImm | strbImm | strhImm | strSp => exact .storeFrom _ _ _ _
  | push => exact .ite (.unpredictable _) (.storeMultiple _ _ _ _ _)
  | pushLr => exact .storeMultiple _ _ _ _ _
  | pop => exact .ite (.unpredictable _) (.loadMultiple _ _ _ _ _)
  | popPc l => exact .popPc l s
  | stmia => exact .ite (.unpredictable _) (.ite (.unpredictable _) (.storeMultiple _ _ _ _ _))
  | ldmia => exact .ite (.unpredictable _) (.ite (.unpredictable _) (.loadMultiple _ _ _ _ _))
  | beq | bne | bcs | bcc | bmi | bpl | bvs | bvc | bhi | bls | bge | blt | bgt | ble => exact .branchIf _ _ _
  | b | blSecond | swi => exact .next _
  | bxRs => exact .branchExchange _ _
  | bxHs => exact .ite (.unpredictable _) (.branchExchange _ _)
  | _ => cases hi

/-- `UndefinedEncoding` is the outcome exactly of the rows without an instruction. -/
theorem exec_undefinedEncoding_iff {i : Instr} {s : State} {g : Half} :
    exec i s = .fault (.undefinedEncoding g) ↔ undefinedHalf i = some g := by
  refine ⟨fun h => ?_, exec_of_undefinedHalf s⟩
  cases hi : undefinedHalf i with
  | none => exact absurd h (exec_isDefined s hi g)
  | some g' =>
    rw [exec_of_undefinedHalf s hi] at h
    cases h
    rfl

/-! The halfwords of the three lists of the spec are those of these rows -/

theorem noInstruction_of_undefinedHalf {i : Instr} {h : Half} (hwf : i.wellFormed = true)
    (hi : undefinedHalf i = some h) : noInstruction h = true := by
  cases i with
  | undefAddLoLo | undefCmpLoLo | undefMovLoLo | undefBxH1 | undefCond14 | unassignedE8 =>
    cases hi
    exact noInstruction_of_row (by decide) hwf
  | undefBxLow1 | undefBxLow2 | undefBxLow3 | undefBxLow4 | undefBxLow5 | undefBxLow6 | undefBxLow7 =>
    cases hi
    exact noInstruction_of_bxLow (by decide) (by decide) hwf
  | unassignedB1 | unassignedB2 | unassignedB3 | unassignedB6 | unassignedB7 | unassignedB8 | unassignedB9 | unassignedBA
  | unassignedBB | unassignedBE | unassignedBF =>
    cases hi
    exact noInstruction_of_unassigned (by decide) hwf
  | _ => cases hi

/-- A halfword of BX with H1 = 0 and low bits set decodes to a row without an instruction (R134). -/
theorem undefinedHalf_of_bxLow {h : Half} (hrow : inRow 0xFF80#16 0x4700#16 h = true) (hlow : h &&& 0x0007#16 ≠ 0#16) :
    undefinedHalf (decodeHalf h) = some h := by
  have hop : field h 7 9 = 0b010001110#9 := field_of_row (eq_of_inRow hrow) rfl rfl
  rw [decodeHalf_format5 (field_of_row (eq_of_inRow hrow) rfl rfl), decodeFormat5_bx hop, decodeBx]
  generalize hx : field h 0 3 = low
  fin_cases low
  · exact absurd (row_of_field hx) hlow
  all_goals rfl

/-- The halfword of a well-formed term of a row without an instruction decodes to such a row. -/
theorem undefinedHalf_of_wellFormed {i : Instr} {h : Half} (hi : undefinedHalf i = some h) (hwf : i.wellFormed = true) :
    undefinedHalf (decodeHalf h) = some h := by
  rw [← encode_of_undefinedHalf hi, decodeHalf_encode hwf, hi, encode_of_undefinedHalf hi]

/-- The unassigned halfwords from 0xB100 to 0xBFFF decode to rows without an instruction (R125). -/
theorem undefinedHalf_of_unassigned {h : Half} (hlist : h &&& 0xFF00#16 ∈ [0xB100#16, 0xB200#16, 0xB300#16, 0xB600#16,
    0xB700#16, 0xB800#16, 0xB900#16, 0xBA00#16, 0xBB00#16, 0xBE00#16, 0xBF00#16]) :
    undefinedHalf (decodeHalf h) = some h := by
  simp only [List.mem_cons, List.not_mem_nil, or_false, ← beq_iff_eq (a := h &&& 0xFF00#16)] at hlist
  rcases hlist with hB1 | hB2 | hB3 | hB6 | hB7 | hB8 | hB9 | hBA | hBB | hBE | hBF
  · exact undefinedHalf_of_wellFormed (i := .unassignedB1 h) rfl hB1
  · exact undefinedHalf_of_wellFormed (i := .unassignedB2 h) rfl hB2
  · exact undefinedHalf_of_wellFormed (i := .unassignedB3 h) rfl hB3
  · exact undefinedHalf_of_wellFormed (i := .unassignedB6 h) rfl hB6
  · exact undefinedHalf_of_wellFormed (i := .unassignedB7 h) rfl hB7
  · exact undefinedHalf_of_wellFormed (i := .unassignedB8 h) rfl hB8
  · exact undefinedHalf_of_wellFormed (i := .unassignedB9 h) rfl hB9
  · exact undefinedHalf_of_wellFormed (i := .unassignedBA h) rfl hBA
  · exact undefinedHalf_of_wellFormed (i := .unassignedBB h) rfl hBB
  · exact undefinedHalf_of_wellFormed (i := .unassignedBE h) rfl hBE
  · exact undefinedHalf_of_wellFormed (i := .unassignedBF h) rfl hBF

theorem undefinedHalf_of_noInstruction {h : Half} (hno : noInstruction h = true) :
    undefinedHalf (decodeHalf h) = some h := by
  simp only [noInstruction, Bool.or_eq_true, Bool.and_eq_true, bne_iff_ne, List.contains_iff_mem] at hno
  rcases hno with ((((((hAdd | hCmp) | hMov) | hH1) | ⟨hBx, hlow⟩) | hCond) | hE8) | hlist
  · exact undefinedHalf_of_wellFormed (i := .undefAddLoLo h) rfl hAdd
  · exact undefinedHalf_of_wellFormed (i := .undefCmpLoLo h) rfl hCmp
  · exact undefinedHalf_of_wellFormed (i := .undefMovLoLo h) rfl hMov
  · exact undefinedHalf_of_wellFormed (i := .undefBxH1 h) rfl hH1
  · exact undefinedHalf_of_bxLow hBx hlow
  · exact undefinedHalf_of_wellFormed (i := .undefCond14 h) rfl hCond
  · exact undefinedHalf_of_wellFormed (i := .unassignedE8 h) rfl hE8
  · exact undefinedHalf_of_unassigned hlist

/-- Settles O51: a halfword is what its instruction is written as, so the rows without an instruction carry it itself. -/
theorem undefinedEncodingExactly : Obligations.UndefinedEncodingExactly := by
  intro s h g
  obtain ⟨hwf, henc⟩ := writtenAs_decodeHalf h
  rw [exec_undefinedEncoding_iff]
  constructor
  · intro hi
    have hg : g = h := (encode_of_undefinedHalf hi).symm.trans henc
    rw [hg] at hi
    exact ⟨noInstruction_of_undefinedHalf hwf hi, hg⟩
  · rintro ⟨hno, rfl⟩
    exact undefinedHalf_of_noInstruction hno

/-! Register lists -/

theorem toNat_ofNat4 {k : Nat} (hk : k < 8) : (BitVec.ofNat 4 k).toNat = k := by
  rw [BitVec.toNat_ofNat]
  omega

/-- The registers of a list stand in the order of their bits. -/
theorem regList_ascending (l : BitVec 8) : (regList l).Pairwise (fun a b => a.toNat < b.toNat) := by
  have hbits : ((List.range 8).filter (fun k => l.getLsbD k)).Pairwise (fun j k => j < k ∧ k < 8) := by
    refine List.Pairwise.filter _ (List.Pairwise.imp_of_mem ?_ List.pairwise_lt_range)
    exact fun _ hk hlt => ⟨hlt, List.mem_range.1 hk⟩
  refine List.pairwise_map.2 (hbits.imp fun ⟨hlt, hk⟩ => ?_)
  rwa [toNat_ofNat4 (hlt.trans hk), toNat_ofNat4 hk]

theorem lo_setWidth {r : Reg} (hr : r.toNat < 8) : lo (r.setWidth 3) = r := by
  apply BitVec.eq_of_toNat_eq
  simp [lo]
  omega

/-- Settles O32: the list is made from its bits in ascending order. -/
theorem registerListAscends : Obligations.RegisterListAscends := by
  intro l
  refine ⟨regList_ascending l, fun r => ?_⟩
  by_cases hr : r.toNat < 8
  · have hmem := lo_mem_regList l (r.setWidth 3)
    have hbit : (r.setWidth 3).toNat = r.toNat := by
      rw [BitVec.toNat_setWidth]
      omega
    rw [lo_setWidth hr, hbit] at hmem
    simp [hmem, hr]
  · exact iff_of_false (not_mem_regList l r (Nat.not_lt.1 hr)) fun h => hr h.1

/-! What the assembler writes for a label -/

/-- A branch field that the assembler accepts, read as a signed number and doubled, is the distance to the label. -/
theorem branchField_reaches {w : Nat} {iaddr : Word} {target : Label} {o : BitVec w} (hw : 0 < w)
    (h : branchField w iaddr target = some o) : iaddr + 4#32 + BitVec.ofInt 32 (2 * o.toInt) = target.addr := by
  unfold branchField at h
  dsimp only at h
  split at h
  next hoff =>
    obtain ⟨heven, hlow, hhigh⟩ := hoff
    cases h
    obtain ⟨v, rfl⟩ := Nat.exists_eq_add_one.2 hw
    rw [pow_succ] at hlow hhigh
    rw [BitVec.toInt_ofInt_eq_self hw (by rw [Nat.add_sub_cancel]; omega) (by rw [Nat.add_sub_cancel]; omega),
      Int.mul_ediv_cancel' (Int.dvd_of_emod_eq_zero heven), BitVec.ofInt_toInt]
    exact add_sub_cancel _ _
  next => cases h

theorem mul_toNat_of_scaledField {w scale n : Nat} {f : BitVec w} (h : scaledField w scale n = some f) :
    scale * f.toNat = n := by
  unfold scaledField at h
  split at h
  next hn =>
    cases h
    rw [BitVec.toNat_ofNat, Nat.mod_eq_of_lt hn.2, Nat.mul_div_cancel' (Nat.dvd_of_mod_eq_zero hn.1)]
  next => cases h

theorem lowField_lo (rd : LoReg) : lowField (lo rd) = some rd := by
  revert rd
  decide

theorem assemble_branch {iaddr : Word} {label : Label} {i : Instr} (h : assemble iaddr (.branch label) = some [i]) :
    ∃ o, branchField 11 iaddr label = some o ∧ i = .b o := by
  obtain ⟨o, ho, hi⟩ := Option.bind_eq_some_iff.1 h
  cases hi
  exact ⟨o, ho, rfl⟩

theorem assemble_branchIf {iaddr : Word} {label : Label} {c : Cond} {i : Instr}
    (h : assemble iaddr (.branchIf c label) = some [i]) :
    ∃ o, branchField 8 iaddr label = some o ∧ i = assembleBranchIf c o := by
  obtain ⟨o, ho, hi⟩ := Option.bind_eq_some_iff.1 h
  cases hi
  exact ⟨o, ho, rfl⟩

theorem assemble_adr {s : State} {label : Label} {rd : LoReg} {i : Instr}
    (h : assemble s.pc (.adr (lo rd) label) = some [i]) :
    ∃ w, scaledField 8 4 (label.addr - s.pcWordAligned).toNat = some w ∧ i = .addRdPc rd w := by
  obtain ⟨d, hd, hrest⟩ := Option.bind_eq_some_iff.1 h
  obtain ⟨w, hw, hi⟩ := Option.bind_eq_some_iff.1 hrest
  cases (lowField_lo rd).symm.trans hd
  cases hi
  exact ⟨w, hw, rfl⟩

/-- Settles O47: the field is the distance from where the instruction reads the PC, which its meaning adds back. -/
theorem assembledBranchReachesLabel : Obligations.AssembledBranchReachesLabel := by
  intro s label i
  refine ⟨fun h => ?branch, fun c h hc => ?branchIf, fun rd hpc h => ?adr⟩
  case branch =>
    obtain ⟨o, ho, rfl⟩ := assemble_branch h
    rw [show exec (.b o) s = .next (s.withPc (s.pcAhead + branchOffset11 o)) from rfl, branchOffset11_eq, State.pcAhead,
      branchField_reaches (by decide) ho]
  case branchIf =>
    obtain ⟨o, ho, rfl⟩ := assemble_branchIf h
    rw [exec_assembleBranchIf, State.branchIf, if_pos hc, branchOffset8_eq, State.pcAhead,
      branchField_reaches (by decide) ho]
  case adr =>
    obtain ⟨w, hw, rfl⟩ := assemble_adr h
    have hoff : immWord8 w = label.addr - s.pcWordAligned := by
      rw [immWord8_eq, mul_toNat_of_scaledField hw, BitVec.ofNat_toNat, BitVec.setWidth_eq]
    have haddr : s.pcWordAligned + immWord8 w = label.addr := by
      rw [hoff]
      exact add_sub_cancel _ _
    rw [← haddr]
    exact State.writeReg_advance_completes s (lo rd) _ (lo_ne_pcReg rd) hpc

end Sys2Proof.Machine
end

section
/-! Formats 1 to 3, CMP and CMN of registers, and the carry between two additions: what the shifter and the adder answer as
numbers, and what an instruction leaves that ends in one of them (00_scope.md R13, R14; 40_shift_addsub_imm.md R140 to R163;
41_alu_hireg_bx.md R175, R180, R181). -/

namespace Sys2Proof.Machine

/-! An instruction that completes -/

/-- The outcome of an instruction is one state, so what describes the completion describes any state it answers. -/
theorem Completes.of_exec_next {i : Instr} {s t : State} {P : State → Prop} (hc : Completes i s P)
    (h : exec i s = .next t) : P t := by
  obtain ⟨u, hu, hP⟩ := hc
  cases hu.symm.trans h
  exact hP

/-- An instruction that does not write the PC completes only before the last halfword (R30). -/
theorem pc_ne_lastHalf_of_exec_next {i : Instr} {s t : State} (hw : writesPc i = false) (h : exec i s = .next t) :
    s.pc ≠ lastHalf := by
  obtain ⟨hsequential, -⟩ := sequentialAdvance s
  obtain ⟨hnext, -⟩ := hsequential i hw
  exact (hnext t h).1

/-- A register of the file that is not listed reads as before. -/
theorem LeavesBut.x_eq {s t : State} {dests : List Reg} (h : LeavesBut s t dests) {r : Reg} (hpc : r ≠ pcReg)
    (hr : r ∉ dests) : t.x r = s.x r := by
  obtain ⟨hregs, -, -, -, -, -, -, hmode⟩ := h
  obtain ⟨p, hp⟩ := phys_of_ne s.cpsr.mode r hpc
  rw [State.x_of_phys s r p hp, State.x_of_phys t r p (hmode ▸ hp)]
  exact hregs p fun q hq hqp => hr (phys_injective _ _ _ _ hp hqp ▸ hq)

/-! The adder: sums and differences (R13, R14) -/

/-- The adder adds. -/
theorem isSum_addWithCarry (p : Psr) (a b : Word) (cin : Bool) :
    IsSum a b cin (addWithCarry a b cin).result (p.setNZCV (addWithCarry a b cin)) :=
  ⟨BitVec.toNat_ofNat _ _, p.flagsNZ_setNZCV _, decide_eq_true_iff, decide_eq_true_iff⟩

section

variable {i : Instr} {s : State} {rd : LoReg} {a b : Word} {cin : Bool}

/-- What is so of the adder's answer and of its flags is so of the destination and the status register afterwards (R14,
R169). -/
theorem completes_of_added {P : Word → Psr → Prop} {r : AddResult} (hexec : exec i s = s.added rd r)
    (hpc : s.pc ≠ lastHalf) (hP : P r.result (s.cpsr.setNZCV r)) :
    Completes i s (fun t => P (t.x (lo rd)) t.cpsr ∧ Advances s t [lo rd]) := by
  obtain ⟨t, ht, hx, hcpsr, hadv⟩ := s.result_completes rd r.result _ hpc (s.cpsr.keepsControl_setNZCV r)
  refine ⟨t, hexec.trans ht, ?_, hadv⟩
  rw [hx, hcpsr]
  exact hP

theorem completes_of_added_sum (hexec : exec i s = s.added rd (addWithCarry a b cin)) (hpc : s.pc ≠ lastHalf) :
    Completes i s (fun t => IsSum a b cin (t.x (lo rd)) t.cpsr ∧ Advances s t [lo rd]) :=
  completes_of_added hexec hpc (isSum_addWithCarry s.cpsr a b cin)

theorem completes_of_added_difference (hexec : exec i s = s.added rd (addWithCarry a (~~~b) cin))
    (hpc : s.pc ≠ lastHalf) :
    Completes i s (fun t => IsDifference a b (!cin) (t.x (lo rd)) t.cpsr ∧ Advances s t [lo rd]) :=
  completes_of_added hexec hpc (isDifference_addWithCarry_not s.cpsr a b cin)

/-- A compare leaves the flags of the adder's answer, which no register keeps (R161, R180, R181). -/
theorem completes_of_flagged {P : Word → Psr → Prop} {r : AddResult} (hexec : exec i s = s.flagged (s.cpsr.setNZCV r))
    (hpc : s.pc ≠ lastHalf) (hP : P r.result (s.cpsr.setNZCV r)) :
    Completes i s (fun t => (∃ r, P r t.cpsr) ∧ Advances s t []) := by
  obtain ⟨t, ht, hcpsr, hadv⟩ := s.flagged_completes _ hpc (s.cpsr.keepsControl_setNZCV r)
  exact ⟨t, hexec.trans ht, ⟨r.result, hcpsr ▸ hP⟩, hadv⟩

theorem completes_of_flagged_sum (hexec : exec i s = s.flagged (s.cpsr.setNZCV (addWithCarry a b cin)))
    (hpc : s.pc ≠ lastHalf) : Completes i s (fun t => (∃ r, IsSum a b cin r t.cpsr) ∧ Advances s t []) :=
  completes_of_flagged hexec hpc (isSum_addWithCarry s.cpsr a b cin)

theorem completes_of_flagged_difference (hexec : exec i s = s.flagged (s.cpsr.setNZCV (subtract a b)))
    (hpc : s.pc ≠ lastHalf) : Completes i s (fun t => (∃ r, IsDifference a b false r t.cpsr) ∧ Advances s t []) :=
  completes_of_flagged hexec hpc (isDifference_subtract s.cpsr a b)

end

/-! Formats 2 and 3, and the compares of format 4 -/

/-- ADD of registers leaves the sum and its flags (R150). -/
theorem completes_addReg {s : State} (rd rs rn : LoReg) (hpc : s.pc ≠ lastHalf) :
    Completes (.addReg rd rs rn) s (fun t =>
      IsSum (s.x (lo rs)) (s.x (lo rn)) false (t.x (lo rd)) t.cpsr ∧ Advances s t [lo rd]) :=
  completes_of_added_sum rfl hpc

/-- Settles O10: each form writes the adder's answer, SUB with the complement of the operand it subtracts; an immediate is
its field zero-extended. -/
theorem addAndSubtract : Obligations.AddAndSubtract := by
  intro s rd rs rn o3 o8 hpc
  rw [BitVec.ofNat_toNat, BitVec.ofNat_toNat]
  refine ⟨completes_addReg rd rs rn hpc, ?subReg, ?addImm3, ?subImm3, ?addImm8, ?subImm8⟩
  case addImm3 | addImm8 => exact completes_of_added_sum rfl hpc
  case subReg | subImm3 | subImm8 => exact completes_of_added_difference (cin := true) rfl hpc

/-- Settles O11: CMP writes the flags of a subtraction, CMN those of an addition. -/
theorem compare : Obligations.Compare := by
  intro s rd rs o8 hpc
  rw [BitVec.ofNat_toNat]
  refine ⟨?cmpImm8, ?cmpReg, ?cmnReg⟩
  case cmpImm8 | cmpReg => exact completes_of_flagged_difference rfl hpc
  case cmnReg => exact completes_of_flagged_sum rfl hpc

/-! Format 1 -/

/-- An instruction that writes the shifter's answer leaves its result and C, N and Z of the result, and V as it was (R140,
R169). -/
theorem completes_of_shifted {i : Instr} {s : State} {rd : LoReg} {r : Word} {c : Bool}
    (hexec : exec i s = s.shifted rd (r, c)) (hpc : s.pc ≠ lastHalf) :
    Completes i s (fun t => t.x (lo rd) = r ∧ FlagsNZ (t.x (lo rd)) t.cpsr ∧ t.cpsr.c = c ∧ t.cpsr.v = s.cpsr.v ∧
      Advances s t [lo rd]) := by
  obtain ⟨t, ht, hx, hcpsr, hadv⟩ := s.result_completes rd r _ hpc (s.cpsr.keepsControl_setNZC r c)
  refine ⟨t, hexec.trans ht, hx, ?_, ?_, ?_, hadv⟩
  · rw [hx, hcpsr]
    exact s.cpsr.flagsNZ_setNZ r
  · rw [hcpsr, Psr.setNZC_c]
  · rw [hcpsr, Psr.setNZC_v]

/-- The amount that a field of LSR or ASR means: 0 means 32 (R140, D10; log 14). -/
def rightShiftAmount (f : BitVec 5) : Nat := if f = 0#5 then 32 else f.toNat

/-- LSL by 0 is a shift too, one that keeps the value; C alone is an exception (R141). -/
theorem shiftImm_lsl (v : Word) (f : BitVec 5) (cin : Bool) :
    shiftImm .lsl v f cin = (v <<< f.toNat, if f = 0#5 then cin else v.getLsbD (32 - f.toNat)) := by
  by_cases hf : f = 0#5
  · subst hf
    simp [shiftImm]
  · simp [shiftImm, hf]

/-- Field 0 is no exception to LSR by the amount that the field means (R142). -/
theorem shiftImm_lsr (v : Word) (f : BitVec 5) (cin : Bool) :
    shiftImm .lsr v f cin = (v >>> rightShiftAmount f, v.getLsbD (rightShiftAmount f - 1)) := by
  by_cases hf : f = 0#5
  · have hout : v >>> 32 = 0#32 := BitVec.ushiftRight_eq_zero le_rfl
    simp [shiftImm, rightShiftAmount, hf, hout]
  · simp [shiftImm, rightShiftAmount, hf]

/-- ASR by 32 or more copies the sign into every bit. -/
theorem sshiftRight_of_le (v : Word) {n : Nat} (hn : 32 ≤ n) :
    v.sshiftRight n = if v.getLsbD 31 then 0xFFFFFFFF#32 else 0#32 := by
  rw [show v.getLsbD 31 = v.msb from rfl]
  by_cases hsign : v.msb = true
  · rw [if_pos hsign, BitVec.sshiftRight_eq_of_msb_true hsign, BitVec.ushiftRight_eq_zero hn]
    rfl
  · rw [if_neg hsign, BitVec.sshiftRight_eq_of_msb_false (Bool.eq_false_iff.2 hsign), BitVec.ushiftRight_eq_zero hn]

/-- Field 0 is no exception to ASR by the amount that the field means (R143). -/
theorem shiftImm_asr (v : Word) (f : BitVec 5) (cin : Bool) :
    shiftImm .asr v f cin = (v.sshiftRight (rightShiftAmount f), v.getLsbD (rightShiftAmount f - 1)) := by
  by_cases hf : f = 0#5
  · simp [shiftImm, rightShiftAmount, hf, sshiftRight_of_le]
  · simp [shiftImm, rightShiftAmount, hf]

/-- Settles O9: the three shifters are shifts by the amount the field means, and a shift is a multiplication or a floor
division by a power of two. -/
theorem shiftByImmediate : Obligations.ShiftByImmediate := by
  intro s rd rs f hpc v n
  refine ⟨?lsl, ?lsr, ?asr⟩
  case lsl =>
    obtain ⟨t, ht, hx, hnz, hc, hv, hadv⟩ := completes_of_shifted (i := .lslImm rd rs f)
      (congrArg (s.shifted rd) (shiftImm_lsl v f s.cpsr.c)) hpc
    refine ⟨t, ht, ?_, hnz, hc, hv, hadv⟩
    rw [hx, BitVec.toNat_shiftLeft, Nat.shiftLeft_eq]
  case lsr =>
    obtain ⟨t, ht, hx, hnz, hc, hv, hadv⟩ := completes_of_shifted (i := .lsrImm rd rs f)
      (congrArg (s.shifted rd) (shiftImm_lsr v f s.cpsr.c)) hpc
    refine ⟨t, ht, ?_, hnz, hc, hv, hadv⟩
    rw [hx, BitVec.toNat_ushiftRight, Nat.shiftRight_eq_div_pow]
    rfl
  case asr =>
    obtain ⟨t, ht, hx, hnz, hc, hv, hadv⟩ := completes_of_shifted (i := .asrImm rd rs f)
      (congrArg (s.shifted rd) (shiftImm_asr v f s.cpsr.c)) hpc
    refine ⟨t, ht, ?_, hnz, hc, hv, hadv⟩
    rw [hx, BitVec.toInt_sshiftRight, Int.shiftRight_eq_div_pow]
    rfl

/-! ADD and ADC in a row -/

/-- ADC leaves the sum with the C from before it, and its flags (R175). -/
theorem completes_adcReg {s : State} (rd rs : LoReg) (hpc : s.pc ≠ lastHalf) :
    Completes (.adcReg rd rs) s (fun t =>
      IsSum (s.x (lo rd)) (s.x (lo rs)) s.cpsr.c (t.x (lo rd)) t.cpsr ∧ Advances s t [lo rd]) :=
  completes_of_added_sum rfl hpc

/-- A Lo register other than the destination keeps its word. -/
theorem x_lo_of_advances {s t : State} {rd r : LoReg} (h : Advances s t [lo rd]) (hr : r ≠ rd) :
    t.x (lo r) = s.x (lo r) := by
  obtain ⟨-, -, hleaves⟩ := h
  exact hleaves.x_eq (lo_ne_pcReg r) fun hmem => hr (lo_injective r rd (List.mem_singleton.1 hmem))

/-- C after an addition, as a number, is the carry out of the sum. -/
theorem IsSum.toNat_carry {a b r : Word} {cin : Bool} {q : Psr} (h : IsSum a b cin r q) :
    q.c.toNat = (a.toNat + b.toNat + cin.toNat) / 2 ^ 32 := by
  obtain ⟨-, -, hcarry, -⟩ := h
  have := a.isLt
  have := b.isLt
  have := cin.toNat_le
  cases hc : q.c with
  | false =>
    rw [hc, Bool.false_eq_true, false_iff] at hcarry
    rw [Bool.toNat_false]
    omega
  | true =>
    have := hcarry.1 hc
    rw [Bool.toNat_true]
    omega

/-- Sums of the low and of the high words, the high one taking the carry of the low one, make the sum of the double
words. -/
theorem doubleWord_sum {a b c d lowSum highSum : Word} {p q : Psr} (hlow : IsSum a b false lowSum p)
    (hhigh : IsSum c d p.c highSum q) : highSum.toNat * 2 ^ 32 + lowSum.toNat =
      (c.toNat * 2 ^ 32 + a.toNat + (d.toNat * 2 ^ 32 + b.toNat)) % 2 ^ 64 := by
  have hcarry := hlow.toNat_carry
  obtain ⟨hlowSum, -⟩ := hlow
  obtain ⟨hhighSum, -⟩ := hhigh
  rw [Bool.toNat_false] at hcarry hlowSum
  omega

/-- Settles O16: the low sum leaves its carry in C, which ADC adds to the high sum; neither addition touches what the other
reads or leaves. -/
theorem carryChainAddsDoubleWords : Obligations.CarryChainAddsDoubleWords := by
  intro s t u l h m k hhl hkl hadd hadc
  have hpcs : s.pc ≠ lastHalf := pc_ne_lastHalf_of_exec_next rfl hadd
  have hpct : t.pc ≠ lastHalf := pc_ne_lastHalf_of_exec_next rfl hadc
  obtain ⟨hlow, hadv⟩ := (completes_addReg l l m hpcs).of_exec_next hadd
  obtain ⟨hhigh, hadv'⟩ := (completes_adcReg h k hpct).of_exec_next hadc
  rw [x_lo_of_advances hadv hhl, x_lo_of_advances hadv hkl] at hhigh
  rw [x_lo_of_advances hadv' (Ne.symm hhl)]
  exact doubleWord_sum hlow hhigh

end Sys2Proof.Machine
end

section
/-! Formats 4 and 5: logical operations, shifts by a register, additions with the carry, MUL, the Hi registers and BX
(41_alu_hireg_bx.md R169 to R216). -/

namespace Sys2Proof.Machine

/-! Logical operations -/

/-- A logical result leaves its bits in the destination, N and Z of it, and C and V as they were (R169, R170). -/
theorem completes_of_logical {i : Instr} {s : State} {rd : LoReg} {r : Word} {f : Nat → Bool}
    (hexec : exec i s = s.logical rd r) (hpc : s.pc ≠ lastHalf) (hbits : BitsAre r f) :
    Completes i s (fun t => SetsLogical s t rd f) := by
  obtain ⟨t, ht, hx, hcpsr, hadv⟩ := s.result_completes rd r _ hpc (s.cpsr.keepsControl_setNZ r)
  have hnz : FlagsNZ r (s.cpsr.setNZ r) := s.cpsr.flagsNZ_setNZ r
  refine ⟨t, hexec.trans ht, ?_, ?_, ?_, ?_, hadv⟩
  · rwa [hx]
  · rwa [hx, hcpsr]
  · rw [hcpsr, Psr.setNZ_c]
  · rw [hcpsr, Psr.setNZ_v]

/-- TST leaves N and Z of the word it tests, C and V as they were, and no register (R178). -/
theorem completes_of_tested {i : Instr} {s : State} {r : Word} {f : Nat → Bool}
    (hexec : exec i s = s.flagged (s.cpsr.setNZ r)) (hpc : s.pc ≠ lastHalf) (hbits : BitsAre r f) :
    Completes i s (fun t => (∃ r, BitsAre r f ∧ FlagsNZ r t.cpsr) ∧ t.cpsr.c = s.cpsr.c ∧ t.cpsr.v = s.cpsr.v ∧
      Advances s t []) := by
  obtain ⟨t, ht, hcpsr, hadv⟩ := s.flagged_completes _ hpc (s.cpsr.keepsControl_setNZ r)
  have hnz : FlagsNZ r (s.cpsr.setNZ r) := s.cpsr.flagsNZ_setNZ r
  refine ⟨t, hexec.trans ht, ⟨r, hbits, ?_⟩, ?_, ?_, hadv⟩
  · rwa [hcpsr]
  · rw [hcpsr, Psr.setNZ_c]
  · rw [hcpsr, Psr.setNZ_v]

theorem bitsAre_and (a b : Word) : BitsAre (a &&& b) (fun k => a.getLsbD k && b.getLsbD k) :=
  fun _ _ => BitVec.getLsbD_and

theorem bitsAre_xor (a b : Word) : BitsAre (a ^^^ b) (fun k => a.getLsbD k != b.getLsbD k) :=
  fun _ _ => BitVec.getLsbD_xor

theorem bitsAre_or (a b : Word) : BitsAre (a ||| b) (fun k => a.getLsbD k || b.getLsbD k) :=
  fun _ _ => BitVec.getLsbD_or

theorem bitsAre_not (b : Word) : BitsAre (~~~b) (fun k => !b.getLsbD k) := fun k hk => by
  simp [hk]

theorem bitsAre_andNot (a b : Word) : BitsAre (a &&& ~~~b) (fun k => a.getLsbD k && !b.getLsbD k) := fun k hk => by
  rw [BitVec.getLsbD_and, bitsAre_not b k hk]

theorem bitsAre_zeroExtend (o : BitVec 8) : BitsAre (o.setWidth 32) (fun k => o.getLsbD k) := fun k hk => by
  simp [hk]

/-- Settles O12: each form writes the word whose bits the operation gives, and TST its flags alone. -/
theorem logicalOperations : Obligations.LogicalOperations := by
  intro s rd rs o8 hpc a b
  refine ⟨?and, ?eor, ?orr, ?bic, ?mvn, ?mov, ?tst⟩
  case and => exact completes_of_logical rfl hpc (bitsAre_and a b)
  case eor => exact completes_of_logical rfl hpc (bitsAre_xor a b)
  case orr => exact completes_of_logical rfl hpc (bitsAre_or a b)
  case bic => exact completes_of_logical rfl hpc (bitsAre_andNot a b)
  case mvn => exact completes_of_logical rfl hpc (bitsAre_not b)
  case mov => exact completes_of_logical rfl hpc (bitsAre_zeroExtend o8)
  case tst => exact completes_of_tested rfl hpc (bitsAre_and a b)

/-! Shifts by a register: amounts of 32 and more are no exception to the shift of a word, nor to the last bit shifted out
of it (R190) -/

/-- C after LSL is bit 32 of the value shifted as a number (R172). -/
theorem shiftReg_lsl (v : Word) (n : BitVec 8) (cin : Bool) :
    shiftReg .lsl v n cin = (v <<< n.toNat, if n.toNat = 0 then cin else (v.toNat <<< n.toNat).testBit 32) := by
  have hbit : (v.toNat <<< n.toNat).testBit 32 = (decide (n.toNat ≤ 32) && v.getLsbD (32 - n.toNat)) :=
    Nat.testBit_shiftLeft v.toNat
  rw [hbit]
  rcases Nat.eq_zero_or_pos n.toNat with hzero | hpos
  · simp [shiftReg, hzero]
  · rcases Nat.lt_trichotomy n.toNat 32 with hlt | heq | hgt
    · simp [shiftReg, hpos.ne', Nat.le_of_lt_succ hlt, hlt.le]
    · simp [shiftReg, heq]
    · have hout : v <<< n.toNat = 0#32 := BitVec.shiftLeft_eq_zero hgt.le
      simp [shiftReg, hpos.ne', hgt.ne', hgt.not_ge, Nat.lt_of_succ_lt hgt, hout]

/-- C after LSR is the bit below the lowest one kept (R173). -/
theorem shiftReg_lsr (v : Word) (n : BitVec 8) (cin : Bool) :
    shiftReg .lsr v n cin = (v >>> n.toNat, if n.toNat = 0 then cin else v.getLsbD (n.toNat - 1)) := by
  rcases Nat.eq_zero_or_pos n.toNat with hzero | hpos
  · simp [shiftReg, hzero]
  · rcases Nat.lt_trichotomy n.toNat 32 with hlt | heq | hgt
    · simp [shiftReg, hpos.ne', Nat.le_of_lt_succ hlt]
    · have hout : v >>> 32 = 0#32 := BitVec.ushiftRight_eq_zero le_rfl
      simp [shiftReg, heq, hout]
    · have hout : v >>> n.toNat = 0#32 := BitVec.ushiftRight_eq_zero hgt.le
      have hbit : v.getLsbD (n.toNat - 1) = false := BitVec.getLsbD_of_ge v _ (Nat.le_sub_one_of_lt hgt)
      simp [shiftReg, hpos.ne', hgt.ne', hout, hbit]

/-- C after ASR is bit 0 of the shift by one less (R174). -/
theorem shiftReg_asr (v : Word) (n : BitVec 8) (cin : Bool) :
    shiftReg .asr v n cin =
      (v.sshiftRight n.toNat, if n.toNat = 0 then cin else (v.sshiftRight (n.toNat - 1)).getLsbD 0) := by
  have hbit : (v.sshiftRight (n.toNat - 1)).getLsbD 0 =
      if n.toNat - 1 < 32 then v.getLsbD (n.toNat - 1) else v.getLsbD 31 := by
    rw [BitVec.getLsbD_sshiftRight]
    rfl
  rw [hbit]
  rcases Nat.eq_zero_or_pos n.toNat with hzero | hpos
  · simp [shiftReg, hzero]
  · rcases Nat.lt_trichotomy n.toNat 32 with hlt | heq | hgt
    · simp [shiftReg, hpos.ne', Nat.le_of_lt_succ hlt, show n.toNat - 1 < 32 by omega]
    · simp [shiftReg, heq, sshiftRight_of_le]
    · simp [shiftReg, hpos.ne', Nat.lt_of_succ_lt hgt, show ¬ n.toNat - 1 < 32 by omega, sshiftRight_of_le v hgt.le]

theorem getLsbD_rotateRight_mod (v : Word) (n : Nat) {k : Nat} (hk : k < 32) :
    (v.rotateRight n).getLsbD k = v.getLsbD ((k + n) % 32) := by
  rw [BitVec.getLsbD_rotateRight]
  by_cases h : k < 32 - n % 32
  · rw [decide_eq_true h, cond_true, show (k + n) % 32 = n % 32 + k by omega]
  · rw [decide_eq_false h, cond_false, decide_eq_true hk, Bool.true_and,
      show (k + n) % 32 = k - (32 - n % 32) by omega]

/-- A rotation by whole turns keeps the word. -/
theorem rotateRight_of_mod_eq_zero (v : Word) {n : Nat} (h : n % 32 = 0) : v.rotateRight n = v := by
  refine BitVec.eq_of_getLsbD_eq fun k hk => ?_
  rw [getLsbD_rotateRight_mod v n hk, show (k + n) % 32 = k by omega]

/-- C after ROR is bit 31 of the result (R177). -/
theorem shiftReg_ror (v : Word) (n : BitVec 8) (cin : Bool) :
    shiftReg .ror v n cin =
      (v.rotateRight n.toNat, if n.toNat = 0 then cin else (v.rotateRight n.toNat).getLsbD 31) := by
  by_cases hzero : n.toNat = 0
  · simp [shiftReg, hzero, rotateRight_of_mod_eq_zero]
  · by_cases hturns : n.toNat % 32 = 0
    · simp [shiftReg, hzero, hturns, rotateRight_of_mod_eq_zero]
    · have hmod : v.rotateRight (n.toNat % 32) = v.rotateRight n.toNat := BitVec.rotateRight_mod_eq_rotateRight
      have hbit : (v.rotateRight n.toNat).getLsbD 31 = v.getLsbD (n.toNat % 32 - 1) := by
        rw [getLsbD_rotateRight_mod v n.toNat (by decide), show (31 + n.toNat) % 32 = n.toNat % 32 - 1 by omega]
      rw [hbit]
      simp [shiftReg, hzero, hturns, hmod]

theorem toNat_shiftAmount (s : State) (rs : LoReg) : (shiftAmount s rs).toNat = (s.x (lo rs)).toNat % 256 := by
  rw [shiftAmount, BitVec.extractLsb'_toNat, Nat.shiftRight_zero]

/-- Bit 0 of a word says that it is odd, read as a signed number. -/
theorem getLsbD_zero_iff_toInt (v : Word) : v.getLsbD 0 = true ↔ v.toInt % 2 = 1 := by
  rw [BitVec.getLsbD, Nat.testBit_zero, decide_eq_true_iff, BitVec.toInt_eq_toNat_cond]
  split <;> omega

/-- C after a shift by a register is as before when the amount is 0, and otherwise the last bit shifted out, whatever that
bit is said to be. -/
theorem carry_iff_of_ite {n : Nat} {c cin out : Bool} {p : Prop} (hc : c = if n = 0 then cin else out)
    (hout : out = true ↔ p) : c = true ↔ if n = 0 then cin = true else p := by
  rw [hc]
  split
  · rfl
  · exact hout

/-- Settles O13: the four shifters are shifts and a rotation by Rs modulo 256, which are a multiplication, floor divisions
and a permutation of the bits. -/
theorem shiftByRegister : Obligations.ShiftByRegister := by
  intro s rd rs hpc v n
  have hn : (shiftAmount s rs).toNat = n := toNat_shiftAmount s rs
  have hlsl := shiftReg_lsl v (shiftAmount s rs) s.cpsr.c
  have hlsr := shiftReg_lsr v (shiftAmount s rs) s.cpsr.c
  have hasr := shiftReg_asr v (shiftAmount s rs) s.cpsr.c
  have hror := shiftReg_ror v (shiftAmount s rs) s.cpsr.c
  rw [hn] at hlsl hlsr hasr hror
  refine ⟨?lsl, ?lsr, ?asr, ?ror⟩
  case lsl =>
    obtain ⟨t, ht, hx, hnz, hc, hv, hadv⟩ := completes_of_shifted (i := .lslReg rd rs)
      (congrArg (s.shifted rd) hlsl) hpc
    refine ⟨t, ht, ?_, carry_iff_of_ite hc ?_, hnz, hv, hadv⟩
    · rw [hx, BitVec.toNat_shiftLeft, Nat.shiftLeft_eq]
    · rw [Nat.testBit_eq_decide_div_mod_eq, decide_eq_true_iff, Nat.shiftLeft_eq]
  case lsr =>
    obtain ⟨t, ht, hx, hnz, hc, hv, hadv⟩ := completes_of_shifted (i := .lsrReg rd rs)
      (congrArg (s.shifted rd) hlsr) hpc
    refine ⟨t, ht, ?_, carry_iff_of_ite hc ?_, hnz, hv, hadv⟩
    · rw [hx, BitVec.toNat_ushiftRight, Nat.shiftRight_eq_div_pow]
    · rw [BitVec.getLsbD, Nat.testBit_eq_decide_div_mod_eq, decide_eq_true_iff]
  case asr =>
    obtain ⟨t, ht, hx, hnz, hc, hv, hadv⟩ := completes_of_shifted (i := .asrReg rd rs)
      (congrArg (s.shifted rd) hasr) hpc
    refine ⟨t, ht, ?_, carry_iff_of_ite hc ?_, hnz, hv, hadv⟩
    · rw [hx, BitVec.toInt_sshiftRight, Int.shiftRight_eq_div_pow]
      rfl
    · rw [getLsbD_zero_iff_toInt, BitVec.toInt_sshiftRight, Int.shiftRight_eq_div_pow]
      rfl
  case ror =>
    obtain ⟨t, ht, hx, hnz, hc, hv, hadv⟩ := completes_of_shifted (i := .rorReg rd rs)
      (congrArg (s.shifted rd) hror) hpc
    refine ⟨t, ht, ?_, ?_, hnz, hv, hadv⟩
    · rw [hx]
      exact fun k hk => getLsbD_rotateRight_mod v n hk
    · rw [hc, hx]

/-! Additions with the carry, and MUL -/

/-- Settles O14: SBC adds the complement of Rs and C, which is the absence of a borrow; NEG is such a subtraction from zero. -/
theorem addSubtractWithCarryAndNegate : Obligations.AddSubtractWithCarryAndNegate := by
  intro s rd rs hpc
  refine ⟨completes_adcReg rd rs hpc, ?sbc, ?neg⟩
  case sbc => exact completes_of_added_difference rfl hpc
  case neg => exact completes_of_added_difference (cin := true) rfl hpc

/-- MUL counts a draw, which becomes its C, and writes the product with N and Z of it (R183, D12; log 16). -/
theorem exec_mulReg (rd rs : LoReg) (s : State) : exec (.mulReg rd rs) s = s.drawn.result rd (s.x (lo rs) * s.x (lo rd))
    (s.cpsr.setNZC (s.x (lo rs) * s.x (lo rd)) (Config.mulCarry s.draws)) := rfl

/-- Settles O15: MUL writes the product and its flags as any data operation does, from a state in which only the draw has been
counted. -/
theorem multiply : Obligations.Multiply := by
  intro s rd rs hpc
  obtain ⟨t, ht, hx, hcpsr, hpc', hdraws, hleaves⟩ := s.drawn.result_completes rd (s.x (lo rs) * s.x (lo rd)) _ hpc
    (s.cpsr.keepsControl_setNZC _ (Config.mulCarry s.draws))
  refine ⟨t, (exec_mulReg rd rs s).trans ht, ?_, ?_, ?_, hpc', hdraws, hleaves⟩
  · rw [hx, BitVec.toNat_mul]
  · rw [hx, hcpsr]
    exact s.cpsr.flagsNZ_setNZ _
  · rw [hcpsr, Psr.setNZC_v]

/-! ADD, MOV and CMP with a Hi register -/

/-- Format 5 with a destination other than R15 leaves the value in it and the flags as they were (R199, R202). -/
theorem completes_of_assign {i : Instr} {s : State} {r : Reg} {v : Word} (hexec : exec i s = s.assign r v) (hr : r ≠ pcReg)
    (hpc : s.pc ≠ lastHalf) : Completes i s (fun t => t.x r = v ∧ t.cpsr = s.cpsr ∧ Advances s t [r]) := by
  rw [Completes, hexec]
  exact s.assign_completes r v hr hpc

/-- An ADD of format 5 leaves the sum modulo 2^32 (R201 to R203). -/
theorem completes_of_assign_add {i : Instr} {s : State} {r : Reg} {a b : Word} (hexec : exec i s = s.assign r (a + b))
    (hr : r ≠ pcReg) (hpc : s.pc ≠ lastHalf) : Completes i s (fun t =>
      (t.x r).toNat = (a.toNat + b.toNat) % 2 ^ 32 ∧ t.cpsr = s.cpsr ∧ Advances s t [r]) := by
  obtain ⟨t, ht, hx, hrest⟩ := completes_of_assign hexec hr hpc
  exact ⟨t, ht, hx ▸ BitVec.toNat_add a b, hrest⟩

/-- ADD into a Lo register ends as it does for a Hi destination. -/
theorem exec_addRdHs (rd : LoReg) (hs : HiReg) (s : State) :
    exec (.addRdHs rd hs) s = s.assign (lo rd) (s.x (lo rd) + s.x (hi hs)) := (s.assign_lo rd _).symm

/-- MOV into a Lo register ends as it does for a Hi destination. -/
theorem exec_movRdHs (rd : LoReg) (hs : HiReg) (s : State) :
    exec (.movRdHs rd hs) s = s.assign (lo rd) (s.x (hi hs)) := (s.assign_lo rd _).symm

/-- Settles O17: a Lo destination is never R15, and R15 as the source reads as the address plus 4. -/
theorem hiSourceToLo : Obligations.HiSourceToLo := by
  intro s rd hs hpc
  refine ⟨?pcSource, ?add, ?mov⟩
  case pcSource =>
    intro hsrc heven
    rw [hsrc, s.x_pcReg_of_even heven]
  case add => exact completes_of_assign_add (exec_addRdHs rd hs s) (lo_ne_pcReg rd) hpc
  case mov => exact completes_of_assign (exec_movRdHs rd hs s) (lo_ne_pcReg rd) hpc

/-- Settles O18: each of the four forms assigns the sum or the source to a register of the file. -/
theorem hiDestination : Obligations.HiDestination := by
  intro s hd hs rs hpc hdest
  exact ⟨completes_of_assign_add (exec_addHdRs hd rs s) hdest hpc, completes_of_assign_add (exec_addHdHs hd hs s) hdest hpc,
    completes_of_assign (exec_movHdRs hd rs s) hdest hpc, completes_of_assign (exec_movHdHs hd hs s) hdest hpc⟩

/-- Settles O20: the three forms write the flags of one subtraction, whichever file their operands come from. -/
theorem hiCompare : Obligations.HiCompare := by
  intro s rd rs hd hs hpc
  refine ⟨?rdHs, ?hdRs, ?hdHs⟩
  case rdHs | hdRs | hdHs => exact completes_of_flagged_difference rfl hpc

/-! BX -/

theorem getLsbD_zero_eq (v : Word) : v.getLsbD 0 = decide (v.toNat % 2 = 1) := Nat.testBit_zero _

theorem getLsbD_one_eq (v : Word) : v.getLsbD 1 = decide (2 ≤ v.toNat % 4) := by
  rw [BitVec.getLsbD, Nat.testBit_eq_decide_div_mod_eq, decide_eq_decide]
  omega

/-- Clearing bit 0 of an odd word takes 1 from it. -/
theorem clearBit0_of_odd {v : Word} (h : v.toNat % 2 = 1) : v &&& 0xFFFFFFFE#32 = v - 1#32 := by
  have hclear := clearBit0_toNat v
  bv_omega

/-- To an odd address BX goes in THUMB state (R213, R214). -/
theorem State.branchExchange_of_odd {s : State} {v : Word} (h : v.toNat % 2 = 1) :
    s.branchExchange v = .next ((s.withCpsr { s.cpsr with t := true }).withPc (v - 1#32)) := by
  rw [State.branchExchange, getLsbD_zero_eq, if_pos (decide_eq_true h), entryAddress_thumb, clearBit0_of_odd h]

/-- To an even address BX leaves THUMB state (R214). -/
theorem State.branchExchange_of_even {s : State} {v : Word} (h : v.toNat % 2 = 0) : s.branchExchange v = s.exitToArm v := by
  rw [State.branchExchange, getLsbD_zero_eq, if_neg (by simp [h])]

/-- To a multiple of 4 BX goes in ARM state (R214). -/
theorem State.branchExchange_of_wordAligned {s : State} {v : Word} (h : v.toNat % 4 = 0) :
    s.branchExchange v = .next ((s.withCpsr { s.cpsr with t := false }).withPc v) := by
  rw [s.branchExchange_of_even (by omega), State.exitToArm, getLsbD_one_eq, if_neg (by simp [h]), entryAddress_arm]

/-- To an address that is 2 modulo 4 BX is unpredictable (R214, D16; log 13). -/
theorem State.branchExchange_of_halfAligned {s : State} {v : Word} (h : v.toNat % 4 = 2) :
    s.branchExchange v = .fault (.unpredictable .bxTargetNotWordAligned) := by
  rw [s.branchExchange_of_even (by omega), State.exitToArm, getLsbD_one_eq, if_pos (by simp [h])]

theorem exec_bxRs (rs : LoReg) (s : State) : exec (.bxRs rs) s = s.branchExchange (s.x (lo rs)) := rfl

/-- BX of a Hi register exchanges, unless it is BX PC in the upper half of a word. -/
theorem exec_bxHs {hs : HiReg} {s : State} (h : hi hs = pcReg → s.pc.toNat % 4 < 2) :
    exec (.bxHs hs) s = s.branchExchange (s.x (hi hs)) := by
  refine if_neg fun ⟨hsrc, hbit⟩ => ?_
  rw [getLsbD_one_eq, decide_eq_true_iff] at hbit
  exact absurd (h hsrc) (Nat.not_lt.2 hbit)

/-- BX PC in the upper half of a word is unpredictable (R216, D9; log 13). -/
theorem exec_bxPc_of_upperHalf {hs : HiReg} {s : State} (hsrc : hi hs = pcReg) (h : 2 ≤ s.pc.toNat % 4) :
    exec (.bxHs hs) s = .fault (.unpredictable .bxPcNotWordAligned) :=
  if_pos ⟨hsrc, (getLsbD_one_eq s.pc).trans (decide_eq_true h)⟩

/-- Reading ahead by 4 moves by a whole word, so R15 reads as 0 or 2 modulo 4 as the address of the instruction does, but for
bit 0. -/
theorem State.x_pcReg_mod_four (s : State) : (s.x pcReg).toNat % 4 = s.pc.toNat % 4 / 2 * 2 := by
  rw [State.x_pcReg, clearBit0_toNat]
  bv_omega

/-- Settles O21: the target modulo 4 decides the exchange, and for BX PC it is also the place of the instruction in its word, so
that the clauses agree. -/
theorem branchExchange : Obligations.BranchExchange := by
  intro s rs hs thumb arm
  have hread (hsrc : hi hs = pcReg) : (s.x (hi hs)).toNat % 4 = s.pc.toNat % 4 / 2 * 2 := hsrc ▸ s.x_pcReg_mod_four
  have hlower (hsrc : hi hs = pcReg) (h : (s.x (hi hs)).toNat % 4 ≠ 2) : s.pc.toNat % 4 < 2 := by
    have := hread hsrc
    omega
  refine ⟨?loOdd, ?hiOdd, ?loAligned, ?hiAligned, ?pcAligned, ?loHalf, ?hiHalf, ?pcHalf⟩
  case loOdd => exact fun h => (exec_bxRs rs s).trans (s.branchExchange_of_odd h)
  case hiOdd => exact fun h => (exec_bxHs fun hsrc => hlower hsrc (by omega)).trans (s.branchExchange_of_odd h)
  case loAligned => exact fun h => (exec_bxRs rs s).trans (s.branchExchange_of_wordAligned h)
  case hiAligned => exact fun h => (exec_bxHs fun hsrc => hlower hsrc (by omega)).trans (s.branchExchange_of_wordAligned h)
  case pcAligned =>
    intro hpc hsrc
    have htarget : s.x (hi hs) = s.pc + 4#32 := hsrc ▸ s.x_pcReg_of_even (by omega)
    have haligned : (s.x (hi hs)).toNat % 4 = 0 := by rw [hread hsrc, hpc]
    rw [exec_bxHs fun _ => by omega, s.branchExchange_of_wordAligned haligned, htarget]
  case loHalf => exact fun h => (exec_bxRs rs s).trans (s.branchExchange_of_halfAligned h)
  case hiHalf => exact fun hne h => (exec_bxHs fun hsrc => absurd hsrc hne).trans (s.branchExchange_of_halfAligned h)
  case pcHalf => exact exec_bxPc_of_upperHalf

end Sys2Proof.Machine
end

section
/-! Single loads from ordinary memory and single stores: the sums the addressing forms are, how wide a value read from memory
is, and what an instruction leaves that is one of the two shared accesses (20_memory.md R63 to R69; 42_load_store.md R220 to
R251). -/

namespace Sys2Proof.Machine

/-! Addresses -/

/-- The base of the PC-relative load is the multiple of 4 at or below the address plus 4 (R27, R220). -/
theorem State.pcWordAligned_eq (s : State) : s.pcWordAligned = BitVec.ofNat 32 ((s.pc + 4#32).toNat / 4 * 4) := by
  rw [State.pcWordAligned, ← clearBits10_toNat, BitVec.ofNat_toNat, BitVec.setWidth_eq]

theorem addrPc_eq (s : State) (w : BitVec 8) :
    addrPc s w = BitVec.ofNat 32 ((s.pc + 4#32).toNat / 4 * 4) + BitVec.ofNat 32 (4 * w.toNat) := by
  rw [addrPc, State.pcWordAligned_eq, immWord8_eq]

theorem addrSp_eq (s : State) (w : BitVec 8) : addrSp s w = s.x spReg + BitVec.ofNat 32 (4 * w.toNat) := by
  rw [addrSp, immWord8_eq]

theorem addrImmediate_word (s : State) (rb : LoReg) (o : BitVec 5) :
    addrImmediate s rb (immWord5 o) = s.x (lo rb) + BitVec.ofNat 32 (4 * o.toNat) := by
  rw [addrImmediate, immWord5_eq]

theorem addrImmediate_half (s : State) (rb : LoReg) (o : BitVec 5) :
    addrImmediate s rb (immHalf5 o) = s.x (lo rb) + BitVec.ofNat 32 (2 * o.toNat) := by
  rw [addrImmediate, immHalf5_eq]

theorem addrImmediate_byte (s : State) (rb : LoReg) (o : BitVec 5) :
    addrImmediate s rb (immByte5 o) = s.x (lo rb) + BitVec.ofNat 32 o.toNat := by
  rw [addrImmediate, immByte5_eq]

/-! Values of memory -/

/-- The byte at an address, widened with zeros, is the byte (R64, R69). -/
theorem State.valueAt_byte_toNat (s : State) (a : Word) : (s.valueAt a .byte).toNat = (s.byteAt a).toNat :=
  BitVec.toNat_setWidth_of_le (by decide)

/-- A value read from memory fills no more than its bytes (R63, R64). -/
theorem State.valueAt_toNat_lt (s : State) (a : Word) (n : Size) : (s.valueAt a n).toNat < 2 ^ (8 * n.bytes) := by
  have hwiden (h : Half) : (h.setWidth 32 : Word).toNat < 2 ^ 16 := by
    rw [BitVec.toNat_setWidth_of_le (by decide)]
    exact h.isLt
  cases n with
  | byte => exact s.valueAt_byte_toNat a ▸ (s.byteAt a).isLt
  | half =>
    rw [State.valueAt]
    split <;> exact hwiden _
  | word => exact (s.valueAt a .word).isLt

/-- Cutting a value read from memory to the size of the access keeps it. -/
theorem State.trunc_valueAt (s : State) (a : Word) (n : Size) : n.trunc (s.valueAt a n) = s.valueAt a n := by
  apply BitVec.eq_of_toNat_eq
  rw [Size.trunc_toNat, Nat.mod_eq_of_lt (s.valueAt_toNat_lt a n)]

/-- LDSB's extension of the byte at an address keeps its signed value (R69, R232). -/
theorem State.signExtend8_valueAt_toInt (s : State) (a : Word) :
    (signExtend8 (s.valueAt a .byte)).toInt = (s.byteAt a).toInt := by
  have hlow : (s.valueAt a .byte).setWidth 8 = s.byteAt a := BitVec.setWidth_setWidth_of_le _ (by decide)
  rw [← s.trunc_valueAt a .byte, signExtend8_trunc_toInt, hlow]

/-- LDSH's extension of the halfword at an address keeps its signed value (R69, R233). -/
theorem State.signExtend16_valueAt_toInt (s : State) (a : Word) :
    (signExtend16 (s.valueAt a .half)).toInt = ((s.valueAt a .half).setWidth 16 : Half).toInt := by
  have hext := signExtend16_trunc_toInt (s.valueAt a .half)
  rwa [s.trunc_valueAt a .half] at hext

/-! Loads from ordinary memory -/

/-- An instruction that is a single load leaves in the register what its extension makes of the value in memory (R222). -/
theorem loads_of_loadInto {i : Instr} {s : State} {rd : LoReg} {a b : Word} {n : Size} {e : Word → Word} {P : Word → Prop}
    (hi : exec i s = loadInto s (lo rd) b n e) (haddr : b = a) (hP : P (e (s.valueAt a n))) : Loads i s rd a n P := by
  intro hpc ha ho
  obtain ⟨t, ht, hx, hrest⟩ := loadInto_completes s (lo rd) a n e (lo_ne_pcReg rd) hpc ha ho
  exact ⟨t, (haddr ▸ hi).trans ht, hx ▸ hP, hrest⟩

/-- Settles O22: each is the shared single load of a word, at an address that is the rule's sum. -/
theorem loadWord : Obligations.LoadWord := by
  intro s rd rb ro o w wordOf pcBase
  refine ⟨?ldrPc, ?ldrReg, ?ldrImm, ?ldrSp⟩
  case ldrPc => exact loads_of_loadInto rfl (addrPc_eq s w) rfl
  case ldrReg => exact loads_of_loadInto rfl rfl rfl
  case ldrImm => exact loads_of_loadInto rfl (addrImmediate_word s rb o) rfl
  case ldrSp => exact loads_of_loadInto rfl (addrSp_eq s w) rfl

/-- Settles O23: memory answers a byte or a halfword with zeros above it already, so the extension writes no other bit. -/
theorem loadZeroExtended : Obligations.LoadZeroExtended := by
  intro s rd rb ro o byteOf halfOf
  have hbyte (a : Word) : byteOf a (zeroExtend (s.valueAt a .byte)) := s.valueAt_byte_toNat a
  have hhalf (a : Word) : halfOf a (zeroExtend (s.valueAt a .half)) := ⟨rfl, s.valueAt_toNat_lt a .half⟩
  refine ⟨?ldrbReg, ?ldrhReg, ?ldrbImm, ?ldrhImm⟩
  case ldrbReg => exact loads_of_loadInto rfl rfl (hbyte _)
  case ldrhReg => exact loads_of_loadInto rfl rfl (hhalf _)
  case ldrbImm => exact loads_of_loadInto rfl (addrImmediate_byte s rb o) (hbyte _)
  case ldrhImm => exact loads_of_loadInto rfl (addrImmediate_half s rb o) (hhalf _)

/-- Settles O24: the two sign extensions keep the signed value of what memory answers. -/
theorem loadSignExtended : Obligations.LoadSignExtended := by
  intro s rd rb ro a
  refine ⟨?ldsbReg, ?ldshReg⟩
  case ldsbReg => exact loads_of_loadInto rfl rfl (s.signExtend8_valueAt_toInt a)
  case ldshReg => exact loads_of_loadInto rfl rfl (s.signExtend16_valueAt_toInt a)

/-! Stores -/

/-- An instruction that is a single store leaves the low bytes of the value at the address, and changes nothing else but the PC
(R65, R222). -/
theorem stores_of_storeFrom {i : Instr} {s : State} {a : Word} {n : Size} {v : Word} (hi : exec i s = storeFrom s a n v) :
    Stores i s a n v := by
  intro hpc hw ha hd
  obtain ⟨hnext, hframe⟩ := storeFrom_completes s a n v hpc ha hd
  exact ⟨_, hi.trans hnext, State.valueAt_setValue_self a n v hw, rfl, hframe⟩

/-- Settles O26: each is the shared single store of a word. -/
theorem storeWord : Obligations.StoreWord := by
  intro s rd rb ro o w
  refine ⟨?strReg, ?strImm, ?strSp, rfl, addrImmediate_word s rb o, addrSp_eq s w⟩
  case strReg | strImm | strSp => exact stores_of_storeFrom rfl

/-- Settles O27: each is the shared single store of a byte or a halfword. -/
theorem storeNarrow : Obligations.StoreNarrow := by
  intro s rd rb ro o
  refine ⟨?strbReg, ?strhReg, ?strbImm, ?strhImm, rfl, addrImmediate_byte s rb o, addrImmediate_half s rb o⟩
  case strbReg | strhReg | strbImm | strhImm => exact stores_of_storeFrom rfl

end Sys2Proof.Machine
end

section
/-! Formats 12 to 15: sums with the PC and the SP, the words a multiple store leaves in memory and a multiple load puts in the
registers, and where the multiple transfers stop (43_address_sp_multiple.md R260 to R282). The names of some statements about
multiple transfers are taken by the model's operations, so their theorems stand under `MultipleTransfers`. -/

namespace Sys2Proof.Machine

/-! Formats 12 and 13 -/

theorem immWord8_toNat (w : BitVec 8) : (immWord8 w).toNat = 4 * w.toNat := by
  have := w.isLt
  rw [immWord8_eq, BitVec.toNat_ofNat]
  omega

theorem immWord7_toNat (m : BitVec 7) : (immWord7 m).toNat = 4 * m.toNat := by
  have := m.isLt
  rw [immWord7_eq, BitVec.toNat_ofNat]
  omega

/-- ADD of the PC ends as a format 5 ADD into a Lo register does. -/
theorem exec_addRdPc (rd : LoReg) (w : BitVec 8) (s : State) :
    exec (.addRdPc rd w) s = s.assign (lo rd) (s.pcWordAligned + immWord8 w) := (s.assign_lo rd _).symm

/-- ADD of the SP ends as a format 5 ADD into a Lo register does. -/
theorem exec_addRdSp (rd : LoReg) (w : BitVec 8) (s : State) :
    exec (.addRdSp rd w) s = s.assign (lo rd) (s.x spReg + immWord8 w) := (s.assign_lo rd _).symm

theorem exec_addSpImm (m : BitVec 7) (s : State) : exec (.addSpImm m) s = s.assign spReg (s.x spReg + immWord7 m) := rfl

theorem exec_addSpNegImm (m : BitVec 7) (s : State) : exec (.addSpNegImm m) s = s.assign spReg (s.x spReg - immWord7 m) := rfl

theorem spReg_ne_pcReg : spReg ≠ pcReg := by decide

/-- Settles O30: both are additions into a Lo register, of a base that is the rule's. -/
theorem loadAddress : Obligations.LoadAddress := by
  intro s rd w hpc
  refine ⟨?pcBase, ?spBase⟩
  case pcBase =>
    rw [← clearBits10_toNat, ← immWord8_toNat]
    exact completes_of_assign_add (exec_addRdPc rd w s) (lo_ne_pcReg rd) hpc
  case spBase =>
    rw [← immWord8_toNat]
    exact completes_of_assign_add (exec_addRdSp rd w s) (lo_ne_pcReg rd) hpc

/-- Settles O31: the sign of the offset chooses between the sum and the difference with its magnitude. -/
theorem addToStackPointer : Obligations.AddToStackPointer := by
  intro s m hpc
  have hm := immWord7_toNat m
  refine ⟨?raised, ?lowered⟩
  case raised =>
    obtain ⟨t, ht, hx, hrest⟩ := completes_of_assign (exec_addSpImm m s) spReg_ne_pcReg hpc
    refine ⟨t, ht, ?_, hrest⟩
    rw [hx, BitVec.toNat_add]
    omega
  case lowered =>
    obtain ⟨t, ht, hx, hrest⟩ := completes_of_assign (exec_addSpNegImm m s) spReg_ne_pcReg hpc
    refine ⟨t, ht, ?_, hrest⟩
    rw [hx, BitVec.toNat_sub]
    omega

/-! The list of a multiple transfer -/

theorem regList_length_le (l : BitVec 8) : (regList l).length ≤ 8 := by
  rw [regList, List.length_map]
  exact List.length_filter_le _ (List.range 8)

theorem length_regList_append (l : BitVec 8) (r : Reg) : (regList l ++ [r]).length = (regList l).length + 1 :=
  List.length_append

theorem regList_ne_nil {l : BitVec 8} (hl : l ≠ 0#8) : regList l ≠ [] := by
  revert l
  decide

theorem spReg_notMem_regList (l : BitVec 8) : spReg ∉ regList l := not_mem_regList l spReg (by decide)

theorem pcReg_notMem_regList (l : BitVec 8) : pcReg ∉ regList l := not_mem_regList l pcReg (by decide)

/-- The base of format 15 is not in a list whose bit for it is clear. -/
theorem lo_notMem_regList {l : BitVec 8} {rb : LoReg} (hb : l.getLsbD rb.toNat = false) : lo rb ∉ regList l := by
  rw [lo_mem_regList, hb]
  exact Bool.false_ne_true

/-- Full descending: moving down by whole words keeps the place in the word (R270). -/
theorem sub_words_mod_four (a : Word) (n : Nat) : (a - BitVec.ofNat 32 (4 * n)).toNat % 4 = a.toNat % 4 := by
  rw [BitVec.toNat_sub, BitVec.toNat_ofNat]
  omega

/-! The words a multiple store leaves -/

/-- A word whose four bytes read as before reads as before. -/
theorem State.valueAt_word_congr {s t : State} {a : Word} (hbe : t.bigEndian = s.bigEndian)
    (h : ∀ k, k < 4 → t.byteAt (a + BitVec.ofNat 32 k) = s.byteAt (a + BitVec.ofNat 32 k)) :
    t.valueAt a .word = s.valueAt a .word := by
  have h0 := h 0 (by decide)
  rw [BitVec.add_zero] at h0
  rw [State.valueAt, State.valueAt, hbe, h0, h 1 (by decide), h 2 (by decide), h 3 (by decide)]

/-- What memory holds depends on memory and the byte order only. -/
theorem HoldsWords.congr {s t : State} {a : Word} {vs : List Word} (hm : t.mem = s.mem) (hbe : t.bigEndian = s.bigEndian)
    (h : HoldsWords s a vs) : HoldsWords t a vs := by
  induction vs generalizing a with
  | nil => trivial
  | cons v rest ih =>
    obtain ⟨hv, hrest⟩ := h
    refine ⟨?_, ih hrest⟩
    rw [← hv]
    exact State.valueAt_word_congr hbe fun k _ => by rw [State.byteAt, State.byteAt, hm]

/-- Memory holds one list of words of a given length at an address. -/
theorem HoldsWords.unique {s : State} {a : Word} {vs ws : List Word} (hv : HoldsWords s a vs) (hw : HoldsWords s a ws)
    (hlen : vs.length = ws.length) : vs = ws := by
  induction vs generalizing a ws with
  | nil => exact (List.length_eq_zero_iff.1 hlen.symm).symm
  | cons v rest ih =>
    cases ws with
    | nil => cases hlen
    | cons w others =>
      obtain ⟨hv, hrest⟩ := hv
      obtain ⟨hw, hothers⟩ := hw
      rw [← hv, ← hw, ih hrest hothers (Nat.succ.inj hlen)]

/-- Storing words leaves every byte outside them alone. -/
theorem keepsMemoryBut_writeWords {s t : State} {a : Word} {vs : List Word} (h : writeWords s a vs = .ok t) :
    KeepsMemoryBut s t a (4 * vs.length) := by
  induction vs generalizing s a with
  | nil =>
    cases h
    exact fun _ _ => rfl
  | cons v rest ih =>
    rw [writeWords] at h
    split at h
    next => cases h
    next u hm =>
      obtain ⟨-, -, rfl⟩ := memWrite_cases _ _ _ _ _ hm
      intro b hb
      rw [List.length_cons] at hb
      have hrest : 4 * rest.length ≤ (b - (a + 4#32)).toNat := by bv_omega
      have hfirst : Size.word.bytes ≤ (b - a).toNat := (Nat.le_mul_of_pos_right 4 (Nat.succ_pos _)).trans hb
      rw [ih h b hrest, State.keepsMemoryBut_setValue s a .word v b hfirst]

/-- Stored words that do not wrap onto each other stand in memory. -/
theorem holdsWords_writeWords {s t : State} {a : Word} {vs : List Word} (hw : Memory.wf s.mem = true)
    (hlen : 4 * vs.length ≤ 2 ^ 32) (h : writeWords s a vs = .ok t) : HoldsWords t a vs := by
  induction vs generalizing s a with
  | nil => trivial
  | cons v rest ih =>
    rw [List.length_cons] at hlen
    rw [writeWords] at h
    split at h
    next => cases h
    next u hm =>
      obtain ⟨-, -, rfl⟩ := memWrite_cases _ _ _ _ _ hm
      have hstored : (s.setValue a .word v).valueAt a .word = v := by
        apply BitVec.eq_of_toNat_eq
        rw [State.valueAt_setValue_self a .word v hw]
        exact Nat.mod_eq_of_lt v.isLt
      have hkept : t.valueAt a .word = (s.setValue a .word v).valueAt a .word := by
        refine State.valueAt_word_congr ?_ fun k hk => keepsMemoryBut_writeWords h _ ?_
        · rw [(writeWords_state _ _ _ _ h).1, State.withMem_bigEndian]
        · bv_omega
      exact ⟨hkept.trans hstored, ih (State.wf_setValue s a .word v hw) (by omega) h⟩

/-- What a completed multiple store left: the words, the base, the next halfword, and nothing else (R268, R270, R280). -/
theorem storeMultiple_stores {s t : State} {base : Reg} {start newBase : Word} {regs : List Reg} (hb : base ≠ pcReg)
    (hw : Memory.wf s.mem = true) (hlen : 4 * regs.length ≤ 2 ^ 32)
    (h : storeMultiple s base start newBase regs = .next t) :
    HoldsWords t start (regs.map s.x) ∧ t.x base = newBase ∧ t.pc = s.pc + 2#32 ∧
      StoresBut s t [base] start (4 * regs.length) := by
  obtain ⟨u, hu, -, rfl⟩ := storeMultiple_next s t base start newBase regs h
  have hwords : HoldsWords u start (regs.map s.x) := holdsWords_writeWords hw (by rwa [List.length_map]) hu
  have hframe := keepsMemoryBut_writeWords hu
  rw [List.length_map] at hframe
  have hmem := (writeWords_state _ _ _ _ hu).1
  generalize u.mem = m at hmem
  subst hmem
  refine ⟨hwords.congr (by simp) (by simp), ?_, rfl, ?_, ?_, ?_, ?_, ?_⟩
  · rw [State.x_withPc _ _ _ hb, State.x_writeReg_self _ _ _ hb]
  · exact State.keepsRegsBut_writeReg (s.withMem m) base newBase
  · intro b hout
    rw [← hframe b hout, State.byteAt, State.byteAt, State.withPc_mem, State.writeReg_mem]
  all_goals simp [KeepsSystem]

/-- A multiple store of admitted words completes unless it stands at the end of the address space. -/
theorem completes_of_storeMultiple {i : Instr} {s : State} {base : Reg} {start newBase : Word} {regs : List Reg}
    (hi : exec i s = storeMultiple s base start newBase regs) (hpc : s.pc ≠ lastHalf) (hb : base ≠ pcReg)
    (hw : Memory.wf s.mem = true) (hlen : 4 * regs.length ≤ 2 ^ 32) (ha : start.toNat % 4 = 0)
    (hd : eachWord (fun a => s.admitted a .word .write) start regs.length = true) :
    Completes i s (fun t => HoldsWords t start (regs.map s.x) ∧ t.x base = newBase ∧ t.pc = s.pc + 2#32 ∧
      StoresBut s t [base] start (4 * regs.length)) := by
  rw [← regs.length_map s.x] at hd
  obtain ⟨u, hu⟩ := writeWords_of_admitted s start (regs.map s.x) ha hd
  have hupc : u.pc = s.pc := by rw [(writeWords_state _ _ _ _ hu).1, State.withMem_pc]
  have hnext : storeMultiple s base start newBase regs = .next ((u.writeReg base newBase).withPc (u.pc + 2#32)) := by
    rw [storeMultiple, hu]
    dsimp only
    rw [State.advance_of_ne _ (by rwa [State.writeReg_pc, hupc]), State.writeReg_pc]
  exact ⟨_, hi.trans hnext, storeMultiple_stores hb hw hlen hnext⟩

/-- Settles O33: PUSH, with LR or without, is the shared multiple store from below the SP. -/
theorem MultipleTransfers.pushRegisters : Obligations.PushRegisters := by
  intro s l hpc hw ha pushes
  have hpush {i : Instr} {regs : List Reg} (hi : exec i s = Machine.pushRegisters s regs) (hlen : regs.length ≤ 9) :
      pushes i regs := fun hd =>
    completes_of_storeMultiple hi hpc spReg_ne_pcReg hw (by omega) ((sub_words_mod_four _ _).trans ha) hd
  have hlist := regList_length_le l
  have hlen := length_regList_append l lrReg
  exact ⟨fun hl => hpush (exec_push s hl) (by omega), hpush rfl (by omega)⟩

/-- Settles O36: STMIA is the shared multiple store from the base upward. -/
theorem MultipleTransfers.storeMultiple : Obligations.StoreMultiple := by
  intro s rb l hpc hw hl hb ha regs hd
  have hlist : regs.length ≤ 8 := regList_length_le l
  exact completes_of_storeMultiple (exec_stmia s hl hb) hpc (lo_ne_pcReg rb) hw (by omega) ha hd

/-! The words a multiple load gets -/

/-- Settles O34: POP is the shared multiple load from the SP upward. -/
theorem MultipleTransfers.popRegisters : Obligations.PopRegisters := by
  intro s l hpc hl ha regs hd
  rw [Completes, exec_pop s hl]
  exact loadMultiple_completes s spReg _ _ regs hpc spReg_ne_pcReg (spReg_notMem_regList l) (regList_nodup l)
    (pcReg_notMem_regList l) ha hd

/-- Settles O37: LDMIA is the shared multiple load from the base upward. -/
theorem MultipleTransfers.loadMultiple : Obligations.LoadMultiple := by
  intro s rb l hpc hl hb ha regs hd
  rw [Completes, exec_ldmia s hl hb]
  exact loadMultiple_completes s (lo rb) _ _ regs hpc (lo_ne_pcReg rb) (lo_notMem_regList hb) (regList_nodup l)
    (pcReg_notMem_regList l) ha hd

@[simp] theorem State.writeRegs_pc (s : State) (vs : List (Reg × Word)) : (s.writeRegs vs).pc = s.pc := by
  rw [State.writeRegs_regs_only]
@[simp] theorem State.writeRegs_cpsr (s : State) (vs : List (Reg × Word)) : (s.writeRegs vs).cpsr = s.cpsr := by
  rw [State.writeRegs_regs_only]
@[simp] theorem State.writeRegs_spsr (s : State) (vs : List (Reg × Word)) : (s.writeRegs vs).spsr = s.spsr := by
  rw [State.writeRegs_regs_only]
@[simp] theorem State.writeRegs_mem (s : State) (vs : List (Reg × Word)) : (s.writeRegs vs).mem = s.mem := by
  rw [State.writeRegs_regs_only]
@[simp] theorem State.writeRegs_bigEndian (s : State) (vs : List (Reg × Word)) :
    (s.writeRegs vs).bigEndian = s.bigEndian := by
  rw [State.writeRegs_regs_only]
@[simp] theorem State.writeRegs_regions (s : State) (vs : List (Reg × Word)) : (s.writeRegs vs).regions = s.regions := by
  rw [State.writeRegs_regs_only]
@[simp] theorem State.writeRegs_draws (s : State) (vs : List (Reg × Word)) : (s.writeRegs vs).draws = s.draws := by
  rw [State.writeRegs_regs_only]

/-- R15 has no cell in the file, so its pair at the end of a list writes nothing. -/
theorem State.writeRegs_append_pcReg (s : State) (vs : List (Reg × Word)) (top : Word) :
    s.writeRegs (vs ++ [(pcReg, top)]) = s.writeRegs vs := by
  induction vs generalizing s with
  | nil =>
    rw [List.nil_append, State.writeRegs, State.writeRegs, State.writeReg, phys_pcReg]
    rfl
  | cons c rest ih =>
    obtain ⟨r, v⟩ := c
    exact ih (s.writeReg r v)

/-- The state a multiple load leaves that counted draws up to `e`: the registers, then the base, then the PC are written. -/
def State.loaded (s : State) (e : Nat) (vs : List (Reg × Word)) (base : Reg) (newBase next : Word) : State :=
  ((({ s with draws := e } : State).writeRegs vs).writeReg base newBase).withPc next

namespace State.loaded

variable (s : State) (e : Nat) (vs : List (Reg × Word)) {base : Reg} (newBase next : Word)

theorem draws_eq : (s.loaded e vs base newBase next).draws = e := by simp [State.loaded]

theorem cpsr_eq : (s.loaded e vs base newBase next).cpsr = s.cpsr := by simp [State.loaded]

theorem x_base (hb : base ≠ pcReg) : (s.loaded e vs base newBase next).x base = newBase := by
  rw [State.loaded, State.x_withPc _ _ _ hb, State.x_writeReg_self _ _ _ hb]

/-- Different registers of the file, the base not among them, hold what was loaded. -/
theorem map_x (hn : (vs.map Prod.fst).Nodup) (hp : pcReg ∉ vs.map Prod.fst) (hm : base ∉ vs.map Prod.fst) :
    (vs.map Prod.fst).map (s.loaded e vs base newBase next).x = vs.map Prod.snd := by
  rw [← State.x_writeRegs { s with draws := e } vs hn hp]
  refine List.map_congr_left fun r hr => ?_
  have hpc : r ≠ pcReg := fun heq => hp (heq ▸ hr)
  have hbase : r ≠ base := fun heq => hm (heq ▸ hr)
  rw [State.loaded, State.x_withPc _ _ _ hpc, State.x_writeReg_other _ _ _ _ hbase]

theorem leavesBut : LeavesBut s (s.loaded e vs base newBase next) (base :: vs.map Prod.fst) := by
  refine ⟨fun p hp => ?_, fun b => ?_, ?_, ?_⟩
  · obtain ⟨hbase, hregs⟩ := List.forall_mem_cons.1 hp
    rw [State.loaded, State.bank_withPc, State.bank_writeReg, if_neg (by simpa using hbase)]
    exact State.keepsRegsBut_writeRegs { s with draws := e } vs p hregs
  · simp [State.loaded, State.byteAt]
  · simp [State.loaded, KeepsSystem]
  · rw [cpsr_eq]
    exact KeepsControl.refl s.cpsr

end State.loaded

theorem exec_popPc (l : BitVec 8) (s : State) : exec (.popPc l) s = execPopPc l s := rfl

/-- POP with the PC whose words are read goes to the last of them, with bit 0 cleared (R273, D15; log 17). -/
theorem exec_popPc_of_readWords {s : State} {l : BitVec 8} {vs : List (Reg × Word)} {top : Word} {e : Nat}
    (h : readWords s (s.x spReg) (regList l ++ [pcReg]) = .ok (vs ++ [(pcReg, top)], { s with draws := e })) :
    exec (.popPc l) s = .next
      (s.loaded e vs spReg (s.x spReg + extent (regList l ++ [pcReg])) (BitVec.ofNat 32 (top.toNat / 2 * 2))) := by
  rw [exec_popPc, execPopPc]
  simp only [h, State.writeRegs_append_pcReg, List.getLast?_append, List.getLast?_singleton, Option.some_or, Option.map_some,
    Option.getD_some, State.jump, clearBit0_eq_ofNat, State.loaded]

/-- Settles O35: the last of the words read is R15's, which the registers' part of the load leaves to the jump. -/
theorem MultipleTransfers.popPc : Obligations.PopPc := by
  intro s l ha regs hd
  rw [← length_regList_append l pcReg] at hd ⊢
  obtain ⟨pairs, e, hread, hfst, hwords⟩ := readWords_of_admitted s (s.x spReg) (regs ++ [pcReg]) ha hd
  obtain ⟨vs, last, rfl, hvs, hlast⟩ := List.map_eq_append_iff.1 hfst
  obtain ⟨⟨r, top⟩, rfl, rfl⟩ := List.map_eq_singleton_iff.1 hlast
  refine ⟨_, exec_popPc_of_readWords hread, ⟨top, ?_, rfl⟩, ?_, ?_, ?_⟩
  · have hmap := State.loaded.map_x s e vs (base := spReg) (s.x spReg + extent (regs ++ [pcReg]))
      (BitVec.ofNat 32 (top.toNat / 2 * 2)) (hvs ▸ regList_nodup l) (hvs ▸ pcReg_notMem_regList l)
      (hvs ▸ spReg_notMem_regList l)
    rw [hvs] at hmap
    rw [hmap, State.loaded.draws_eq]
    rwa [List.map_append] at hwords
  · exact State.loaded.x_base s e vs _ _ spReg_ne_pcReg
  · exact State.loaded.cpsr_eq s e vs _ _
  · exact hvs ▸ State.loaded.leavesBut s e vs _ _

/-! Where the multiple transfers stop -/

/-- A multiple store of one word or more stops at a misaligned start (R66, D2; log 8). -/
theorem storeMultiple_of_misaligned {s : State} {base : Reg} {start newBase : Word} {regs : List Reg} (hr : regs ≠ [])
    (ha : start.toNat % 4 ≠ 0) : storeMultiple s base start newBase regs = .fault (.misaligned start .word) := by
  obtain ⟨r, rest, rfl⟩ := List.exists_cons_of_ne_nil hr
  rw [storeMultiple, List.map_cons, writeWords, memWrite_of_misaligned ha]

/-- Reading one word or more stops at a misaligned start (R66, D2; log 8). -/
theorem readWords_of_misaligned {s : State} {start : Word} {regs : List Reg} (hr : regs ≠ []) (ha : start.toNat % 4 ≠ 0) :
    readWords s start regs = .error (.misaligned start .word) := by
  obtain ⟨r, rest, rfl⟩ := List.exists_cons_of_ne_nil hr
  rw [readWords, memRead_of_misaligned s start .word .read ha]

theorem loadMultiple_of_misaligned {s : State} {base : Reg} {start newBase : Word} {regs : List Reg} (hr : regs ≠ [])
    (ha : start.toNat % 4 ≠ 0) : loadMultiple s base start newBase regs = .fault (.misaligned start .word) := by
  rw [loadMultiple, readWords_of_misaligned hr ha]

theorem exec_popPc_of_misaligned {s : State} (l : BitVec 8) (ha : (s.x spReg).toNat % 4 ≠ 0) :
    exec (.popPc l) s = .fault (.misaligned (s.x spReg) .word) := by
  rw [exec_popPc, execPopPc, readWords_of_misaligned (by simp) ha]

theorem ne_zero_of_base_mem {l : BitVec 8} {rb : LoReg} (hb : l.getLsbD rb.toNat = true) : l ≠ 0#8 := by
  rintro rfl
  rw [BitVec.getLsbD_zero] at hb
  cases hb

/-- Settles O38: the list is checked first; a valid one has a first word, whose alignment is checked next. -/
theorem MultipleTransfers.multipleTransferStops : Obligations.MultipleTransferStops := by
  intro s rb l
  have hdown (n : Nat) (ha : (s.x spReg).toNat % 4 ≠ 0) : (s.x spReg - BitVec.ofNat 32 (4 * n)).toNat % 4 ≠ 0 := by
    rwa [sub_words_mod_four]
  refine ⟨rfl, rfl, rfl, rfl, fun hb => ?baseInList, fun hl hb ha => ?format15, fun ha => ⟨fun hl => ?push, ?pushLr,
    fun hl => ?pop, exec_popPc_of_misaligned l ha⟩⟩
  case baseInList =>
    have hl := ne_zero_of_base_mem hb
    exact ⟨(if_neg hl).trans (if_pos hb), (if_neg hl).trans (if_pos hb)⟩
  case format15 =>
    rw [exec_stmia s hl hb, exec_ldmia s hl hb]
    exact ⟨storeMultiple_of_misaligned (regList_ne_nil hl) ha, loadMultiple_of_misaligned (regList_ne_nil hl) ha⟩
  case push =>
    rw [exec_push s hl]
    exact storeMultiple_of_misaligned (regList_ne_nil hl) (hdown _ ha)
  case pushLr =>
    rw [← length_regList_append l lrReg]
    exact storeMultiple_of_misaligned (by simp) (hdown _ ha)
  case pop =>
    rw [exec_pop s hl]
    exact loadMultiple_of_misaligned (regList_ne_nil hl) ha

/-! PUSH and POP -/

/-- An access of ordinary memory is admitted. -/
theorem State.admitted_of_ordinary {s : State} {a : Word} {n : Size} {k : Access} (h : s.ordinary a n k = true) :
    s.admitted a n k = true := by
  rw [State.ordinary] at h
  rw [State.admitted]
  cases hr : s.regionFor a n k with
  | none => simp [hr] at h
  | some r => rfl

theorem eachWord_admitted_of_ordinary {s : State} {k : Access} {a : Word} {n : Nat}
    (h : eachWord (fun b => s.ordinary b .word k) a n = true) : eachWord (fun b => s.admitted b .word k) a n = true := by
  induction n generalizing a with
  | zero => rfl
  | succ n ih =>
    rw [eachWord, Bool.and_eq_true] at h ⊢
    obtain ⟨hfirst, hothers⟩ := h
    exact ⟨State.admitted_of_ordinary hfirst, ih hothers⟩

/-- What a multiple load gets from ordinary memory is what memory holds. -/
theorem ReadsWords.holdsWords {s : State} {d e : Nat} {a : Word} {vs : List Word} (h : ReadsWords s d a vs e)
    (ho : eachWord (fun b => s.ordinary b .word .read) a vs.length = true) : HoldsWords s a vs := by
  induction vs generalizing a with
  | nil => trivial
  | cons v rest ih =>
    rw [List.length_cons, eachWord, Bool.and_eq_true] at ho
    obtain ⟨hfirst, hothers⟩ := ho
    rw [ReadsWords, if_pos hfirst] at h
    obtain ⟨hv, hrest⟩ := h
    exact ⟨hv.symm, ih hrest hothers⟩

/-- Settles O39: PUSH leaves the words in memory, POP reads words there, and memory holds one list of that length. -/
theorem MultipleTransfers.popUndoesPush : Obligations.PopUndoesPush := by
  intro s t u w l hw hpush hmem _ hbe _ hsp ho hpop
  have hlist := regList_length_le l
  have hlen := length_regList_append l lrReg
  obtain ⟨hstored, htsp, -⟩ := storeMultiple_stores spReg_ne_pcReg hw (by omega) hpush
  have haligned : (u.x spReg).toNat % 4 = 0 := by
    by_contra ha
    rw [exec_popPc_of_misaligned l ha] at hpop
    cases hpop
  obtain ⟨⟨top, hread, hwpc⟩, hwsp, -⟩ :=
    (MultipleTransfers.popPc u l haligned (eachWord_admitted_of_ordinary ho)).of_exec_next hpop
  have hloaded : HoldsWords u (u.x spReg) ((regList l).map w.x ++ [top]) := hread.holdsWords (by simpa using ho)
  have hsaved : HoldsWords u (u.x spReg) ((regList l).map s.x ++ [s.x lrReg]) := by
    rw [hsp, htsp]
    rw [List.map_append] at hstored
    exact hstored.congr hmem hbe
  obtain ⟨hregs, htop⟩ := List.append_inj (hloaded.unique hsaved (by simp)) (by simp)
  refine ⟨List.map_inj_left.1 hregs, ?_, ?_⟩
  · rw [hwsp, hsp, htsp, extent, hlen, BitVec.sub_add_cancel]
  · rw [hwpc, List.singleton_inj.1 htop]

end Sys2Proof.Machine
end

section
/-! Formats 16, 18 and 19: where a branch goes by its condition, the two instructions of a long branch with link, and the pair
the assembler writes for `BL label` (44_branch_swi.md R290, R291, R301 to R319). -/

namespace Sys2Proof.Machine

/-! Conditional branches -/

/-- A taken branch goes by the signed field, in halfwords, from where it reads the PC (R291). -/
theorem State.branchIf_taken {s : State} {c : Cond} (h : condHolds c s.cpsr = true) (o : BitVec 8) :
    s.branchIf c o = .next (s.withPc (s.pc + 4#32 + BitVec.ofInt 32 (2 * o.toInt))) := by
  rw [State.branchIf, if_pos h, branchOffset8_eq, State.pcAhead]

/-- A branch that is not taken advances (R291). -/
theorem State.branchIf_not_taken {s : State} {c : Cond} (h : ¬ condHolds c s.cpsr = true) (o : BitVec 8) :
    s.branchIf c o = s.advance := if_neg h

theorem condHolds_mi (p : Psr) : condHolds .mi p = true ↔ p.n = true := Iff.rfl

theorem condHolds_pl (p : Psr) : condHolds .pl p = true ↔ ¬ p.n = true := by simp [condHolds]

theorem condHolds_vs (p : Psr) : condHolds .vs p = true ↔ p.v = true := Iff.rfl

theorem condHolds_vc (p : Psr) : condHolds .vc p = true ↔ ¬ p.v = true := by simp [condHolds]

/-- The branch on a condition branches when the flags say what the condition means. -/
theorem branchesWhen_of_condHolds_iff (c : Cond) {holds : Psr → Prop} (hc : ∀ p, condHolds c p = true ↔ holds p) :
    BranchesWhen (assembleBranchIf c) holds := by
  intro s o
  rw [exec_assembleBranchIf, ← hc]
  exact ⟨fun h => s.branchIf_taken h o, fun h hpc => (s.branchIf_not_taken h o).trans (s.advance_of_ne hpc)⟩

/-- Settles O40: each condition is its flag, set or clear. -/
theorem branchesOnOneFlag : Obligations.BranchesOnOneFlag := by
  refine ⟨?eq, ?ne, ?cs, ?cc, ?mi, ?pl, ?vs, ?vc⟩
  case eq => exact branchesWhen_of_condHolds_iff .eq condHolds_eq
  case ne => exact branchesWhen_of_condHolds_iff .ne fun p => by rw [condHolds_ne, Bool.not_eq_true]
  case cs => exact branchesWhen_of_condHolds_iff .cs condHolds_cs
  case cc => exact branchesWhen_of_condHolds_iff .cc fun p => by rw [condHolds_cc, Bool.not_eq_true]
  case mi => exact branchesWhen_of_condHolds_iff .mi condHolds_mi
  case pl => exact branchesWhen_of_condHolds_iff .pl fun p => by rw [condHolds_pl, Bool.not_eq_true]
  case vs => exact branchesWhen_of_condHolds_iff .vs condHolds_vs
  case vc => exact branchesWhen_of_condHolds_iff .vc fun p => by rw [condHolds_vc, Bool.not_eq_true]

/-- Settles O41: each condition is the combination of flags Table 5-17 gives for it. -/
theorem branchesOnSeveralFlags : Obligations.BranchesOnSeveralFlags := by
  refine ⟨?hi, ?ls, ?ge, ?lt, ?gt, ?le⟩
  case hi => exact branchesWhen_of_condHolds_iff .hi fun p => by rw [condHolds_hi, Bool.not_eq_true]
  case ls => exact branchesWhen_of_condHolds_iff .ls fun p => by rw [condHolds_ls, Bool.not_eq_true]
  case ge => exact branchesWhen_of_condHolds_iff .ge condHolds_ge
  case lt => exact branchesWhen_of_condHolds_iff .lt condHolds_lt
  case gt => exact branchesWhen_of_condHolds_iff .gt fun p => by rw [condHolds_gt, Bool.not_eq_true]
  case le => exact branchesWhen_of_condHolds_iff .le condHolds_le

/-! B -/

/-- B goes by the signed field, in halfwords, from where it reads the PC (R301). -/
theorem exec_b (o : BitVec 11) (s : State) :
    exec (.b o) s = .next (s.withPc (s.pc + 4#32 + BitVec.ofInt 32 (2 * o.toInt))) := by
  rw [← branchOffset11_eq]
  rfl

/-- Settles O43: fields 0x7FE and 0x7FF are the offsets -2 and -1, of which the first undoes reading ahead by 4. -/
theorem unconditionalBranch : Obligations.UnconditionalBranch := by
  intro s o
  have hself : s.pc + 4#32 + BitVec.ofInt 32 (2 * (0x7FE#11).toInt) = s.pc := by
    rw [BitVec.add_assoc]
    exact BitVec.add_zero s.pc
  have hnext : s.pc + 4#32 + BitVec.ofInt 32 (2 * (0x7FF#11).toInt) = s.pc + 2#32 := by
    rw [BitVec.add_assoc]
    rfl
  refine ⟨exec_b o s, ?self, rfl, ?next⟩
  case self =>
    rw [exec_b, hself]
    rfl
  case next => rw [exec_b, hnext]

/-! The two instructions of BL -/

theorem lrReg_ne_pcReg : lrReg ≠ pcReg := by decide

/-- The first instruction of BL ends as a format 5 operation with the destination LR does (R304). -/
theorem exec_blFirst (o : BitVec 11) (s : State) :
    exec (.blFirst o) s = s.assign lrReg (s.pc + 4#32 + BitVec.ofInt 32 (4096 * o.toInt)) := by
  rw [State.assign, if_neg lrReg_ne_pcReg, ← blOffsetHigh_eq]
  rfl

/-- The high half of a BL offset does not change whether an address is even. -/
theorem add_four_add_page_mod_two (a : Word) (k : Int) :
    (a + 4#32 + BitVec.ofInt 32 (4096 * k)).toNat % 2 = a.toNat % 2 := by
  have hpage : (BitVec.ofInt 32 (4096 * k)).toNat % 2 = 0 := by
    rw [BitVec.toNat_ofInt]
    omega
  bv_omega

/-- Settles O44: LR is assigned the sum, whose offset is a multiple of 4096. -/
theorem branchLinkFirst : Obligations.BranchLinkFirst := by
  intro s o hpc
  obtain ⟨t, ht, hlr, hcpsr, hadv⟩ := completes_of_assign (exec_blFirst o s) lrReg_ne_pcReg hpc
  refine ⟨t, ht, hlr, fun heven => ?_, hcpsr, hadv⟩
  rw [hlr, add_four_add_page_mod_two, heven]

/-- The return address: setting bit 0 of an even address adds 1 to it. -/
theorem or_one_of_even {v : Word} (h : v.toNat % 2 = 0) : v ||| 1#32 = v + 1#32 := by
  have hdisjoint : v &&& 1#32 = 0#32 := by
    apply BitVec.eq_of_toNat_eq
    rw [BitVec.toNat_and, show (1#32 : Word).toNat = 1 from rfl, Nat.and_one_is_mod, h]
    rfl
  exact (BitVec.add_eq_or_of_and_eq_zero v 1#32 hdisjoint).symm

/-- A write of one register and of the PC leaves everything else alone. -/
theorem leavesBut_writeReg_withPc (s : State) (r : Reg) (v a : Word) : LeavesBut s ((s.writeReg r v).withPc a) [r] := by
  have hsame : (s.writeReg r v).withCpsr s.cpsr = s.writeReg r v := by
    rw [State.writeReg_regs_only]
    rfl
  rw [← hsame]
  exact leavesBut_write s r v s.cpsr a (KeepsControl.refl _)

/-- At an even address the second instruction of BL writes the return address with bit 0 set to LR and jumps (R305). -/
theorem exec_blSecond (o : BitVec 11) {s : State} (heven : s.pc.toNat % 2 = 0) :
    exec (.blSecond o) s = (s.writeReg lrReg (s.pc + 3#32)).jump (s.x lrReg + BitVec.ofNat 32 (2 * o.toNat)) := by
  have hreturn : (s.pc + 2#32) ||| 1#32 = s.pc + 3#32 := by
    rw [or_one_of_even (by bv_omega), BitVec.add_assoc]
    rfl
  rw [← blOffsetLow_eq, ← hreturn]
  rfl

/-- Settles O45: the jump discards bit 0 of the target, and LR is the one register written. -/
theorem branchLinkSecond : Obligations.BranchLinkSecond := by
  intro s o heven
  refine ⟨_, exec_blSecond o heven, ?pc, ?lr, ?cpsr, ?draws, leavesBut_writeReg_withPc s lrReg _ _⟩
  case pc => rw [State.withPc_pc, clearBit0_eq_ofNat]
  case lr => rw [State.x_withPc _ _ _ lrReg_ne_pcReg, State.x_writeReg_self _ _ _ lrReg_ne_pcReg]
  case cpsr => exact s.writeReg_cpsr lrReg (s.pc + 3#32)
  case draws => exact s.writeReg_draws lrReg (s.pc + 3#32)

/-! The pair the assembler writes for `BL label` -/

/-- Two runs that leave everything but the same registers alone, one after the other, do so together. -/
theorem LeavesBut.trans {s t u : State} {dests : List Reg} (h : LeavesBut s t dests) (h' : LeavesBut t u dests) :
    LeavesBut s u dests := by
  obtain ⟨hregs, hmem, ⟨hspsr, hbe, hmap⟩, hcontrol⟩ := h
  obtain ⟨hregs', hmem', ⟨hspsr', hbe', hmap'⟩, hcontrol'⟩ := h'
  have hmode : t.cpsr.mode = s.cpsr.mode := by
    obtain ⟨-, -, -, -, hm⟩ := hcontrol
    exact hm
  refine ⟨fun p hp => ?_, fun a => (hmem' a).trans (hmem a), ⟨hspsr'.trans hspsr, hbe'.trans hbe, hmap'.trans hmap⟩,
    hcontrol.trans hcontrol'⟩
  rw [hregs' p (hmode ▸ hp), hregs p hp]

/-- An even offset within the reach of BL is the sum of what its two fields stand for, the high one signed (R303; R121, C7). -/
theorem bl_halves_sum {off : Word} (heven : off.toInt % 2 = 0) (hlow : -4194304 ≤ off.toInt) (hhigh : off.toInt ≤ 4194302) :
    BitVec.ofInt 32 (4096 * (off.extractLsb' 12 11).toInt) + BitVec.ofNat 32 (2 * (off.extractLsb' 1 11).toNat) = off := by
  have hh : (off.extractLsb' 12 11).toNat = off.toNat / 4096 % 2048 := by
    rw [BitVec.extractLsb'_toNat, Nat.shiftRight_eq_div_pow]
  have hl : (off.extractLsb' 1 11).toNat = off.toNat / 2 % 2048 := by
    rw [BitVec.extractLsb'_toNat, Nat.shiftRight_eq_div_pow]
  have hsum : 4096 * (off.extractLsb' 12 11).toInt + ((2 * (off.extractLsb' 1 11).toNat : Nat) : Int) = off.toInt := by
    have := off.isLt
    rw [BitVec.toInt_eq_toNat_cond] at heven hlow hhigh
    rw [BitVec.toInt_eq_toNat_cond, BitVec.toInt_eq_toNat_cond, hh, hl]
    omega
  rw [← BitVec.ofInt_natCast 32 (2 * _), ← BitVec.ofInt_add, hsum, BitVec.ofInt_toInt]

/-- The fields that the assembler accepts for a BL lead to the label, which is at an even distance. -/
theorem blFields_reaches {iaddr : Word} {target : Label} {high low : BitVec 11}
    (h : blFields iaddr target = some (high, low)) :
    iaddr + 4#32 + BitVec.ofInt 32 (4096 * high.toInt) + BitVec.ofNat 32 (2 * low.toNat) = target.addr ∧
      target.addr.toNat % 2 = iaddr.toNat % 2 := by
  unfold blFields at h
  dsimp only at h
  split at h
  next hoff =>
    obtain ⟨heven, hlow, hhigh⟩ := hoff
    cases h
    constructor
    · rw [BitVec.add_assoc, bl_halves_sum heven hlow hhigh]
      exact add_sub_cancel _ _
    · rw [BitVec.toInt_eq_toNat_cond] at heven
      bv_omega
  next => cases h

theorem assemble_branchLink {iaddr : Word} {label : Label} {i j : Instr}
    (h : assemble iaddr (.branchLink label) = some [i, j]) :
    ∃ high low, blFields iaddr label = some (high, low) ∧ i = .blFirst high ∧ j = .blSecond low := by
  obtain ⟨⟨high, low⟩, hf, hij⟩ := Option.bind_eq_some_iff.1 h
  cases hij
  exact ⟨high, low, hf, rfl, rfl⟩

/-- Settles O46: the first instruction leaves the high part of the way in LR, the second adds the low part, and the label they
reach is even, so that nothing is lost with bit 0. -/
theorem assembledCallReachesLabel : Obligations.AssembledCallReachesLabel := by
  intro s label heven hpc i j h
  obtain ⟨high, low, hfields, rfl, rfl⟩ := assemble_branchLink h
  obtain ⟨hreach, hlabel⟩ := blFields_reaches hfields
  obtain ⟨t, ht, htlr, -, htcpsr, htpc, -, htleaves⟩ := branchLinkFirst s high hpc
  have hteven : t.pc.toNat % 2 = 0 := by
    rw [htpc]
    bv_omega
  obtain ⟨u, hu, hupc, hulr, hucpsr, -, huleaves⟩ := branchLinkSecond t low hteven
  refine ⟨t, u, ht, hu, ?pc, ?lr, hucpsr.trans htcpsr, htleaves.trans huleaves⟩
  case pc =>
    rw [hupc, htlr, hreach, ← clearBit0_eq_ofNat, clearBit0_of_even _ (hlabel.trans heven)]
  case lr =>
    rw [hulr, htpc, BitVec.add_assoc]
    rfl

end Sys2Proof.Machine
end

section
/-! The software interrupt exception: what its entry writes and keeps, and where the return from its handler goes
(10_state.md R40; 44_branch_swi.md R300; 60_exceptions.md R321, R329; 70_reset_and_hazards.md R361). -/

namespace Sys2Proof.Machine

theorem exec_swi (v : BitVec 8) (s : State) : exec (.swi v) s = .next s.enterSwi := rfl

/-! The registers, which the entry writes in one place and the return not at all -/

theorem State.bank_enterSwi (s : State) (q : PhysReg) :
    s.enterSwi.bank q = if PhysReg.lrSvc = q then s.pc + 2#32 else s.bank q := s.bank_withBank .lrSvc q _

theorem State.bank_enterSwi_lrSvc (s : State) : s.enterSwi.bank .lrSvc = s.pc + 2#32 := by
  rw [State.bank_enterSwi, if_pos rfl]

theorem State.bank_enterSwi_of_ne (s : State) {p : PhysReg} (h : p ≠ .lrSvc) : s.enterSwi.bank p = s.bank p := by
  rw [State.bank_enterSwi, if_neg h.symm]

@[simp] theorem State.bank_returnFromSwi (s : State) (q : PhysReg) : s.returnFromSwi.bank q = s.bank q := rfl

/-! Where the return goes -/

/-- An even address is where execution starts in either state. -/
theorem entryAddress_of_even (thumb : Bool) {v : Word} (h : v.toNat % 2 = 0) : entryAddress thumb v = v := by
  cases thumb with
  | false => exact entryAddress_arm v
  | true => rw [entryAddress_thumb, clearBit0_of_even v h]

/-- A return to THUMB state clears bit 0 of R14_svc (R361). -/
theorem State.returnFromSwi_pc_of_thumb {u : State} (h : u.spsr.svc.t = true) :
    u.returnFromSwi.pc = u.bank .lrSvc &&& 0xFFFFFFFE#32 := by
  rw [State.returnFromSwi_pc, h, entryAddress_thumb]

/-- The return right after the entry resumes after an SWI at an even address, in the state the SWI was in. -/
theorem State.returnFromSwi_enterSwi_pc {s : State} (h : s.pc.toNat % 2 = 0) :
    s.enterSwi.returnFromSwi.pc = s.pc + 2#32 := by
  have heven : (s.pc + 2#32).toNat % 2 = 0 := by bv_omega
  rw [State.returnFromSwi_pc, State.bank_enterSwi_lrSvc, entryAddress_of_even _ heven]

/-- Settles O48: an SWI is the exception entry, whatever Value8 is, and the entry writes R14_svc alone among the registers. -/
theorem softwareInterruptEntry : Obligations.SoftwareInterruptEntry := by
  intro s v
  refine ⟨s.enterSwi, exec_swi v s, s.bank_enterSwi_lrSvc, fun _ => s.bank_enterSwi_of_ne, s.enterSwi_spsr, s.enterSwi_cpsr,
    s.enterSwi_pc, fun a => ?memory, s.enterSwi_bigEndian, s.enterSwi_regions, s.enterSwi_draws⟩
  case memory => rw [State.byteAt, s.enterSwi_mem, State.byteAt]

/-- Settles O49: SPSR_svc holds the CPSR that the entry saved, R14_svc an even address if the SWI stood at one; and with bit 0
of R14_svc cleared a return to THUMB state is a launch state. -/
theorem softwareInterruptReturn : Obligations.SoftwareInterruptReturn := by
  refine ⟨fun s t v h => ?undoes, fun u hthumb => ?resumes⟩
  case undoes =>
    cases (exec_swi v s).symm.trans h
    exact ⟨by rw [State.returnFromSwi_cpsr, State.enterSwi_spsr], State.returnFromSwi_enterSwi_pc,
      fun p hp => (State.bank_returnFromSwi _ p).trans (s.bank_enterSwi_of_ne hp)⟩
  case resumes =>
    have hpc := State.returnFromSwi_pc_of_thumb hthumb
    refine ⟨hpc.trans (clearBit0_eq_ofNat _), fun hmem => ⟨hthumb, ?even, hmem⟩⟩
    case even => rw [hpc, getLsbD_zero_clearBit0]

end Sys2Proof.Machine
end

section
/-! Halfwords worked out from the source by hand (30_encoding.md, formats 6, 14, 17 and 18; 95_test_vectors.md 1.1). -/

namespace Sys2Proof

/-- To know what a halfword decodes to, it is enough to write a well-formed instruction as it: no other instruction is
written so. -/
theorem decodeHalf_eq_of_encode {h : Half} {i : Instr} (hwf : i.wellFormed = true) (henc : encode i = h) :
    decodeHalf h = i := by
  rw [← henc, decodeHalf_encode hwf]

/-- Settles O4: each word is its format's opcode bits with the printed operands put together after them. -/
theorem wordsOfTheSourceDecode : Obligations.WordsOfTheSourceDecode := by
  refine ⟨decodeHalf_eq_of_encode rfl ?branch, decodeHalf_eq_of_encode rfl ?loadPcRelative,
    decodeHalf_eq_of_encode rfl ?pushWithLr, decodeHalf_eq_of_encode rfl ?softwareInterrupt⟩
  case branch => exact show 0b11100#5 ++ 0x7FE#11 = 0xE7FE#16 by decide
  case loadPcRelative => exact show 0b01001#5 ++ 3#3 ++ 211#8 = 0x4BD3#16 by decide
  case pushWithLr => exact show 0b10110101#8 ++ 0x1F#8 = 0xB51F#16 by decide
  case softwareInterrupt => exact show 0b11011111#8 ++ 18#8 = 0xDF12#16 by decide

end Sys2Proof
end
